-- ==== Sys2Proof/Word.lean ====
section
/-! DEFINITION. The unit of transfer and of addressing of the block: the byte (20_memory.md rule R61). -/

namespace Sys2Proof

/-- A byte: "The byte (8 bits) is the only unit of transfer and of addressing" (R61, R10). -/
abbrev Byte := BitVec 8

end Sys2Proof
end

