-- ==== Sys2Proof/Config.lean ====
section
/-! DEFINITION. What the platform fixes and what the spec leaves unspecified. The injected hash functions
(44_checksum_protocol.md R230) and the port outputs that the spec calls unspecified (R133, R142, R143) are constants without
a body: no proof can learn a value of them. -/

namespace Sys2Proof

/-- Which hash triple a unit was made with (`ENC_H`, `DEC_H`, 00_scope.md R7: an argument of the model). `injected n` is the
platform's function number `n`, about which nothing is known (R233). `sum32` and `not32` are the two fixture triples that
95_test_vectors.md section 1 defines (D31): legal triples like any other, present so that the spec's vectors can be evaluated
(log entry 5). -/
inductive HashFn where
  | injected (n : Nat)
  | sum32
  | not32
deriving DecidableEq, Repr

/-- `h_update` of the platform's hash function `n` on an accumulator (coded as a number, log entry 4) and a byte (R230). -/
opaque Config.injectedUpdate (n : Nat) (acc : Nat) (b : Byte) : Nat

/-- `h_final` of the platform's hash function `n` (R230): the 32-bit digest of an accumulator. -/
opaque Config.injectedFinal (n : Nat) (acc : Nat) : BitVec 32

/-- The `H` output of HDR.PACK while `RANGE_ERR = 1`: unspecified (R133), a fresh free value for each `n` (log entry 6). -/
opaque Config.freeHeader (n : Nat) : BitVec 16

/-- The `width` output of WIDTHOF while `OOR = 1`: unspecified (R142), a fresh free value for each `n` (log entry 6). -/
opaque Config.freeWidth (n : Nat) : BitVec 3

/-- The `wc` output of WC.ENC while `RANGE_ERR = 1`: unspecified (R143), a fresh free value for each `n` (log entry 6). -/
opaque Config.freeClass (n : Nat) : BitVec 2

end Sys2Proof
end

