-- ==== Sys2Proof/Syntax.lean ====
section
/-! DEFINITION. The operations of the block: one constructor of `Instr` for each of the 21 rows of spec/opcode_table.json
(30_encoding.md R116). -/

namespace Sys2Proof

/-- The number of bytes of a value-length field, 1 to 4 (00_scope.md R12 "Width"): the domain of `pack`, `wc_enc` and
`len_emit` (R131, R143, R146). -/
inductive Width where
  | one
  | two
  | three
  | four
deriving DecidableEq, Repr

/-- The ports on which a requester presents an operation. Two carry an opcode bit (the command words of R114 and R115), two
are the opcode-less RETIRE steps, and each combinational function has "a port of its own" (R116). -/
inductive Port where
  | encCmd
  | decCmd
  | encRetire
  | decRetire
  | hdrPack
  | hdrUnpack
  | widthOf
  | wcEnc
  | wcDec
  | lenEmit
  | lenAssemble
deriving DecidableEq, Repr

/-- The operations. The eight `frame…` constructors are header words, which "play the part an instruction word plays in an ISA"
(R90): width-class and checksum flag select the constructor, the tag and the key length are its operands. -/
inductive Instr where
  /-- FRAME.W1 (R101): one length byte, no trailer. -/
  | frameW1 (tag : BitVec 4) (klen : BitVec 9)
  /-- FRAME.W1.C (R102): one length byte, trailer present. -/
  | frameW1C (tag : BitVec 4) (klen : BitVec 9)
  /-- FRAME.W2 (R103): two length bytes, no trailer. -/
  | frameW2 (tag : BitVec 4) (klen : BitVec 9)
  /-- FRAME.W2.C (R104): two length bytes, trailer present. -/
  | frameW2C (tag : BitVec 4) (klen : BitVec 9)
  /-- FRAME.W3 (R105): three length bytes, no trailer. -/
  | frameW3 (tag : BitVec 4) (klen : BitVec 9)
  /-- FRAME.W3.C (R106): three length bytes, trailer present. -/
  | frameW3C (tag : BitVec 4) (klen : BitVec 9)
  /-- FRAME.W4 (R107): four length bytes, no trailer. -/
  | frameW4 (tag : BitVec 4) (klen : BitVec 9)
  /-- FRAME.W4.C (R108): four length bytes, trailer present. -/
  | frameW4C (tag : BitVec 4) (klen : BitVec 9)
  /-- ENCODE_TAGGED (R162), the command word `CW_E` with `OP = 1` (R114). -/
  | encodeTagged (tag : BitVec 4) (klen vlen : BitVec 64)
  /-- ENCODE (R163), the command word `CW_E` with `OP = 0`. The word's tag bits are a don't-care (R117, R161), kept here so that
  no bit of the word is lost. -/
  | encode (tag : BitVec 4) (klen vlen : BitVec 64)
  /-- DECODE_TAGGED (R191), `CW_D = 1` (R115). -/
  | decodeTagged
  /-- DECODE (R192), `CW_D = 0`. -/
  | decode
  /-- ENC.RETIRE (R181). -/
  | encRetire
  /-- DEC.RETIRE (R219). -/
  | decRetire
  /-- HDR.PACK (R131). The width port has 3 bits and can carry an illegal width (R133). -/
  | hdrPack (width : BitVec 3) (c : Bool) (t : BitVec 4) (k : BitVec 9)
  /-- HDR.UNPACK (R132). -/
  | hdrUnpack (h : BitVec 16)
  /-- WIDTHOF (R141). -/
  | widthOf (l : BitVec 64)
  /-- WC.ENC (R143). The width port has 3 bits and can carry an illegal width. -/
  | wcEnc (width : BitVec 3)
  /-- WC.DEC (R144). -/
  | wcDec (wc : BitVec 2)
  /-- LEN.EMIT (R146). -/
  | lenEmit (width : Width) (l : BitVec 32)
  /-- LEN.ASSEMBLE (R147): 1 to 4 bytes, first on the wire first. -/
  | lenAssemble (bytes : List Byte)
deriving DecidableEq, Repr

end Sys2Proof
end

