-- ==== Sys2Proof/WellFormed.lean ====
section
/-! DEFINITION. Which terms of `Instr` the hardware can be given. Field widths are in the types, so one operand is left to check:
the byte sequence of LEN.ASSEMBLE, "a sequence `s` of 1 to 4 bytes" (41_length_width_selector.md R147). -/

namespace Sys2Proof

/-- The bytes LEN.ASSEMBLE takes: at least one and at most four (R147). -/
def lenAssembleOperand (bytes : List Byte) : Bool :=
  1 ≤ bytes.length && bytes.length ≤ 4

/-- The operand check of an instruction. -/
def WellFormed : Instr → Bool
  | .frameW1 _ _ => true
  | .frameW1C _ _ => true
  | .frameW2 _ _ => true
  | .frameW2C _ _ => true
  | .frameW3 _ _ => true
  | .frameW3C _ _ => true
  | .frameW4 _ _ => true
  | .frameW4C _ _ => true
  | .encodeTagged _ _ _ => true
  | .encode _ _ _ => true
  | .decodeTagged => true
  | .decode => true
  | .encRetire => true
  | .decRetire => true
  | .hdrPack _ _ _ _ => true
  | .hdrUnpack _ => true
  | .widthOf _ => true
  | .wcEnc _ => true
  | .wcDec _ => true
  | .lenEmit _ _ => true
  | .lenAssemble bytes => lenAssembleOperand bytes

end Sys2Proof
end

