-- ==== Sys2Proof/Decode.lean ====
section
/-! DEFINITION. Reading and writing the encodings of 30_encoding.md: the header word (R91 to R108), the command words
(R114, R115) and, for the steps and ports that "no opcode selects" (R116), the model's own layout of the port's wires in one
request word (log entry 7). The decoder is total and rejects by name; the encoder follows it. -/

namespace Sys2Proof

/-- The operand wires of a requester's port as one word. The widest port is the encoder's 133-bit command word (R114); a
narrower port uses the low bits (log entry 7). -/
abbrev RequestWord := BitVec 133

/-- What a decoder of the block is given: a header word (R90), or a word on one of the requester's ports (R116). -/
inductive Encoded where
  | header (h : BitVec 16)
  | request (p : Port) (w : RequestWord)
deriving DecidableEq, Repr

/-- Why a word or a byte sequence has no instruction. No header word and no command word is ever rejected (R111, R117). -/
inductive DecodeError where
  /-- A bit above the port's wires is set: no such wire exists. -/
  | bitsBeyondPort (p : Port)
  /-- LEN.EMIT with a width outside 1 to 4, its operand's domain (R146). -/
  | lenEmitWidth
  /-- LEN.ASSEMBLE with a byte count outside 1 to 4, its operand's domain (R147). -/
  | lenAssembleCount
  /-- LEN.ASSEMBLE with a bit set in a byte place that its count does not use. The byte places are the model's own layout, and that
  such a word is rejected, not read with the bit ignored, is its choice (DESIGN CHOICE, log entry 7). -/
  | lenAssembleUnused
  /-- Fewer than the two bytes of a header (R93). -/
  | shortHeader
deriving DecidableEq, Repr

/-! ### Fields -/

/-- The 3-bit form of a width (the registers `ENC.WIDTH`, `DEC.WIDTH` and the width ports): the number itself. -/
def Width.bits : Width → BitVec 3
  | .one => 1#3
  | .two => 2#3
  | .three => 3#3
  | .four => 4#3

/-- The width a 3-bit value stands for; the values 0, 5, 6, 7 stand for none (R133). -/
def Width.ofBits (b : BitVec 3) : Option Width :=
  if b = 1#3 then some .one
  else if b = 2#3 then some .two
  else if b = 3#3 then some .three
  else if b = 4#3 then some .four
  else none

/-- How many wires a port has: 133 and 1 for the command words (R114, R115), none for RETIRE, and the operand widths of
R131, R132, R141, R143, R144, R146 and R147 for the combinational ports (LEN.ASSEMBLE: a 3-bit count and four byte places). -/
def Port.bits : Port → Nat
  | .encCmd => 133
  | .decCmd => 1
  | .encRetire => 0
  | .decRetire => 0
  | .hdrPack => 17
  | .hdrUnpack => 16
  | .widthOf => 64
  | .wcEnc => 3
  | .wcDec => 2
  | .lenEmit => 35
  | .lenAssemble => 35

/-- The bytes of a LEN.ASSEMBLE request: the byte at index `i` stands in bits `8i+7` to `8i`. -/
def requestBytes (n : Nat) (w : BitVec 32) : List Byte :=
  (List.range n).map fun i => w.extractLsb' (8 * i) 8

/-- The inverse of `requestBytes`. -/
def requestPlaces : List Byte → BitVec 32
  | [] => 0#32
  | b :: bs => (requestPlaces bs <<< 8) ||| b.setWidth 32

/-! ### Decoding -/

/-- The instruction of a header word: bits 15 to 13 select one of the eight frame formats, bits 12 to 9 are the tag and
bits 8 to 0 the key length (R91, R101 to R108). Total: every header word is legal (R111). -/
def decodeHeader (h : BitVec 16) : Instr :=
  match h.getLsbD 15, h.getLsbD 14, h.getLsbD 13 with
  | false, true, false => .frameW1 (h.extractLsb' 9 4) (h.extractLsb' 0 9)
  | false, true, true => .frameW1C (h.extractLsb' 9 4) (h.extractLsb' 0 9)
  | true, false, false => .frameW2 (h.extractLsb' 9 4) (h.extractLsb' 0 9)
  | true, false, true => .frameW2C (h.extractLsb' 9 4) (h.extractLsb' 0 9)
  | true, true, false => .frameW3 (h.extractLsb' 9 4) (h.extractLsb' 0 9)
  | true, true, true => .frameW3C (h.extractLsb' 9 4) (h.extractLsb' 0 9)
  | false, false, false => .frameW4 (h.extractLsb' 9 4) (h.extractLsb' 0 9)
  | false, false, true => .frameW4C (h.extractLsb' 9 4) (h.extractLsb' 0 9)

/-- The header word of the first two bytes of a frame, big-endian (R93), and the bytes after it. -/
def decodeHeaderBytes : List Byte → Except DecodeError (Instr × List Byte)
  | b0 :: b1 :: rest => .ok (decodeHeader (b0 ++ b1 : BitVec 16), rest)
  | [_] => .error .shortHeader
  | [] => .error .shortHeader

/-- The encoder's command word `CW_E` (R114): `OP` in bit 132, `TAG` in 131 to 128, `KLEN` in 127 to 64, `VLEN` in 63 to 0. -/
def decodeEncCmd (w : RequestWord) : Instr :=
  if w.getLsbD 132 then .encodeTagged (w.extractLsb' 128 4) (w.extractLsb' 64 64) (w.extractLsb' 0 64)
  else .encode (w.extractLsb' 128 4) (w.extractLsb' 64 64) (w.extractLsb' 0 64)

/-- The decoder's command word `CW_D` (R115): one bit, 0 = DECODE, 1 = DECODE_TAGGED. -/
def decodeDecCmd (w : RequestWord) : Instr :=
  if w.getLsbD 0 then .decodeTagged else .decode

/-- A LEN.EMIT request: the width in bits 34 to 32, the length in bits 31 to 0. -/
def decodeLenEmit (w : RequestWord) : Except DecodeError Instr :=
  match Width.ofBits (w.extractLsb' 32 3) with
  | some width => .ok (.lenEmit width (w.extractLsb' 0 32))
  | none => .error .lenEmitWidth

/-- A LEN.ASSEMBLE request: the byte count in bits 34 to 32, the bytes below it (`requestBytes`). R147 gives the port no layout, so
what a byte place beyond the count may hold is open: the model takes 0 only and rejects every other word (DESIGN CHOICE, log
entry 7). -/
def decodeLenAssemble (w : RequestWord) : Except DecodeError Instr :=
  match Width.ofBits (w.extractLsb' 32 3) with
  | none => .error .lenAssembleCount
  | some count =>
    if (w.extractLsb' 0 32) >>> (8 * count.bits.toNat) = 0#32 then
      .ok (.lenAssemble (requestBytes count.bits.toNat (w.extractLsb' 0 32)))
    else .error .lenAssembleUnused

/-- A word on one of the requester's ports. The port, not the word, selects the operation (R116), but for the two opcode bits. -/
def decodeRequest (p : Port) (w : RequestWord) : Except DecodeError Instr :=
  if w >>> p.bits ≠ 0#133 then .error (.bitsBeyondPort p)
  else
    match p with
    | .encCmd => .ok (decodeEncCmd w)
    | .decCmd => .ok (decodeDecCmd w)
    | .encRetire => .ok .encRetire
    | .decRetire => .ok .decRetire
    | .hdrPack => .ok (.hdrPack (w.extractLsb' 14 3) (w.getLsbD 13) (w.extractLsb' 9 4) (w.extractLsb' 0 9))
    | .hdrUnpack => .ok (.hdrUnpack (w.extractLsb' 0 16))
    | .widthOf => .ok (.widthOf (w.extractLsb' 0 64))
    | .wcEnc => .ok (.wcEnc (w.extractLsb' 0 3))
    | .wcDec => .ok (.wcDec (w.extractLsb' 0 2))
    | .lenEmit => decodeLenEmit w
    | .lenAssemble => decodeLenAssemble w

/-- The decoder. -/
def decode : Encoded → Except DecodeError Instr
  | .header h => .ok (decodeHeader h)
  | .request p w => decodeRequest p w

/-! ### Encoding -/

/-- A header word from the three selecting bits of R101 to R108 and its two operand fields. -/
def headerWord (format : BitVec 3) (tag : BitVec 4) (klen : BitVec 9) : BitVec 16 :=
  format ++ tag ++ klen

/-- The command word `CW_E` (R114). -/
def encCmdWord (op : Bool) (tag : BitVec 4) (klen vlen : BitVec 64) : RequestWord :=
  BitVec.ofBool op ++ tag ++ klen ++ vlen

/-- The count field of a LEN.ASSEMBLE request. -/
def countBits (bytes : List Byte) : BitVec 3 :=
  BitVec.ofNat 3 bytes.length

/-- The word of an instruction, written from the same tables as the decoder. -/
def encode : Instr → Encoded
  | .frameW1 tag klen => .header (headerWord 0b010#3 tag klen)
  | .frameW1C tag klen => .header (headerWord 0b011#3 tag klen)
  | .frameW2 tag klen => .header (headerWord 0b100#3 tag klen)
  | .frameW2C tag klen => .header (headerWord 0b101#3 tag klen)
  | .frameW3 tag klen => .header (headerWord 0b110#3 tag klen)
  | .frameW3C tag klen => .header (headerWord 0b111#3 tag klen)
  | .frameW4 tag klen => .header (headerWord 0b000#3 tag klen)
  | .frameW4C tag klen => .header (headerWord 0b001#3 tag klen)
  | .encodeTagged tag klen vlen => .request .encCmd (encCmdWord true tag klen vlen)
  | .encode tag klen vlen => .request .encCmd (encCmdWord false tag klen vlen)
  | .decodeTagged => .request .decCmd 1#133
  | .decode => .request .decCmd 0#133
  | .encRetire => .request .encRetire 0#133
  | .decRetire => .request .decRetire 0#133
  | .hdrPack width c t k => .request .hdrPack ((width ++ BitVec.ofBool c ++ t ++ k).setWidth 133)
  | .hdrUnpack h => .request .hdrUnpack (h.setWidth 133)
  | .widthOf l => .request .widthOf (l.setWidth 133)
  | .wcEnc width => .request .wcEnc (width.setWidth 133)
  | .wcDec wc => .request .wcDec (wc.setWidth 133)
  | .lenEmit width l => .request .lenEmit ((width.bits ++ l).setWidth 133)
  | .lenAssemble bytes => .request .lenAssemble ((countBits bytes ++ requestPlaces bytes).setWidth 133)

/-! ### The opcode table's own numbering -/

/-- The two bytes of a header word in wire order, `H[15:8]` first (R73, R93). -/
def headerBytes (h : BitVec 16) : List Byte :=
  [h.extractLsb' 8 8, h.extractLsb' 0 8]

/-- The instruction read from the bits `w` of a row of spec/opcode_table.json that gives the row `nbits` bits, rounded up to whole
bytes: 16 for the eight header words (laid out as the two wire bytes), 8 (or 1) for `CW_D`, 136 (or 133) for `CW_E`. The
rounding bits of a command word reach no wire and are dropped. The table gives the other rows no bits (mask 0): a port selects
them, and no word alone names one. -/
def decodeTableWord (nbits w : Nat) : Option Instr :=
  if nbits = 16 then
    match decodeHeaderBytes (headerBytes (BitVec.ofNat 16 w)) with
    | .ok (i, _) => some i
    | .error _ => none
  else if nbits = 8 ∨ nbits = 1 then
    (decode (.request .decCmd (BitVec.ofNat 133 (w % 2)))).toOption
  else if nbits = 136 ∨ nbits = 133 then
    (decode (.request .encCmd (BitVec.ofNat 133 w))).toOption
  else none

end Sys2Proof
end

