-- ==== Sys2Proof/Machine/State.lean ====
section
/-! DEFINITION. The state of one `BLC` as plain data: the registers of `ENC` and `DEC` (10_state.md), the byte buffers, and the
environment the block meets (sink, source, waiting requesters, the order in which agents move), which R20 does not count as the
block's own state and which a step reads all the same (log entry 1). -/

namespace Sys2Proof.Machine

/-! ### Codes -/

/-- The phases of a unit (R24). -/
inductive Phase where
  | idle
  | validate
  | header
  | length
  | key
  | value
  | checksum
  | done
  | error
  | eos
deriving DecidableEq, Repr

/-- The status with which a command ends (R118). -/
inductive Status where
  | ok
  | keyTooLong
  | valueTooLong
  | outOfRange
  | endOfStream
  | truncatedStream
  | checksumMismatch
  | ioFailure
deriving DecidableEq, Repr

/-! ### The environment -/

/-- The sink's answer to one `SinkPush` (R63). -/
inductive SinkAnswer where
  | ok
  | err
deriving DecidableEq, Repr

/-- The source's answer to one `SrcPull` (R66). -/
inductive SourceAnswer where
  | byte (b : Byte)
  | eos
  | err
deriving DecidableEq, Repr

/-- A byte buffer, indexed from 0 (R38): its listed cells, addresses strictly rising. What an unlisted address reads as is
`memBlank` in Machine/Memory.lean. -/
abbrev Memory := List Host.Cell

/-- What a waiting requester presents: a port, the word on it, and for an encoder command the two operand buffers, which go
"together with" the command word (R114). -/
structure Request where
  port : Port
  word : RequestWord
  kbuf : Memory
  vbuf : Memory
deriving DecidableEq, Repr

/-- Who moves next (R5): a unit, the `n`-th of the waiting requesters (any of them may be the one served, R83), or the hardware
reset input (R290). -/
inductive Agent where
  | enc
  | dec
  | requester (n : Nat)
  | reset
deriving DecidableEq, Repr

/-! ### Registers -/

/-- The registers of the encoder `ENC`: command (R22), working (R23), sequencing (R24, R25), status (R27), accumulator (R28). -/
structure EncState where
  op : Bool
  tag : BitVec 4
  klen64 : BitVec 64
  vlen64 : BitVec 64
  klen : BitVec 9
  vlen : BitVec 32
  width : BitVec 3
  hdr : BitVec 16
  dig : BitVec 32
  phase : BitVec 4
  idx : BitVec 32
  status : BitVec 3
  errphase : BitVec 4
  expected : BitVec 64
  actual : BitVec 64
  acc : Nat
deriving DecidableEq, Repr

/-- The registers of the decoder `DEC`: command (R30), working (R31), result (R32), sequencing (R24, R25), status (R33),
accumulator (R34). -/
structure DecState where
  op : Bool
  hdr : BitVec 16
  width : BitVec 3
  ck : Bool
  tag : BitVec 4
  klen : BitVec 9
  vlen : BitVec 32
  digrx : BitVec 32
  rklen : BitVec 9
  rvlen : BitVec 32
  rtag : BitVec 4
  phase : BitVec 4
  idx : BitVec 32
  status : BitVec 3
  errphase : BitVec 4
  expected : BitVec 64
  actual : BitVec 64
  acc : Nat
deriving DecidableEq, Repr

/-- What stands on the output wires of the combinational ports after the latest request on each (R116). The units are stateless
(R20): these are the requester's view, a field of the model (log entry 8). -/
structure PortOutputs where
  packH : BitVec 16
  packRangeErr : Bool
  unpackWidth : BitVec 3
  unpackC : Bool
  unpackT : BitVec 4
  unpackK : BitVec 9
  widthOfWidth : BitVec 3
  widthOfOor : Bool
  wcEncWc : BitVec 2
  wcEncRangeErr : Bool
  wcDecWidth : BitVec 3
  lenEmitBytes : List Byte
  lenAssembleL : BitVec 32
deriving DecidableEq, Repr

/-- The whole state. `encHashEn`, `decHashEn`, `encHash` and `decHash` are the straps and hash functions of R7: no step writes
them. `sink` is the sink log `SINK` (R64). `sinkAnswers` and `sourceAnswers` are the answers the environment will give, one for
each transaction (R63, R67); an empty list is a transaction not yet answered (R68). `requests` are the waiting requesters and
`turns` the order in which agents move (R275). `freeCount` numbers the free values drawn so far. -/
structure State where
  enc : EncState
  dec : DecState
  encHashEn : Bool
  decHashEn : Bool
  encHash : HashFn
  decHash : HashFn
  kbuf : Memory
  vbuf : Memory
  rkbuf : Memory
  rvbuf : Memory
  sink : List Byte
  sinkAnswers : List SinkAnswer
  sourceAnswers : List SourceAnswer
  requests : List Request
  turns : List Agent
  ports : PortOutputs
  freeCount : Nat
deriving DecidableEq, Repr

/-! ### Reasons to stop -/

/-- Faults. The block's own failures are statuses and not faults (R273 (a)); these two stop the model at an address the spec
says does not exist. -/
inductive Fault where
  /-- Raised by the encoder's `KEY` byte step when it would read `KBUF` at or beyond `KLEN64` (R38 (a)). Safe: the model stops.
  No state that keeps R40 (c) and (d) raises it. -/
  | kbufIndex
  /-- Raised by the encoder's `VALUE` byte step when it would read `VBUF` at or beyond `VLEN64` (R38 (b)). Safe likewise. -/
  | vbufIndex
deriving DecidableEq, Repr

/-- Refusals: the model gives no next state (R274). Each is safe: nothing can be proved of what would follow. -/
inductive Refusal where
  /-- Raised by `exec` for an instruction without a meaning. -/
  | notModelled (mnemonic : String)
  /-- Raised by the requester's turn for a word on a port that is no request of that port. Safe. -/
  | undecodable (e : DecodeError)
  /-- Raised by ENCODE, ENCODE_TAGGED, DECODE, DECODE_TAGGED while the unit's `PHASE` is not `IDLE`: "these steps are simply not
  enabled" (R274). A requester's turn never reaches it, the requester waits (R83). Safe. -/
  | issueNotEnabled
  /-- Raised by ENC.RETIRE, DEC.RETIRE while `PHASE` is not terminal (R274). A requester's turn never reaches it. Safe. -/
  | retireNotEnabled
  /-- Raised by the FRAME operations while the decoder does not hold a complete header (`PHASE = HEADER` and `IDX = 2`, the
  condition of R196). The decoder's turn never reaches it. Safe. -/
  | headerNotReady
  /-- Raised by LEN.ASSEMBLE for a sequence that is not of 1 to 4 bytes, which is outside its operand's domain (R147). Safe. -/
  | operandOutOfDomain
  /-- Raised by every step from a state whose `ENC.PHASE` is 9 to 15, whoever's turn it is (R40, R185, R274, D40). Safe. -/
  | encPhaseUnreachable
  /-- Raised by every step from a state whose `DEC.PHASE` is 1 or 10 to 15, whoever's turn it is (R40, R223, R274, D40). Safe. -/
  | decPhaseUnreachable
  /-- Raised by the encoder's turn in a working phase with `IDX` above the field's length: no rule's condition holds, and R40 (c)
  excludes it. Safe. -/
  | encIdxUnreachable
  /-- Raised by the decoder's turn likewise. Safe. -/
  | decIdxUnreachable
  /-- Raised by the host's read of `RKBUF` or `RVBUF` outside phase `DONE` or at or beyond the valid length (R274, R301). Safe. -/
  | resultNotValid
  /-- Raised by the host's read of a port's data output while its error flag is set (R133, R142, R143, R274). Safe. -/
  | portOutputUnspecified
deriving DecidableEq, Repr

/-! ### Reset -/

/-- `ENC` after reset: every register 0, `PHASE = IDLE`, the accumulator `h_init` (R41), which the model codes as 0 (log entry 4). -/
def EncState.reset : EncState where
  op := false
  tag := 0
  klen64 := 0
  vlen64 := 0
  klen := 0
  vlen := 0
  width := 0
  hdr := 0
  dig := 0
  phase := 0
  idx := 0
  status := 0
  errphase := 0
  expected := 0
  actual := 0
  acc := 0

/-- `DEC` after reset (R41). -/
def DecState.reset : DecState where
  op := false
  hdr := 0
  width := 0
  ck := false
  tag := 0
  klen := 0
  vlen := 0
  digrx := 0
  rklen := 0
  rvlen := 0
  rtag := 0
  phase := 0
  idx := 0
  status := 0
  errphase := 0
  expected := 0
  actual := 0
  acc := 0

/-- The port outputs before any request: all 0 (DESIGN CHOICE, log entry 8). -/
def PortOutputs.blank : PortOutputs where
  packH := 0
  packRangeErr := false
  unpackWidth := 0
  unpackC := false
  unpackT := 0
  unpackK := 0
  widthOfWidth := 0
  widthOfOor := false
  wcEncWc := 0
  wcEncRangeErr := false
  wcDecWidth := 0
  lenEmitBytes := []
  lenAssembleL := 0

/-- A `BLC` with the given straps and hash functions, right after reset, with nothing in its buffers and nothing happening
around it (R41, R297). -/
def State.resetOf (encHashEn decHashEn : Bool) (encHash decHash : HashFn) : State where
  enc := EncState.reset
  dec := DecState.reset
  encHashEn := encHashEn
  decHashEn := decHashEn
  encHash := encHash
  decHash := decHash
  kbuf := []
  vbuf := []
  rkbuf := []
  rvbuf := []
  sink := []
  sinkAnswers := []
  sourceAnswers := []
  requests := []
  turns := []
  ports := PortOutputs.blank
  freeCount := 0

/-- The machine right after reset. The straps and hash functions are arguments of the instance (R7) and reset does not set them
(R291); this one instance has no hash configured (DESIGN CHOICE, log entry 3). Statements about every instance quantify over the
state's strap fields. -/
def State.reset : State :=
  State.resetOf false false (.injected 0) (.injected 0)

end Sys2Proof.Machine
end

