-- ==== Sys2Proof/Machine/Flags.lean ====
section
/-! DEFINITION. The codes of phases and statuses (R24, R118) and the control values of R36. The block has no arithmetic flags. -/

namespace Sys2Proof.Machine

/-- The 4-bit code of a phase (R24, R119). -/
def Phase.code : Phase → BitVec 4
  | .idle => 0
  | .validate => 1
  | .header => 2
  | .length => 3
  | .key => 4
  | .value => 5
  | .checksum => 6
  | .done => 7
  | .error => 8
  | .eos => 9

/-- The phase a code stands for; 10 to 15 stand for none (R24). -/
def Phase.ofCode (c : BitVec 4) : Option Phase :=
  match c.toNat with
  | 0 => some .idle
  | 1 => some .validate
  | 2 => some .header
  | 3 => some .length
  | 4 => some .key
  | 5 => some .value
  | 6 => some .checksum
  | 7 => some .done
  | 8 => some .error
  | 9 => some .eos
  | _ => none

/-- The 3-bit code of a status (R118). -/
def Status.code : Status → BitVec 3
  | .ok => 0
  | .keyTooLong => 1
  | .valueTooLong => 2
  | .outOfRange => 3
  | .endOfStream => 4
  | .truncatedStream => 5
  | .checksumMismatch => 6
  | .ioFailure => 7

/-- The class `InputTooLarge` of a status code: `1 ≤ STATUS.CODE ≤ 3` (R120). -/
def inputTooLarge (c : BitVec 3) : Bool :=
  1 ≤ c.toNat && c.toNat ≤ 3

/-- The phases in which the encoder holds a finished command (R181). -/
def encTerminal (c : BitVec 4) : Bool :=
  c == Phase.done.code || c == Phase.error.code

/-- The phases in which the decoder holds a finished command (R219). -/
def decTerminal (c : BitVec 4) : Bool :=
  c == Phase.done.code || c == Phase.error.code || c == Phase.eos.code

/-- `verify` of 43_frame_decoder.md: the decoder has a hash and the frame carries a digest. -/
def verifies (s : State) : Bool :=
  s.decHashEn && s.dec.ck

/-- The condition of R196: both header bytes are in and the header has not been taken yet. -/
def headerReady (s : State) : Bool :=
  s.dec.phase == Phase.header.code && s.dec.idx == 2#32

/-- `ENC.PHASE` holds a code that the encoder can hold, 0 to 8 (R40 (a), R185). -/
def encPhaseReachable (s : State) : Bool :=
  decide (s.enc.phase.toNat ≤ 8)

/-- `DEC.PHASE` holds a code that the decoder can hold, 0 or 2 to 9 (R40 (a), R223). -/
def decPhaseReachable (s : State) : Bool :=
  s.dec.phase != Phase.validate.code && decide (s.dec.phase.toNat ≤ 9)

/-- R40 (a). A state that breaks it "has no step defined" (R40, U14). -/
def phasesReachable (s : State) : Bool :=
  encPhaseReachable s && decPhaseReachable s

/-- The frame lock of the encoder, held exactly when `PHASE ≠ IDLE` (R83). -/
def encLocked (s : State) : Bool :=
  s.enc.phase != Phase.idle.code

/-- The frame lock of the decoder (R83). -/
def decLocked (s : State) : Bool :=
  s.dec.phase != Phase.idle.code

end Sys2Proof.Machine
end

