-- ==== Sys2Proof/Machine/Hash.lean ====
section
/-! DEFINITION. The hash port (44_checksum_protocol.md R230, R231). An accumulator is a value of the hash's own accumulator type,
coded as a number with `h_init` coded as 0 (log entry 4). -/

namespace Sys2Proof

/-- `h_init` (R230). -/
def HashFn.init (_ : HashFn) : Nat := 0

/-- `h_update` (R230). The fixtures add the byte modulo 2^32 (D31). -/
def HashFn.update : HashFn → Nat → Byte → Nat
  | .injected n, acc, b => Config.injectedUpdate n acc b
  | .sum32, acc, b => (acc + b.toNat) % 4294967296
  | .not32, acc, b => (acc + b.toNat) % 4294967296

/-- `h_final` (R230). `NOT32` complements the sum (D31). -/
def HashFn.final : HashFn → Nat → BitVec 32
  | .injected n, acc => Config.injectedFinal n acc
  | .sum32, acc => BitVec.ofNat 32 acc
  | .not32, acc => ~~~(BitVec.ofNat 32 acc)

/-- The accumulator after the bytes of `s`, index 0 first (R231). -/
def HashFn.fold (h : HashFn) (s : List Byte) : Nat :=
  s.foldl h.update h.init

/-- The digest of a byte sequence: `dig(H, s) = h_final(fold(h_update, h_init, s))` (R231). -/
def HashFn.dig (h : HashFn) (s : List Byte) : BitVec 32 :=
  h.final (h.fold s)

end Sys2Proof
end

