-- ==== Sys2Proof/Machine/Memory.lean ====
section
/-! DEFINITION. The four byte buffers (20_memory.md R70, R71): reading, writing and the canonical form of `Memory`. -/

namespace Sys2Proof.Machine

/-- What an unlisted address reads as: 0 (DESIGN CHOICE, log entry 2). -/
def memBlank : Byte := 0#8

/-- One byte of a buffer. -/
def memRead : Memory → Nat → Byte
  | [], _ => memBlank
  | (k, v) :: rest, a => if k = a then v else memRead rest a

/-- Put a byte in front of the cells above it, unless it is what an unlisted address reads as anyway. -/
def memCons (a : Nat) (b : Byte) (rest : Memory) : Memory :=
  if b = memBlank then rest else (a, b) :: rest

/-- Store one byte, keeping addresses strictly rising and leaving out blank bytes. -/
def memWrite : Memory → Nat → Byte → Memory
  | [], a, b => memCons a b []
  | (k, v) :: rest, a, b =>
    if a < k then memCons a b ((k, v) :: rest)
    else if a = k then memCons a b rest
    else (k, v) :: memWrite rest a b

/-- The canonical form: addresses strictly rising, no cell that reads as an unlisted one. -/
abbrev Memory.wf (m : Memory) : Prop :=
  m.Pairwise (fun c d => c.1 < d.1) ∧ ∀ c ∈ m, c.2 ≠ memBlank

/-- The first `n` bytes of a buffer, index 0 first: `B[0 .. n)` in the spec's notation (R10). -/
def memBytes (m : Memory) (n : Nat) : List Byte :=
  (List.range n).map (memRead m)

/-- A buffer holding a byte sequence from index 0. -/
def memOfBytes (bytes : List Byte) : Memory :=
  (bytes.zipIdx).foldl (fun m c => memWrite m c.2 c.1) []

end Sys2Proof.Machine
end

