-- ==== Sys2Proof/Machine/Operands.lean ====
section
/-! DEFINITION. The pure functions of record_header_codec (40_header_codec.md) and length_width_selector
(41_length_width_selector.md), and the byte images of 20_memory.md R73. -/

namespace Sys2Proof

/-- A width as a number of bytes. -/
def Width.toNat : Width → Nat
  | .one => 1
  | .two => 2
  | .three => 3
  | .four => 4

/-- `wc_enc`: "an explicit two-way mapping table {1↔1, 2↔2, 3↔3, 4↔0}" (R143, R94). -/
def wcEnc : Width → BitVec 2
  | .one => 0b01#2
  | .two => 0b10#2
  | .three => 0b11#2
  | .four => 0b00#2

/-- `wc_dec`: "a stored value of 0 means width 4; any other stored value is the width directly" (R144). -/
def wcDec (wc : BitVec 2) : Width :=
  match wc.toNat with
  | 0 => .four
  | 1 => .one
  | 2 => .two
  | _ => .three

/-- `widthOf` (R141): `none` is `OutOfRange`, with no width beside it (R142). -/
def widthOf (l : BitVec 64) : Option Width :=
  if l.toNat < 2 ^ 8 then some .one
  else if l.toNat < 2 ^ 16 then some .two
  else if l.toNat < 2 ^ 24 then some .three
  else if l.toNat < 2 ^ 32 then some .four
  else none

/-- `pack` on its domain (R131): `{ wc[1:0], c, t[3:0], k[8:0] }`. -/
def pack (w : Width) (c : Bool) (t : BitVec 4) (k : BitVec 9) : BitVec 16 :=
  wcEnc w ++ BitVec.ofBool c ++ t ++ k

/-- The four fields of a header word (R91). -/
structure HeaderFields where
  width : Width
  ck : Bool
  tag : BitVec 4
  klen : BitVec 9
deriving DecidableEq, Repr

/-- `unpack` (R132), total on all header words. -/
def unpack (h : BitVec 16) : HeaderFields where
  width := wcDec (h.extractLsb' 14 2)
  ck := h.getLsbD 13
  tag := h.extractLsb' 9 4
  klen := h.extractLsb' 0 9

/-- Byte `i` of the `w`-byte big-endian image of a 32-bit value: `(L >> (8·(w−1−i))) mod 256` (R73). -/
def beByte (w : Nat) (l : BitVec 32) (i : Nat) : Byte :=
  (l >>> (8 * (w - 1 - i))).setWidth 8

/-- `len_emit` (R146). -/
def lenEmit (w : Width) (l : BitVec 32) : List Byte :=
  (List.range w.toNat).map (beByte w.toNat l)

/-- One round of `len_assemble`'s loop, and of the decoder's digest assembly: `(L << 8) | b` on 32 bits (R147, R206). -/
def shiftIn (l : BitVec 32) (b : Byte) : BitVec 32 :=
  (l <<< 8) ||| b.setWidth 32

/-- `len_assemble` (R147). -/
def lenAssemble (s : List Byte) : BitVec 32 :=
  s.foldl shiftIn 0#32

/-- `from_be(s) = Σ_i s[i] · 256^(|s|−1−i)` (R10). -/
def fromBe : List Byte → Nat
  | [] => 0
  | b :: rest => b.toNat * 256 ^ rest.length + fromBe rest

/-- Byte `i` of a header word on the wire: `H[15:8]` first, then `H[7:0]` (R93, R167). -/
def headerByte (h : BitVec 16) (i : Nat) : Byte :=
  if i = 0 then h.extractLsb' 8 8 else h.extractLsb' 0 8

/-- The four trailer bytes of a digest, most significant first: `be_4(D)` (R110, R237). -/
def digestBytes (d : BitVec 32) : List Byte :=
  (List.range 4).map (beByte 4 d)

end Sys2Proof
end

