-- ==== Sys2Proof/Machine/Ops.lean ====
section
/-! DEFINITION. The shared operations: issuing a command, ending it well, ending it with a failure (60_exceptions.md R262, R263,
the block's form of taking an exception), retiring it (its form of returning, R268), the two port transactions, and reset. -/

namespace Sys2Proof.Machine

/-! ### Widening -/

/-- A 64-bit context value from a narrower field length or index (`zext_64`, R259). -/
def zext64 {n : Nat} (v : BitVec n) : BitVec 64 :=
  v.setWidth 64

/-! ### Ending a command -/

/-- `raise S(phase, e, a)` in the encoder (R262). Nothing else changes: `IDX`, the command and working registers and `SINK` stay. -/
def encRaise (st : Status) (ph : Phase) (e a : BitVec 64) (s : State) : State :=
  { s with enc := { s.enc with
      status := st.code
      errphase := ph.code
      expected := e
      actual := a
      acc := s.encHash.init
      phase := Phase.error.code } }

/-- Completion of an encode with `OK` (R177). `IDX` keeps its value. -/
def encComplete (s : State) : State :=
  { s with enc := { s.enc with
      acc := s.encHash.init
      status := Status.ok.code
      errphase := 0
      expected := 0
      actual := 0
      phase := Phase.done.code } }

/-- The terminal phase a decoder failure leads to: `EOS` for `EndOfStream`, else `ERROR` (R263). -/
def decFailurePhase : Status → Phase
  | .endOfStream => .eos
  | _ => .error

/-- `raise S(phase, e, a)` in the decoder (R263, R214). The result registers stay 0 as ISSUE set them; the bytes pulled stay
consumed. -/
def decRaise (st : Status) (ph : Phase) (e a : BitVec 64) (s : State) : State :=
  { s with dec := { s.dec with
      status := st.code
      errphase := ph.code
      expected := e
      actual := a
      acc := s.decHash.init
      phase := (decFailurePhase st).code } }

/-- Completion of a decode with `OK` (R213): the results become valid, the tag only for DECODE_TAGGED. -/
def decComplete (s : State) : State :=
  { s with dec := { s.dec with
      acc := s.decHash.init
      rklen := s.dec.klen
      rvlen := s.dec.vlen
      rtag := bif s.dec.op then s.dec.tag else 0
      status := Status.ok.code
      errphase := 0
      expected := 0
      actual := 0
      phase := Phase.done.code } }

/-! ### Starting and retiring a command -/

/-- ENC.ISSUE (R160): latch the command word, clear the status, enter `VALIDATE`. The tag of the untagged form is 0 (R161). -/
def encLatch (op : Bool) (tag : BitVec 4) (klen vlen : BitVec 64) (s : State) : State :=
  { s with enc := { s.enc with
      op := op
      tag := bif op then tag else 0
      klen64 := klen
      vlen64 := vlen
      status := Status.ok.code
      errphase := 0
      expected := 0
      actual := 0
      idx := 0
      phase := Phase.validate.code } }

/-- ENC.ISSUE where it is enabled, else a refusal (R160, R274). -/
def encIssue (op : Bool) (tag : BitVec 4) (klen vlen : BitVec 64) (s : State) : Host.Outcome State Fault Refusal :=
  if encLocked s then .refused .issueNotEnabled else .next (encLatch op tag klen vlen s)

/-- DEC.ISSUE (R190): latch `OP`, clear the working, result and status registers, enter `HEADER`. -/
def decLatch (op : Bool) (s : State) : State :=
  { s with dec := { s.dec with
      op := op
      hdr := 0
      width := 0
      ck := false
      tag := 0
      klen := 0
      vlen := 0
      digrx := 0
      rklen := 0
      rvlen := 0
      rtag := 0
      status := Status.ok.code
      errphase := 0
      expected := 0
      actual := 0
      idx := 0
      phase := Phase.header.code } }

/-- DEC.ISSUE where it is enabled, else a refusal (R190, R274). -/
def decIssue (op : Bool) (s : State) : Host.Outcome State Fault Refusal :=
  if decLocked s then .refused .issueNotEnabled else .next (decLatch op s)

/-- What ENC.RETIRE writes (R181): the lock is freed, the status registers keep their values (R180). -/
def encFree (s : State) : State :=
  { s with enc := { s.enc with idx := 0, phase := Phase.idle.code } }

/-- What DEC.RETIRE writes (R219): results and status keep their values (R215). -/
def decFree (s : State) : State :=
  { s with dec := { s.dec with idx := 0, phase := Phase.idle.code } }

/-! ### Moving inside a command (R26) -/

/-- An advance step of the encoder: `IDX <- 0; PHASE <- ph`. -/
def encAdvance (ph : Phase) (s : State) : State :=
  { s with enc := { s.enc with idx := 0, phase := ph.code } }

/-- An advance step of the decoder. -/
def decAdvance (ph : Phase) (s : State) : State :=
  { s with dec := { s.dec with idx := 0, phase := ph.code } }

/-! ### The sink (R62 to R64) -/

/-- The accumulator after a key or value byte, where the encoder has a hash (R171, R173). -/
def encHashed (b : Byte) (s : State) : Nat :=
  bif s.encHashEn then s.encHash.update s.enc.acc b else s.enc.acc

/-- `SinkPush(b)` answered `Ok` in a byte step: the byte joins `SINK` and `IDX` counts it (R63, R64, R26). -/
def encPushed (acc : Nat) (b : Byte) (rest : List SinkAnswer) (s : State) : State :=
  { s with
      sinkAnswers := rest
      sink := s.sink ++ [b]
      enc := { s.enc with acc := acc, idx := s.enc.idx + 1 } }

/-- A byte step of the encoder: one `SinkPush(b)` in phase `ph`, whose field has `n` bytes. `Err` raises `IoFailure` (R178); a
transaction the sink has not answered leaves the unit waiting where it is (R68). -/
def encPush (ph : Phase) (n : BitVec 64) (acc : Nat) (b : Byte) (s : State) : State :=
  match s.sinkAnswers with
  | [] => s
  | .ok :: rest => encPushed acc b rest s
  | .err :: rest => encRaise .ioFailure ph n (zext64 s.enc.idx) { s with sinkAnswers := rest }

/-! ### The source (R65 to R69) -/

/-- The accumulator after a key or value byte, where the decoder verifies (R200, R203). -/
def decHashed (b : Byte) (s : State) : Nat :=
  bif verifies s then s.decHash.update s.dec.acc b else s.dec.acc

/-- The status of an `Eos` answer: `EndOfStream` at a clean boundary, else `TruncatedStream` (R194, R195, R254, R255). -/
def eosRaise (ph : Phase) (n : BitVec 64) (s : State) : State :=
  if ph = .header ∧ s.dec.idx = 0 then decRaise .endOfStream .header 0 0 s
  else decRaise .truncatedStream ph n (zext64 s.dec.idx) s

/-- A byte step of the decoder: one `SrcPull()` in phase `ph`, whose field has `n` bytes. A byte is taken by `take`; `Eos` and
`Err` end the command (R66, R212); a pull the source has not answered leaves the unit waiting (R68). -/
def decPull (ph : Phase) (n : BitVec 64) (take : Byte → State → State) (s : State) : State :=
  match s.sourceAnswers with
  | [] => s
  | .byte b :: rest => take b { s with sourceAnswers := rest }
  | .eos :: rest => eosRaise ph n { s with sourceAnswers := rest }
  | .err :: rest => decRaise .ioFailure ph n (zext64 s.dec.idx) { s with sourceAnswers := rest }

/-! ### The header of a frame -/

/-- The effect of the `HEADER` advance for a header with these fields (R196). -/
def headerTaken (w : Width) (ck : Bool) (tag : BitVec 4) (klen : BitVec 9) (s : State) : State :=
  { s with dec := { s.dec with
      width := w.bits
      ck := ck
      tag := tag
      klen := klen
      vlen := 0
      idx := 0
      phase := Phase.length.code } }

/-- The `HEADER` advance where the header is complete, else a refusal (R196, R274). -/
def takeHeader (w : Width) (ck : Bool) (tag : BitVec 4) (klen : BitVec 9) (s : State) : Host.Outcome State Fault Refusal :=
  if headerReady s then .next (headerTaken w ck tag klen s) else .refused .headerNotReady

/-! ### Reset -/

/-- Hardware reset (R290): both units to the values of R41. The straps and hash functions (R291), `SINK`, the source and the
operand buffers (R292, R41) are untouched, and so is all that is not state of the block. The bytes of `RKBUF` and `RVBUF` become
unspecified to the host (R295); the model leaves them and refuses to read them (log entry 9). -/
def hwReset (s : State) : State :=
  { s with
      enc := { EncState.reset with acc := s.encHash.init }
      dec := { DecState.reset with acc := s.decHash.init } }

end Sys2Proof.Machine
end

