-- ==== Sys2Proof/Machine/Decoder.lean ====
section
/-! DEFINITION. The steps of the decoder's state machine (43_frame_decoder.md R193 to R215). -/

namespace Sys2Proof.Machine

/-! ### Byte steps -/

/-- A received byte counted (R26). -/
def decCount (s : State) : State :=
  { s with dec := { s.dec with idx := s.dec.idx + 1 } }

/-- A header byte received (R193): the first into bits 15 to 8, the second into bits 7 to 0. -/
def takeHeaderByte (b : Byte) (s : State) : State :=
  decCount { s with dec := { s.dec with
    hdr := if s.dec.idx = 0 then b ++ s.dec.hdr.extractLsb' 0 8 else s.dec.hdr.extractLsb' 8 8 ++ b } }

/-- A length byte received (R197). -/
def takeLengthByte (b : Byte) (s : State) : State :=
  decCount { s with dec := { s.dec with vlen := shiftIn s.dec.vlen b } }

/-- A key byte received (R200): stored at `RKBUF[IDX]`, and hashed by a verifying decoder. -/
def takeKeyByte (b : Byte) (s : State) : State :=
  decCount { s with
    rkbuf := memWrite s.rkbuf s.dec.idx.toNat b
    dec := { s.dec with acc := decHashed b s } }

/-- A value byte received (R203). -/
def takeValueByte (b : Byte) (s : State) : State :=
  decCount { s with
    rvbuf := memWrite s.rvbuf s.dec.idx.toNat b
    dec := { s.dec with acc := decHashed b s } }

/-- A trailer byte received: assembled by a decoder with a hash (R206), dropped by one without (R207). -/
def takeChecksumByte (b : Byte) (s : State) : State :=
  decCount { s with dec := { s.dec with digrx := bif s.decHashEn then shiftIn s.dec.digrx b else s.dec.digrx } }

/-! ### Advances -/

/-- The `HEADER` advance by `unpack` (R196). The decoder's turn takes this step by executing the decoded header word
(Machine/Turns.lean); that the two agree is a statement of its own. -/
def decHeaderAdvance (s : State) : State :=
  headerTaken (unpack s.dec.hdr).width (unpack s.dec.hdr).ck (unpack s.dec.hdr).tag (unpack s.dec.hdr).klen s

/-- `VALUE` advance (R205), on the frame's own flag only. -/
def decValueAdvance (s : State) : State :=
  bif s.dec.ck then decAdvance .checksum { s with dec := { s.dec with digrx := 0 } } else decComplete s

/-- `CHECKSUM` advance (R209, R210, R211). -/
def decChecksumAdvance (s : State) : State :=
  bif s.decHashEn then
    if s.decHash.final s.dec.acc = s.dec.digrx then decComplete s
    else decRaise .checksumMismatch .checksum 0 0 s
  else decComplete s

/-- A working phase with a field of `n` bytes (R26, R40 (c)). -/
def decField (n : Nat) (byteStep advance : State) (s : State) : Host.Outcome State Fault Refusal :=
  if s.dec.idx.toNat < n then .next byteStep
  else if s.dec.idx.toNat = n then .next advance
  else .refused .decIdxUnreachable

/-! ### The step -/

/-- One step of the decoder. In `IDLE` and in the terminal phases it has none of its own (R215); a phase code it never holds is
refused (R223). -/
def decStep (s : State) : Host.Outcome State Fault Refusal :=
  match Phase.ofCode s.dec.phase with
  | some .idle => .next s
  | some .validate => .refused .decPhaseUnreachable
  | some .header => decField 2 (decPull .header 2#64 takeHeaderByte s) (decHeaderAdvance s) s
  | some .length =>
    decField s.dec.width.toNat (decPull .length (zext64 s.dec.width) takeLengthByte s) (decAdvance .key s) s
  | some .key => decField s.dec.klen.toNat (decPull .key (zext64 s.dec.klen) takeKeyByte s) (decAdvance .value s) s
  | some .value => decField s.dec.vlen.toNat (decPull .value (zext64 s.dec.vlen) takeValueByte s) (decValueAdvance s) s
  | some .checksum => decField 4 (decPull .checksum 4#64 takeChecksumByte s) (decChecksumAdvance s) s
  | some .done => .next s
  | some .error => .next s
  | some .eos => .next s
  | none => .refused .decPhaseUnreachable

end Sys2Proof.Machine
end

