-- ==== Sys2Proof/Machine/Combinational.lean ====
section
/-! DEFINITION. The seven combinational functions (40_header_codec.md, 41_length_width_selector.md): each request drives the
operand wires of its port, and the port's outputs follow. They take no step of a unit, hold no lock and touch no stream (R130,
R140). Where an error flag is raised the data output is unspecified: a fresh free value stands there (log entry 6). -/

namespace Sys2Proof.Machine

/-- Drive the outputs of one port. -/
def withPorts (f : PortOutputs → PortOutputs) (s : State) : State :=
  { s with ports := f s.ports }

/-- Drive the outputs of one port with a value drawn freely: `f` is given the number of the draw. -/
def withFreePorts (f : Nat → PortOutputs → PortOutputs) (s : State) : State :=
  { s with ports := f s.freeCount s.ports, freeCount := s.freeCount + 1 }

/-- HDR.PACK (R131); a width outside 1 to 4 raises `RANGE_ERR` and leaves `H` unspecified (R133). -/
def execHdrPack (width : BitVec 3) (c : Bool) (t : BitVec 4) (k : BitVec 9) (s : State) : Host.Outcome State Fault Refusal :=
  match Width.ofBits width with
  | some w => .next (withPorts (fun p => { p with packH := pack w c t k, packRangeErr := false }) s)
  | none => .next (withFreePorts (fun n p => { p with packH := Config.freeHeader n, packRangeErr := true }) s)

/-- HDR.UNPACK (R132), total. -/
def execHdrUnpack (h : BitVec 16) (s : State) : Host.Outcome State Fault Refusal :=
  .next (withPorts (fun p => { p with
    unpackWidth := (unpack h).width.bits
    unpackC := (unpack h).ck
    unpackT := (unpack h).tag
    unpackK := (unpack h).klen }) s)

/-- WIDTHOF (R141); a length of 2^32 or more raises `OOR` and leaves `width` unspecified (R142). -/
def execWidthOf (l : BitVec 64) (s : State) : Host.Outcome State Fault Refusal :=
  match widthOf l with
  | some w => .next (withPorts (fun p => { p with widthOfWidth := w.bits, widthOfOor := false }) s)
  | none => .next (withFreePorts (fun n p => { p with widthOfWidth := Config.freeWidth n, widthOfOor := true }) s)

/-- WC.ENC (R143); a width outside 1 to 4 raises `RANGE_ERR` and leaves `wc` unspecified. -/
def execWcEnc (width : BitVec 3) (s : State) : Host.Outcome State Fault Refusal :=
  match Width.ofBits width with
  | some w => .next (withPorts (fun p => { p with wcEncWc := wcEnc w, wcEncRangeErr := false }) s)
  | none => .next (withFreePorts (fun n p => { p with wcEncWc := Config.freeClass n, wcEncRangeErr := true }) s)

/-- WC.DEC (R144), total. -/
def execWcDec (wc : BitVec 2) (s : State) : Host.Outcome State Fault Refusal :=
  .next (withPorts (fun p => { p with wcDecWidth := (wcDec wc).bits }) s)

/-- LEN.EMIT (R146), defined for every width and length. -/
def execLenEmit (width : Width) (l : BitVec 32) (s : State) : Host.Outcome State Fault Refusal :=
  .next (withPorts (fun p => { p with lenEmitBytes := lenEmit width l }) s)

/-- LEN.ASSEMBLE (R147) on its domain, sequences of 1 to 4 bytes. -/
def execLenAssemble (bytes : List Byte) (s : State) : Host.Outcome State Fault Refusal :=
  if lenAssembleOperand bytes then .next (withPorts (fun p => { p with lenAssembleL := lenAssemble bytes }) s)
  else .refused .operandOutOfDomain

end Sys2Proof.Machine
end

