-- ==== Sys2Proof/Machine/Commands.lean ====
section
/-! DEFINITION. The four commands and the two RETIRE steps, the steps a requester takes (42_frame_encoder.md R160, R181;
43_frame_decoder.md R190, R219). A command's own execution is its ISSUE; the unit then carries it out a byte a step
(Machine/Encoder.lean, Machine/Decoder.lean). What the whole command does is in Machine/Whole.lean. -/

namespace Sys2Proof.Machine

/-- ENCODE_TAGGED (R162): issue with `CW_E.OP = 1`, the command's tag and the two 64-bit lengths. -/
def execEncodeTagged (tag : BitVec 4) (klen vlen : BitVec 64) (s : State) : Host.Outcome State Fault Refusal :=
  encIssue true tag klen vlen s

/-- ENCODE (R163): issue with `CW_E.OP = 0`; whatever stands in the tag bits, the tag is 0 (R161). -/
def execEncode (tag : BitVec 4) (klen vlen : BitVec 64) (s : State) : Host.Outcome State Fault Refusal :=
  encIssue false tag klen vlen s

/-- DECODE_TAGGED (R191): issue with `CW_D.OP = 1`. -/
def execDecodeTagged (s : State) : Host.Outcome State Fault Refusal :=
  decIssue true s

/-- DECODE (R192): issue with `CW_D.OP = 0`; the tag will be left out of the result. -/
def execDecode (s : State) : Host.Outcome State Fault Refusal :=
  decIssue false s

/-- ENC.RETIRE (R181), enabled in `DONE` and `ERROR`. -/
def execEncRetire (s : State) : Host.Outcome State Fault Refusal :=
  if encTerminal s.enc.phase then .next (encFree s) else .refused .retireNotEnabled

/-- DEC.RETIRE (R219), enabled in `DONE`, `ERROR` and `EOS`. -/
def execDecRetire (s : State) : Host.Outcome State Fault Refusal :=
  if decTerminal s.dec.phase then .next (decFree s) else .refused .retireNotEnabled

end Sys2Proof.Machine
end

