-- ==== Sys2Proof/Machine/Frames.lean ====
section
/-! DEFINITION. The eight frame formats (30_encoding.md R101 to R108). A header word "selects how a frame is laid out" (R90): to
execute it is the decoder's `HEADER` advance (43_frame_decoder.md R196), which fixes the number of length bytes, the presence of
a trailer, the tag and the key length, and enters `LENGTH`. The bytes that follow the header are then pulled one a step by the
decoder's own steps (Machine/Decoder.lean), as the format lays them out. -/

namespace Sys2Proof.Machine

/-- FRAME.W1 (R101): width 1, no trailer. -/
def execFrameW1 (tag : BitVec 4) (klen : BitVec 9) (s : State) : Host.Outcome State Fault Refusal :=
  takeHeader .one false tag klen s

/-- FRAME.W1.C (R102): width 1, trailer. -/
def execFrameW1C (tag : BitVec 4) (klen : BitVec 9) (s : State) : Host.Outcome State Fault Refusal :=
  takeHeader .one true tag klen s

/-- FRAME.W2 (R103): width 2, no trailer. -/
def execFrameW2 (tag : BitVec 4) (klen : BitVec 9) (s : State) : Host.Outcome State Fault Refusal :=
  takeHeader .two false tag klen s

/-- FRAME.W2.C (R104): width 2, trailer. -/
def execFrameW2C (tag : BitVec 4) (klen : BitVec 9) (s : State) : Host.Outcome State Fault Refusal :=
  takeHeader .two true tag klen s

/-- FRAME.W3 (R105): width 3, no trailer. -/
def execFrameW3 (tag : BitVec 4) (klen : BitVec 9) (s : State) : Host.Outcome State Fault Refusal :=
  takeHeader .three false tag klen s

/-- FRAME.W3.C (R106): width 3, trailer. -/
def execFrameW3C (tag : BitVec 4) (klen : BitVec 9) (s : State) : Host.Outcome State Fault Refusal :=
  takeHeader .three true tag klen s

/-- FRAME.W4 (R107): width 4, stored as 0, no trailer. -/
def execFrameW4 (tag : BitVec 4) (klen : BitVec 9) (s : State) : Host.Outcome State Fault Refusal :=
  takeHeader .four false tag klen s

/-- FRAME.W4.C (R108): width 4, stored as 0, trailer. -/
def execFrameW4C (tag : BitVec 4) (klen : BitVec 9) (s : State) : Host.Outcome State Fault Refusal :=
  takeHeader .four true tag klen s

end Sys2Proof.Machine
end

