-- ==== Sys2Proof/Machine/Dispatch.lean ====
section
/-! DEFINITION. One arm for each row of spec/opcode_table.json, in the table's order. -/

namespace Sys2Proof.Machine

def exec (i : Instr) (s : State) : Host.Outcome State Fault Refusal :=
  match i with
  | .frameW1 tag klen => Sys2Proof.Machine.execFrameW1 tag klen s
  | .frameW1C tag klen => Sys2Proof.Machine.execFrameW1C tag klen s
  | .frameW2 tag klen => Sys2Proof.Machine.execFrameW2 tag klen s
  | .frameW2C tag klen => Sys2Proof.Machine.execFrameW2C tag klen s
  | .frameW3 tag klen => Sys2Proof.Machine.execFrameW3 tag klen s
  | .frameW3C tag klen => Sys2Proof.Machine.execFrameW3C tag klen s
  | .frameW4 tag klen => Sys2Proof.Machine.execFrameW4 tag klen s
  | .frameW4C tag klen => Sys2Proof.Machine.execFrameW4C tag klen s
  | .encodeTagged tag klen vlen => Sys2Proof.Machine.execEncodeTagged tag klen vlen s
  | .encode tag klen vlen => Sys2Proof.Machine.execEncode tag klen vlen s
  | .decodeTagged => Sys2Proof.Machine.execDecodeTagged s
  | .decode => Sys2Proof.Machine.execDecode s
  | .encRetire => Sys2Proof.Machine.execEncRetire s
  | .decRetire => Sys2Proof.Machine.execDecRetire s
  | .hdrPack width c t k => Sys2Proof.Machine.execHdrPack width c t k s
  | .hdrUnpack h => Sys2Proof.Machine.execHdrUnpack h s
  | .widthOf l => Sys2Proof.Machine.execWidthOf l s
  | .wcEnc width => Sys2Proof.Machine.execWcEnc width s
  | .wcDec wc => Sys2Proof.Machine.execWcDec wc s
  | .lenEmit width l => Sys2Proof.Machine.execLenEmit width l s
  | .lenAssemble bytes => Sys2Proof.Machine.execLenAssemble bytes s

end Sys2Proof.Machine
end

