-- ==== Sys2Proof/Machine/Encoder.lean ====
section
/-! DEFINITION. The steps of the encoder's state machine (42_frame_encoder.md R164 to R180). -/

namespace Sys2Proof.Machine

/-! ### VALIDATE -/

/-- What `VALIDATE` latches for a command it accepts (R166): the width once, the truncated lengths and the header word. -/
def encAccepted (w : Width) (s : State) : State :=
  { s with enc := { s.enc with
      width := w.bits
      klen := s.enc.klen64.setWidth 9
      vlen := s.enc.vlen64.setWidth 32
      hdr := pack w s.encHashEn s.enc.tag (s.enc.klen64.setWidth 9)
      idx := 0
      phase := Phase.header.code } }

/-- The `VALIDATE` step: the first of R164, R165, R166 whose condition holds, on all 64 bits of the lengths. -/
def encValidate (s : State) : State :=
  if 511 < s.enc.klen64.toNat then encRaise .keyTooLong .validate 511#64 s.enc.klen64 s
  else if 4294967296 < s.enc.vlen64.toNat then encRaise .valueTooLong .validate 4294967296#64 s.enc.vlen64 s
  else
    match widthOf s.enc.vlen64 with
    | none => encRaise .outOfRange .validate 4294967295#64 s.enc.vlen64 s
    | some w => encAccepted w s

/-! ### Byte steps -/

/-- `HEADER` byte step (R167). -/
def encHeaderByte (s : State) : State :=
  encPush .header 2#64 s.enc.acc (headerByte s.enc.hdr s.enc.idx.toNat) s

/-- `LENGTH` byte step (R169), from the width latched in `VALIDATE`. -/
def encLengthByte (s : State) : State :=
  encPush .length (zext64 s.enc.width) s.enc.acc (beByte s.enc.width.toNat s.enc.vlen s.enc.idx.toNat) s

/-- `KEY` byte step (R171). `KBUF` has the indices below `KLEN64` (R38). -/
def encKeyByte (s : State) : Host.Outcome State Fault Refusal :=
  if s.enc.idx.toNat < s.enc.klen64.toNat then
    .next (encPush .key (zext64 s.enc.klen) (encHashed (memRead s.kbuf s.enc.idx.toNat) s) (memRead s.kbuf s.enc.idx.toNat) s)
  else .fault .kbufIndex

/-- `VALUE` byte step (R173). `VBUF` has the indices below `VLEN64` (R38). -/
def encValueByte (s : State) : Host.Outcome State Fault Refusal :=
  if s.enc.idx.toNat < s.enc.vlen64.toNat then
    .next (encPush .value (zext64 s.enc.vlen) (encHashed (memRead s.vbuf s.enc.idx.toNat) s) (memRead s.vbuf s.enc.idx.toNat) s)
  else .fault .vbufIndex

/-- `CHECKSUM` byte step (R175). -/
def encChecksumByte (s : State) : State :=
  encPush .checksum 4#64 s.enc.acc (beByte 4 s.enc.dig s.enc.idx.toNat) s

/-! ### Advances -/

/-- `VALUE` advance (R174): the digest is latched and the trailer follows iff the encoder has a hash. -/
def encValueAdvance (s : State) : State :=
  bif s.encHashEn then encAdvance .checksum { s with enc := { s.enc with dig := s.encHash.final s.enc.acc } }
  else encComplete s

/-- A working phase with a field of `n` bytes: a byte step below `n`, the advance at `n`, and no step beyond (R26, R40 (c)). -/
def encField (n : Nat) (byteStep advance : Host.Outcome State Fault Refusal) (s : State) : Host.Outcome State Fault Refusal :=
  if s.enc.idx.toNat < n then byteStep
  else if s.enc.idx.toNat = n then advance
  else .refused .encIdxUnreachable

/-! ### The step -/

/-- One turn of the encoder. In `IDLE` and in the terminal phases it has no step of its own (R180); a phase code it never holds is
refused (R185). -/
def encTurn (s : State) : Host.Outcome State Fault Refusal :=
  match Phase.ofCode s.enc.phase with
  | some .idle => .next s
  | some .validate => .next (encValidate s)
  | some .header => encField 2 (.next (encHeaderByte s)) (.next (encAdvance .length s)) s
  | some .length => encField s.enc.width.toNat (.next (encLengthByte s)) (.next (encAdvance .key s)) s
  | some .key => encField s.enc.klen.toNat (encKeyByte s) (.next (encAdvance .value s)) s
  | some .value => encField s.enc.vlen.toNat (encValueByte s) (.next (encValueAdvance s)) s
  | some .checksum => encField 4 (.next (encChecksumByte s)) (.next (encComplete s)) s
  | some .done => .next s
  | some .error => .next s
  | some .eos => .refused .encPhaseUnreachable
  | none => .refused .encPhaseUnreachable

end Sys2Proof.Machine
end

