-- ==== Sys2Proof/Machine/Turns.lean ====
section
/-! DEFINITION. One turn of each agent (00_scope.md R5), the fetching and running of what it executes, and the placing of an
instruction where the next step fetches it. The block has no program counter (R24): a requester's operation is fetched from its
port, a frame's header word from `DEC.HDR`. -/

namespace Sys2Proof.Machine

/-! ### Enabled steps -/

/-- Whether the step an instruction stands for is enabled: ISSUE in `IDLE` (R160, R190), RETIRE in a terminal phase (R181, R219),
the header advance with a complete header (R196), the combinational ports always (R130, R140). -/
def enabled (i : Instr) (s : State) : Bool :=
  match i with
  | .frameW1 _ _ => headerReady s
  | .frameW1C _ _ => headerReady s
  | .frameW2 _ _ => headerReady s
  | .frameW2C _ _ => headerReady s
  | .frameW3 _ _ => headerReady s
  | .frameW3C _ _ => headerReady s
  | .frameW4 _ _ => headerReady s
  | .frameW4C _ _ => headerReady s
  | .encodeTagged _ _ _ => !encLocked s
  | .encode _ _ _ => !encLocked s
  | .decodeTagged => !decLocked s
  | .decode => !decLocked s
  | .encRetire => encTerminal s.enc.phase
  | .decRetire => decTerminal s.dec.phase
  | .hdrPack _ _ _ _ => true
  | .hdrUnpack _ => true
  | .widthOf _ => true
  | .wcEnc _ => true
  | .wcDec _ => true
  | .lenEmit _ _ => true
  | .lenAssemble _ => true

/-! ### Turns -/

/-- The decoder's turn: with a complete header it executes the header word it holds (R90, R196), else its next step. -/
def decTurn (s : State) : Host.Outcome State Fault Refusal :=
  if headerReady s then exec (decodeHeader s.dec.hdr) s else decStep s

/-- A waiting request being served: it leaves the queue, and an encoder command brings its operand buffers (R114). The buffers of
a command in flight are never exchanged, since a command is served only while the encoder is `IDLE` (R300). -/
def accepted (n : Nat) (r : Request) (s : State) : State :=
  { s with
      requests := s.requests.eraseIdx n
      kbuf := if r.port = .encCmd then r.kbuf else s.kbuf
      vbuf := if r.port = .encCmd then r.vbuf else s.vbuf }

/-- A request's turn: it runs if its step is enabled, else its requester goes on waiting (R83, R273 (b)). -/
def serve (n : Nat) (r : Request) (s : State) : Host.Outcome State Fault Refusal :=
  match decode (.request r.port r.word) with
  | .error e => .refused (.undecodable e)
  | .ok i => if enabled i s then exec i (accepted n r s) else .next s

/-- The turn of the `n`-th waiting requester; where fewer wait, nothing happens. -/
def requesterTurn (n : Nat) (s : State) : Host.Outcome State Fault Refusal :=
  match s.requests[n]? with
  | none => .next s
  | some r => serve n r s

/-- The turn of an agent. -/
def agentTurn (a : Agent) (s : State) : Host.Outcome State Fault Refusal :=
  match a with
  | .enc => encTurn s
  | .dec => decTurn s
  | .requester n => requesterTurn n s
  | .reset => .next (hwReset s)

/-- The agent whose turn is next moves. Where no turn is left nothing moves (log entry 1). -/
def takeTurn (s : State) : Host.Outcome State Fault Refusal :=
  match s.turns with
  | [] => .next s
  | a :: rest => agentTurn a { s with turns := rest }

/-- One step of the machine. A state in which a unit's `PHASE` holds an unreachable code is refused whoever's turn it is: it has no
step defined (R40 (a), R274, U14, D40). That this takes in hardware reset is log entry 22. -/
def nextTurn (s : State) : Host.Outcome State Fault Refusal :=
  match encPhaseReachable s, decPhaseReachable s with
  | false, _ => .refused .encPhaseUnreachable
  | true, false => .refused .decPhaseUnreachable
  | true, true => takeTurn s

/-! ### Placing an instruction -/

/-- A requester presents a word on a port and has the next turn. -/
def presented (p : Port) (w : RequestWord) (s : State) : State :=
  { s with
      requests := { port := p, word := w, kbuf := s.kbuf, vbuf := s.vbuf } :: s.requests
      turns := .requester 0 :: s.turns }

/-- The decoder holds a complete header and has the next turn. -/
def headerPlaced (h : BitVec 16) (s : State) : State :=
  { s with
      dec := { s.dec with hdr := h, idx := 2, phase := Phase.header.code }
      turns := .dec :: s.turns }

/-- The instruction whose bits a row of spec/opcode_table.json numbers `w`, placed where the next step fetches it: a header word in
`DEC.HDR`, a command word on its port. A width the table gives no row has no place, and the state is as it was. -/
def placed (nbits w : Nat) (s : State) : State :=
  if nbits = 16 then headerPlaced (BitVec.ofNat 16 w) s
  else if nbits = 8 ∨ nbits = 1 then presented .decCmd (BitVec.ofNat 133 (w % 2)) s
  else if nbits = 136 ∨ nbits = 133 then presented .encCmd (BitVec.ofNat 133 w) s
  else s

end Sys2Proof.Machine
end

