-- ==== Sys2Proof/Machine/Step.lean ====
section
/-! DEFINITION. The step function and the host's way of placing an instruction. -/

namespace Sys2Proof.Machine

/-- One step: one atomic transition of one agent (00_scope.md R11), the one `turns` names next. -/
def step (s : State) : Host.Outcome State Fault Refusal :=
  nextTurn s

/-- The state with an instruction of the opcode table placed where `step` fetches its next one (log entry 10). -/
def State.withFetchWord (s : State) (nbits w : Nat) : State :=
  placed nbits w s

end Sys2Proof.Machine
end

