-- ==== Sys2Proof/Machine/HostView.lean ====
section
/-! DEFINITION. What the host reads (10_state.md R37, R38, 60_exceptions.md R281): the host-visible registers, whole, in R37's
order; the result buffers below their valid lengths; the outputs of the combinational ports. Reads have no side effect (R76), so
they are functions of the state. What the spec says a model refuses (R274) answers with the refusal in
`Except.error`. -/

namespace Sys2Proof.Machine

/-- The host-visible registers, numbered 0 to 12 in R37. The numbers are ordinals "for reference only" and no bus addresses (R37,
log entry 21). -/
inductive HostRegister where
  | encCfg
  | encPhase
  | encStatus
  | encExpected
  | encActual
  | decCfg
  | decPhase
  | decStatus
  | decExpected
  | decActual
  | decRklen
  | decRvlen
  | decRtag
deriving DecidableEq, Repr

/-- A configuration register: `HASH_EN` in bit 0, bits 31 to 1 read as 0 (R29, R35). -/
def cfgValue (hashEn : Bool) : BitVec 32 :=
  (BitVec.ofBool hashEn).setWidth 32

/-- A status register: `ERRPHASE` in bits 7 to 4, bit 3 reads as 0, `CODE` in bits 2 to 0 (R37). -/
def statusValue (errphase : BitVec 4) (code : BitVec 3) : BitVec 8 :=
  errphase ++ 0#1 ++ code

/-- A host read of a register, zero-extended. A register is read by its name in R37, never by an address: `REG_MAP` is OPEN, an
argument that the platform chooses and no rule reads (R7, R77, D25, U20), and that the model does not take is its own choice
(DESIGN CHOICE, log entry 21). -/
def readRegister (r : HostRegister) (s : State) : BitVec 64 :=
  match r with
  | .encCfg => zext64 (cfgValue s.encHashEn)
  | .encPhase => zext64 s.enc.phase
  | .encStatus => zext64 (statusValue s.enc.errphase s.enc.status)
  | .encExpected => s.enc.expected
  | .encActual => s.enc.actual
  | .decCfg => zext64 (cfgValue s.decHashEn)
  | .decPhase => zext64 s.dec.phase
  | .decStatus => zext64 (statusValue s.dec.errphase s.dec.status)
  | .decExpected => s.dec.expected
  | .decActual => s.dec.actual
  | .decRklen => zext64 s.dec.rklen
  | .decRvlen => zext64 s.dec.rvlen
  | .decRtag => zext64 s.dec.rtag

/-- A host read of `RKBUF[i]`: valid in `DONE` and below `RKLEN` (R32, R301), refused elsewhere (R274). -/
def readResultKey (i : Nat) (s : State) : Except Refusal Byte :=
  if s.dec.phase = Phase.done.code ∧ i < s.dec.rklen.toNat then .ok (memRead s.rkbuf i) else .error .resultNotValid

/-- A host read of `RVBUF[i]`: valid in `DONE` and below `RVLEN`, refused elsewhere. -/
def readResultValue (i : Nat) (s : State) : Except Refusal Byte :=
  if s.dec.phase = Phase.done.code ∧ i < s.dec.rvlen.toNat then .ok (memRead s.rvbuf i) else .error .resultNotValid

/-- The `H` output of HDR.PACK, refused while `RANGE_ERR = 1` (R133, R274). -/
def readPackOutput (s : State) : Except Refusal (BitVec 16) :=
  if s.ports.packRangeErr then .error .portOutputUnspecified else .ok s.ports.packH

/-- The `width` output of WIDTHOF, refused while `OOR = 1` (R142, R274). -/
def readWidthOutput (s : State) : Except Refusal (BitVec 3) :=
  if s.ports.widthOfOor then .error .portOutputUnspecified else .ok s.ports.widthOfWidth

/-- The `wc` output of WC.ENC, refused while `RANGE_ERR = 1` (R143, R274). -/
def readClassOutput (s : State) : Except Refusal (BitVec 2) :=
  if s.ports.wcEncRangeErr then .error .portOutputUnspecified else .ok s.ports.wcEncWc

/-- The key a decode returned: `RKBUF[0 .. RKLEN)` (R213). -/
def resultKey (s : State) : List Byte :=
  memBytes s.rkbuf s.dec.rklen.toNat

/-- The value a decode returned: `RVBUF[0 .. RVLEN)` (R213). -/
def resultValue (s : State) : List Byte :=
  memBytes s.rvbuf s.dec.rvlen.toNat

end Sys2Proof.Machine
end

