-- ==== Sys2Proof/Machine/Whole.lean ====
section
/-! DEFINITION. The commands as functions of their operands (42_frame_encoder.md R162, R163; 43_frame_decoder.md R191, R192), written
beside the step rules, which "are the normative definition of the machine". Statements say that the two descriptions agree (R182,
R217); no step calls these functions. -/

namespace Sys2Proof.Machine

/-! ### What a failure reports -/

/-- The arguments of a `raise`: status, phase, expected and actual (R259). -/
structure Failure where
  status : Status
  phase : Phase
  expected : BitVec 64
  actual : BitVec 64
deriving DecidableEq, Repr

/-! ### ENCODE -/

/-- The frame of a record (R100, R162): header, value length, key, value, and the digest of `key ++ value` where the encoder has a
hash. -/
def frameOf (hashEn : Bool) (h : HashFn) (tag : BitVec 4) (w : Width) (key value : List Byte) : List Byte :=
  headerBytes (pack w hashEn tag (BitVec.ofNat 9 key.length)) ++ lenEmit w (BitVec.ofNat 32 value.length) ++ key ++ value
    ++ (if hashEn then digestBytes (h.dig (key ++ value)) else [])

/-- The length of a frame: `2 + w + k + v + 4c` bytes (R100). -/
def frameLength (hashEn : Bool) (w : Width) (k v : Nat) : Nat :=
  2 + w.toNat + k + v + (if hashEn then 4 else 0)

/-- The validation of the two lengths (R162): the width to use, or the failure, nothing having been written. -/
def validation (klen vlen : BitVec 64) : Except Failure Width :=
  if 511 < klen.toNat then .error ⟨.keyTooLong, .validate, 511#64, klen⟩
  else if 4294967296 < vlen.toNat then .error ⟨.valueTooLong, .validate, 4294967296#64, vlen⟩
  else
    match widthOf vlen with
    | none => .error ⟨.outOfRange, .validate, 4294967295#64, vlen⟩
    | some w => .ok w

/-- What a refused byte of a field of `n` bytes reports: `IoFailure(phase, n, its index in the field)` (R162). -/
def fieldFailures (ph : Phase) (n : Nat) : List Failure :=
  (List.range n).map fun i => ⟨.ioFailure, ph, BitVec.ofNat 64 n, BitVec.ofNat 64 i⟩

/-- What each byte of a frame reports if its push fails, in frame order (R182). -/
def frameFailures (hashEn : Bool) (w : Width) (k v : Nat) : List Failure :=
  fieldFailures .header 2 ++ fieldFailures .length w.toNat ++ fieldFailures .key k ++ fieldFailures .value v
    ++ (if hashEn then fieldFailures .checksum 4 else [])

/-- How the pushing of a frame ends: all bytes accepted, a byte refused, or a push the sink has not answered; with the bytes
accepted before. -/
inductive PushOutcome where
  | all (pushed : List Byte) (rest : List SinkAnswer)
  | failed (pushed : List Byte) (f : Failure) (rest : List SinkAnswer)
  | waiting (pushed : List Byte)
deriving DecidableEq, Repr

/-- One more byte accepted in front. -/
def PushOutcome.cons (b : Byte) : PushOutcome → PushOutcome
  | .all pushed rest => .all (b :: pushed) rest
  | .failed pushed f rest => .failed (b :: pushed) f rest
  | .waiting pushed => .waiting (b :: pushed)

/-- `for j in 0 .. |frame|-1: if SinkPush(frame[j]) = Err then raise …` (R162). -/
def pushBytes : List (Byte × Failure) → List SinkAnswer → PushOutcome
  | [], answers => .all [] answers
  | _ :: _, [] => .waiting []
  | (b, _) :: more, .ok :: answers => (pushBytes more answers).cons b
  | (_, f) :: _, .err :: answers => .failed [] f answers

/-- The pushing of a record's whole frame against the sink's answers (R162). -/
def pushFrame (hashEn : Bool) (h : HashFn) (tag : BitVec 4) (w : Width) (key value : List Byte) (answers : List SinkAnswer) :
    PushOutcome :=
  pushBytes ((frameOf hashEn h tag w key value).zip (frameFailures hashEn w key.length value.length)) answers

/-! ### DECODE -/

/-- How the pulling of one field ends. -/
inductive TakeOutcome where
  | got (s : List Byte) (rest : List SourceAnswer)
  | failed (f : Failure) (rest : List SourceAnswer)
  | waiting
deriving DecidableEq, Repr

/-- One more byte pulled in front. -/
def TakeOutcome.cons (b : Byte) : TakeOutcome → TakeOutcome
  | .got s rest => .got (b :: s) rest
  | .failed f rest => .failed f rest
  | .waiting => .waiting

/-- The failure of an `Eos` answer to the pull of byte `i` of a field of `n` bytes (R191). -/
def eosFailure (ph : Phase) (n i : Nat) : Failure :=
  if ph = .header ∧ i = 0 then ⟨.endOfStream, .header, 0, 0⟩
  else ⟨.truncatedStream, ph, BitVec.ofNat 64 n, BitVec.ofNat 64 i⟩

/-- `take(n, phase)` (R191) with `left` of the field's `n` bytes still to pull. -/
def takeLeft (ph : Phase) (n : Nat) : Nat → List SourceAnswer → TakeOutcome
  | 0, answers => .got [] answers
  | _ + 1, [] => .waiting
  | left + 1, .byte b :: answers => (takeLeft ph n left answers).cons b
  | left + 1, .eos :: answers => .failed (eosFailure ph n (n - (left + 1))) answers
  | left + 1, .err :: answers => .failed ⟨.ioFailure, ph, BitVec.ofNat 64 n, BitVec.ofNat 64 (n - (left + 1))⟩ answers

/-- `take(n, phase)` (R191). -/
def takeField (ph : Phase) (n : Nat) (answers : List SourceAnswer) : TakeOutcome :=
  takeLeft ph n n answers

/-- How a decode ends: a record, a failure, or a pull the source has not answered; with the answers that are left. -/
inductive DecodeOutcome where
  | ok (key value : List Byte) (tag : BitVec 4) (rest : List SourceAnswer)
  | failed (f : Failure) (rest : List SourceAnswer)
  | waiting
deriving DecidableEq, Repr

/-- Go on with the bytes of a field. -/
def TakeOutcome.andThen (r : TakeOutcome) (k : List Byte → List SourceAnswer → DecodeOutcome) : DecodeOutcome :=
  match r with
  | .got s rest => k s rest
  | .failed f rest => .failed f rest
  | .waiting => .waiting

/-- The end of `decode_tagged` (R191): the trailer of a frame whose flag is set. -/
def decodeTrailer (hashEn : Bool) (h : HashFn) (key value : List Byte) (tag : BitVec 4) (answers : List SourceAnswer) :
    DecodeOutcome :=
  (takeField .checksum 4 answers).andThen fun d rest =>
    if hashEn = false then .ok key value tag rest
    else if lenAssemble d = h.dig (key ++ value) then .ok key value tag rest
    else .failed ⟨.checksumMismatch, .checksum, 0, 0⟩ rest

/-- `decode_tagged()` (R191) against the source's answers. -/
def decodeTaggedWhole (hashEn : Bool) (h : HashFn) (answers : List SourceAnswer) : DecodeOutcome :=
  (takeField .header 2 answers).andThen fun hb answers =>
    (takeField .length (unpack ((lenAssemble hb).setWidth 16)).width.toNat answers).andThen fun lb answers =>
      (takeField .key (unpack ((lenAssemble hb).setWidth 16)).klen.toNat answers).andThen fun key answers =>
        (takeField .value (lenAssemble lb).toNat answers).andThen fun value answers =>
          if (unpack ((lenAssemble hb).setWidth 16)).ck then
            decodeTrailer hashEn h key value (unpack ((lenAssemble hb).setWidth 16)).tag answers
          else .ok key value (unpack ((lenAssemble hb).setWidth 16)).tag answers

/-- The source of the spec's vectors: the bytes given, then the end of the stream (R67). -/
def simpleSource (bytes : List Byte) (eosCount : Nat) : List SourceAnswer :=
  bytes.map .byte ++ List.replicate eosCount .eos

end Sys2Proof.Machine
end

