-- ==== Sys2Proof/Safety.lean ====
section
/-! DEFINITION. The invariant of the state (10_state.md R40 and the rules it summarises), and what a safe step is. -/

namespace Sys2Proof.Machine

/-! ### Fields and phases -/

/-- The length `n(P)` of the field of an encoder phase (42_frame_encoder.md); 0 in `IDLE` and `VALIDATE`, where `IDX` is 0 (R25). -/
def encFieldLength (e : EncState) : Phase → Nat
  | .header => 2
  | .length => e.width.toNat
  | .key => e.klen.toNat
  | .value => e.vlen.toNat
  | .checksum => 4
  | _ => 0

/-- The length `n(P)` of the field of a decoder phase (43_frame_decoder.md). -/
def decFieldLength (d : DecState) : Phase → Nat
  | .header => 2
  | .length => d.width.toNat
  | .key => d.klen.toNat
  | .value => d.vlen.toNat
  | .checksum => 4
  | _ => 0

/-- The terminal phases (R12). -/
def Phase.terminal : Phase → Bool
  | .done => true
  | .error => true
  | .eos => true
  | _ => false

/-- The phases in which a unit transfers a field (R26). -/
def Phase.transfers : Phase → Bool
  | .header => true
  | .length => true
  | .key => true
  | .value => true
  | .checksum => true
  | _ => false

/-- The phases after the header of a frame has been taken and before the command ends. -/
def Phase.afterHeader : Phase → Bool
  | .length => true
  | .key => true
  | .value => true
  | .checksum => true
  | _ => false

/-! ### The clauses of R40 -/

/-- R40 (a) for the encoder: a legal phase, never `EOS` (R185). -/
abbrev encPhaseLegal (s : State) : Prop :=
  ∃ p, p ≠ Phase.eos ∧ s.enc.phase = p.code

/-- R40 (a) for the decoder: a legal phase, never `VALIDATE` (R223). -/
abbrev decPhaseLegal (s : State) : Prop :=
  ∃ p, p ≠ Phase.validate ∧ s.dec.phase = p.code

/-- R40 (c) and R25 for the encoder: before the end, `IDX` counts bytes of the phase's field. -/
def encIdxBounded (s : State) : Prop :=
  ∀ p, s.enc.phase = Phase.code p → p.terminal = false → s.enc.idx.toNat ≤ encFieldLength s.enc p

/-- R40 (c) and R25 for the decoder. -/
def decIdxBounded (s : State) : Prop :=
  ∀ p, s.dec.phase = Phase.code p → p.terminal = false → s.dec.idx.toNat ≤ decFieldLength s.dec p

/-- R40 (d): in `HEADER` to `CHECKSUM` the working registers hold what `VALIDATE` made of the command's lengths. -/
def encLatched (s : State) : Prop :=
  ∀ p, s.enc.phase = Phase.code p → p.transfers = true →
    s.enc.klen64.toNat ≤ 511 ∧ s.enc.vlen64.toNat < 4294967296 ∧
    s.enc.klen = s.enc.klen64.setWidth 9 ∧ s.enc.vlen = s.enc.vlen64.setWidth 32 ∧
    ∃ w, widthOf s.enc.vlen64 = some w ∧ s.enc.width = w.bits ∧ s.enc.hdr = pack w s.encHashEn s.enc.tag s.enc.klen

/-- R40 (e): in `LENGTH` to `CHECKSUM` the working registers hold the fields of the header word. -/
def decLatched (s : State) : Prop :=
  ∀ p, s.dec.phase = Phase.code p → p.afterHeader = true →
    s.dec.width = (unpack s.dec.hdr).width.bits ∧ s.dec.ck = (unpack s.dec.hdr).ck ∧
    s.dec.tag = (unpack s.dec.hdr).tag ∧ s.dec.klen = (unpack s.dec.hdr).klen

/-- The decoder pulls a trailer only of a frame whose flag is set (R205). -/
def decTrailerFlagged (s : State) : Prop :=
  s.dec.phase = Phase.checksum.code → s.dec.ck = true

/-- The encoder writes a trailer only where it has a hash (R174), and the digest it writes is that of key and value (R236). -/
def encDigest (s : State) : Prop :=
  s.enc.phase = Phase.checksum.code →
    s.encHashEn = true ∧
    s.enc.dig = s.encHash.dig (memBytes s.kbuf s.enc.klen.toNat ++ memBytes s.vbuf s.enc.vlen.toNat)

/-- The key and value bytes that the encoder's command has transferred so far. -/
def encTransferred (s : State) : Phase → List Byte
  | .key => memBytes s.kbuf s.enc.idx.toNat
  | .value => memBytes s.kbuf s.enc.klen.toNat ++ memBytes s.vbuf s.enc.idx.toNat
  | .checksum => memBytes s.kbuf s.enc.klen.toNat ++ memBytes s.vbuf s.enc.vlen.toNat
  | _ => []

/-- The key and value bytes that the decoder's command has received so far. -/
def decTransferred (s : State) : Phase → List Byte
  | .key => memBytes s.rkbuf s.dec.idx.toNat
  | .value => memBytes s.rkbuf s.dec.klen.toNat ++ memBytes s.rvbuf s.dec.idx.toNat
  | .checksum => memBytes s.rkbuf s.dec.klen.toNat ++ memBytes s.rvbuf s.dec.vlen.toNat
  | _ => []

/-- R40 (b) and R234 for the encoder: the accumulator holds the key and value bytes of this command that have passed, and so is
`h_init` in `IDLE`, before the key, and in every terminal phase. -/
def encAccumulated (s : State) : Prop :=
  ∀ p, s.enc.phase = Phase.code p →
    s.enc.acc = bif s.encHashEn then s.encHash.fold (encTransferred s p) else s.encHash.init

/-- R40 (b) and R234 for the decoder, which hashes only where it verifies. -/
def decAccumulated (s : State) : Prop :=
  ∀ p, s.dec.phase = Phase.code p →
    s.dec.acc = bif verifies s then s.decHash.fold (decTransferred s p) else s.decHash.init

/-- R40 (f), read of a command in progress (log entry 11): no status before the end. -/
def statusClear (phase : BitVec 4) (status : BitVec 3) (errphase : BitVec 4) (expected actual : BitVec 64) : Prop :=
  ∀ p, phase = Phase.code p → (p = .validate ∨ p.transfers = true ∨ p = .done) →
    status = Status.ok.code ∧ errphase = 0 ∧ expected = 0 ∧ actual = 0

/-- The context of each encoder status (R27, R259). -/
def encContext (e : EncState) : Prop :=
  (e.status = Status.ok.code ∧ e.errphase = 0 ∧ e.expected = 0 ∧ e.actual = 0) ∨
  (e.status = Status.keyTooLong.code ∧ e.errphase = Phase.validate.code ∧ e.expected = 511 ∧ e.actual = e.klen64 ∧
    511 < e.klen64.toNat) ∨
  (e.status = Status.valueTooLong.code ∧ e.errphase = Phase.validate.code ∧ e.expected = 4294967296 ∧ e.actual = e.vlen64 ∧
    4294967296 < e.vlen64.toNat) ∨
  (e.status = Status.outOfRange.code ∧ e.errphase = Phase.validate.code ∧ e.expected = 4294967295 ∧ e.actual = 4294967296) ∨
  (e.status = Status.ioFailure.code ∧ e.actual.toNat < e.expected.toNat ∧
    ∃ p, Phase.transfers p = true ∧ e.errphase = p.code ∧ e.expected.toNat = encFieldLength e p)

/-- The context of each decoder status (R33, R259). -/
def decContext (d : DecState) : Prop :=
  (d.status = Status.ok.code ∧ d.errphase = 0 ∧ d.expected = 0 ∧ d.actual = 0) ∨
  (d.status = Status.endOfStream.code ∧ d.errphase = Phase.header.code ∧ d.expected = 0 ∧ d.actual = 0) ∨
  (d.status = Status.checksumMismatch.code ∧ d.errphase = Phase.checksum.code ∧ d.expected = 0 ∧ d.actual = 0) ∨
  ((d.status = Status.truncatedStream.code ∨ d.status = Status.ioFailure.code) ∧ d.actual.toNat < d.expected.toNat ∧
    ∃ p, Phase.transfers p = true ∧ d.errphase = p.code ∧ d.expected.toNat = decFieldLength d p)

/-- The status a terminal phase of the decoder shows: `EOS` for `EndOfStream` alone (R260). -/
def decTerminalStatus (d : DecState) : Prop :=
  (d.phase = Phase.eos.code → d.status = Status.endOfStream.code) ∧
  (d.phase = Phase.error.code → d.status ≠ Status.ok.code ∧ d.status ≠ Status.endOfStream.code)

/-- The status a terminal phase of the encoder shows (R24). -/
def encTerminalStatus (e : EncState) : Prop :=
  e.phase = Phase.error.code → e.status ≠ Status.ok.code

/-- The result registers (R32): nothing is returned before the end and after a failure; in `DONE` they hold the frame's lengths and,
for DECODE_TAGGED, its tag (R213, R214). -/
def decResults (d : DecState) : Prop :=
  (∀ p, d.phase = Phase.code p → (p.transfers = true ∨ p = .error ∨ p = .eos) →
    d.rklen = 0 ∧ d.rvlen = 0 ∧ d.rtag = 0) ∧
  (d.phase = Phase.done.code → d.rklen = d.klen ∧ d.rvlen = d.vlen ∧ d.rtag = bif d.op then d.tag else 0)

/-- Every buffer, those of the waiting requesters among them, is in canonical form. -/
def buffersCanonical (s : State) : Prop :=
  Memory.wf s.kbuf ∧ Memory.wf s.vbuf ∧ Memory.wf s.rkbuf ∧ Memory.wf s.rvbuf ∧
  ∀ r ∈ s.requests, Memory.wf r.kbuf ∧ Memory.wf r.vbuf

/-- The invariant of the encoder's registers (R40). -/
structure EncInv (s : State) : Prop where
  phase : encPhaseLegal s
  idx : encIdxBounded s
  latched : encLatched s
  digest : encDigest s
  accumulated : encAccumulated s
  clear : statusClear s.enc.phase s.enc.status s.enc.errphase s.enc.expected s.enc.actual
  context : encContext s.enc
  terminal : encTerminalStatus s.enc

/-- The invariant of the decoder's registers (R40). -/
structure DecInv (s : State) : Prop where
  phase : decPhaseLegal s
  idx : decIdxBounded s
  latched : decLatched s
  flagged : decTrailerFlagged s
  accumulated : decAccumulated s
  clear : statusClear s.dec.phase s.dec.status s.dec.errphase s.dec.expected s.dec.actual
  context : decContext s.dec
  terminal : decTerminalStatus s.dec
  results : decResults s.dec

/-- The invariant of the state. -/
structure Inv (s : State) : Prop where
  enc : EncInv s
  dec : DecInv s
  buffers : buffersCanonical s

/-! ### Safe steps -/

/-- A step is safe if it has a next state, or stops only because a requester put on a port a word that is no request of it. -/
def StepSafe (s : State) : Prop :=
  (∃ t, step s = .next t) ∨ (∃ e, step s = .refused (.undecodable e))

/-- Running only one unit: `n` turns of the agent `a`, then whatever turns follow. -/
def withTurns (n : Nat) (a : Agent) (rest : List Agent) (s : State) : State :=
  { s with turns := List.replicate n a ++ rest }

/-- `n` steps of the machine. -/
def runSteps (n : Nat) (s : State) : Host.Outcome State Fault Refusal :=
  Host.Core.run Sys2Proof.core n s

/-! ### How a command ends -/

/-- The encoder has ended its command with `OK` (R177). -/
def encSucceeded (s : State) : Prop :=
  s.enc.phase = Phase.done.code ∧ s.enc.status = Status.ok.code ∧ s.enc.errphase = 0 ∧ s.enc.expected = 0 ∧
    s.enc.actual = 0 ∧ s.enc.acc = s.encHash.init

/-- The encoder has ended its command with this failure on record (R262). -/
def encFailedWith (f : Failure) (s : State) : Prop :=
  s.enc.phase = Phase.error.code ∧ s.enc.status = f.status.code ∧ s.enc.errphase = f.phase.code ∧
    s.enc.expected = f.expected ∧ s.enc.actual = f.actual ∧ s.enc.acc = s.encHash.init

/-- The encoder waits in a working phase for the sink's answer (R68). -/
def encWaiting (s : State) : Prop :=
  (∃ p, Phase.transfers p = true ∧ s.enc.phase = p.code) ∧ s.sinkAnswers = []

/-- The decoder has ended its command with `OK` and these results (R213). -/
def decSucceeded (key value : List Byte) (tag : BitVec 4) (s : State) : Prop :=
  s.dec.phase = Phase.done.code ∧ s.dec.status = Status.ok.code ∧ s.dec.errphase = 0 ∧ s.dec.expected = 0 ∧
    s.dec.actual = 0 ∧ s.dec.acc = s.decHash.init ∧ resultKey s = key ∧ resultValue s = value ∧ s.dec.rtag = tag

/-- The decoder has ended its command with this failure on record and nothing returned (R263, R214). -/
def decFailedWith (f : Failure) (s : State) : Prop :=
  s.dec.phase = (decFailurePhase f.status).code ∧ s.dec.status = f.status.code ∧ s.dec.errphase = f.phase.code ∧
    s.dec.expected = f.expected ∧ s.dec.actual = f.actual ∧ s.dec.acc = s.decHash.init ∧
    s.dec.rklen = 0 ∧ s.dec.rvlen = 0 ∧ s.dec.rtag = 0

/-- The decoder waits in a working phase for the source's answer (R68). -/
def decWaiting (s : State) : Prop :=
  (∃ p, Phase.transfers p = true ∧ s.dec.phase = p.code) ∧ s.sourceAnswers = []

end Sys2Proof.Machine
end

