-- ==== Sys2Proof/Certificates/Slice0/Obligations.lean ====
section
/-! DEFINITION. The statements about the model, most of them the numbered rules of spec/ that say what the machine does. Where a
statement names a working step it is about the state whose next turn is that unit's (`turns`), and its conclusion is the whole next
state, so that what the step leaves alone is stated with what it changes. `phasesReachable s` is the premise that R40 (a) holds of
`s`; `UnreachablePhasesAreRefused` says what happens in every other state. -/

open Sys2Proof Sys2Proof.Machine

/-! ### Encodings -/

/-- Decoding the word of a well-formed operation gives that operation back, for every operand value (R91, R101 to R108, R114, R115;
the request words of the opcode-less ports are the model's own layout, log entry 7). -/
def Obligations.DecodeOfEncode : Prop :=
  ∀ i : Instr, WellFormed i = true → decode (encode i) = .ok i

/-- R111: every header word is legal, stands for exactly one tuple of fields, is the word of the operation it decodes to, and cannot
make the decoder fail by itself. -/
def Obligations.EveryHeaderWordIsLegal : Prop :=
  ∀ h : BitVec 16,
    decode (.header h) = .ok (decodeHeader h) ∧ encode (decodeHeader h) = .header h ∧
    (∃! f : HeaderFields, pack f.width f.ck f.tag f.klen = h) ∧
    ∀ s : State, headerReady s = true → ∃ t, exec (decodeHeader h) s = .next t

/-- The masks and matches of the eight frame formats (R101 to R108): bits 15 to 13 select the format, the rest are its operands. -/
def Obligations.FrameFormatsByMaskAndMatch : Prop :=
  ∀ h : BitVec 16,
    (h &&& 0xE000#16 = 0x4000#16 ↔ decodeHeader h = .frameW1 (h.extractLsb' 9 4) (h.extractLsb' 0 9)) ∧
    (h &&& 0xE000#16 = 0x6000#16 ↔ decodeHeader h = .frameW1C (h.extractLsb' 9 4) (h.extractLsb' 0 9)) ∧
    (h &&& 0xE000#16 = 0x8000#16 ↔ decodeHeader h = .frameW2 (h.extractLsb' 9 4) (h.extractLsb' 0 9)) ∧
    (h &&& 0xE000#16 = 0xA000#16 ↔ decodeHeader h = .frameW2C (h.extractLsb' 9 4) (h.extractLsb' 0 9)) ∧
    (h &&& 0xE000#16 = 0xC000#16 ↔ decodeHeader h = .frameW3 (h.extractLsb' 9 4) (h.extractLsb' 0 9)) ∧
    (h &&& 0xE000#16 = 0xE000#16 ↔ decodeHeader h = .frameW3C (h.extractLsb' 9 4) (h.extractLsb' 0 9)) ∧
    (h &&& 0xE000#16 = 0x0000#16 ↔ decodeHeader h = .frameW4 (h.extractLsb' 9 4) (h.extractLsb' 0 9)) ∧
    (h &&& 0xE000#16 = 0x2000#16 ↔ decodeHeader h = .frameW4C (h.extractLsb' 9 4) (h.extractLsb' 0 9))

/-- R92 and R93: the header word as a number, its fields as quotients and remainders, its two wire bytes with the high byte first,
and reading it back from the front of a run of bytes. -/
def Obligations.HeaderWordAsNumber : Prop :=
  (∀ (w : Width) (c : Bool) (t : BitVec 4) (k : BitVec 9),
    (pack w c t k).toNat = (wcEnc w).toNat * 16384 + c.toNat * 8192 + t.toNat * 512 + k.toNat ∧
    (wcEnc w).toNat ≤ 3 ∧ t.toNat ≤ 15 ∧ k.toNat ≤ 511) ∧
  (∀ h : BitVec 16,
    (wcEnc (unpack h).width).toNat = h.toNat / 16384 ∧ (unpack h).ck.toNat = h.toNat / 8192 % 2 ∧
    (unpack h).tag.toNat = h.toNat / 512 % 16 ∧ (unpack h).klen.toNat = h.toNat % 512) ∧
  ∀ (h : BitVec 16) (rest : List Byte),
    (headerBytes h).map BitVec.toNat = [h.toNat / 256, h.toNat % 256] ∧
    decodeHeaderBytes (headerBytes h ++ rest) = .ok (decodeHeader h, rest)

/-- A few words written out from the spec's tables (R136, R114, R115) and the operations they stand for. The last clause comes from no
table: `CW_D` is one bit (R115), and that a request word has room above it and is rejected with a bit set there is the model's choice
(log entries 7 and 14). -/
def Obligations.SampleWordsDecode : Prop :=
  decode (.header 0xA016#16) = .ok (.frameW2C 0 22) ∧
  decode (.header 0x3FFF#16) = .ok (.frameW4C 15 511) ∧
  decode (.header 0xCB00#16) = .ok (.frameW3 5 256) ∧
  decode (.request .encCmd 0x1500000000000000010000000000000002#133) = .ok (.encodeTagged 5 1 2) ∧
  decode (.request .decCmd 1#133) = .ok .decodeTagged ∧
  decode (.request .decCmd 2#133) = .error (.bitsBeyondPort .decCmd)

/-! ### The header codec and the width selector -/

/-- R134: pack and unpack are inverse to each other. -/
def Obligations.PackUnpackRoundTrip : Prop :=
  (∀ (w : Width) (c : Bool) (t : BitVec 4) (k : BitVec 9),
    unpack (pack w c t k) = { width := w, ck := c, tag := t, klen := k }) ∧
  (∀ h : BitVec 16, pack (unpack h).width (unpack h).ck (unpack h).tag (unpack h).klen = h) ∧
  Function.Bijective fun f : HeaderFields => pack f.width f.ck f.tag f.klen

/-- R135: changing one operand of pack changes only that field's bits; and the place of key-length bit 8 and of the tag's lowest
bit in the first wire byte. -/
def Obligations.PackFieldsAreIndependent : Prop :=
  ∀ (w w' : Width) (c c' : Bool) (t t' : BitVec 4) (k k' : BitVec 9) (i : Nat),
    (¬(14 ≤ i ∧ i ≤ 15) → (pack w c t k).getLsbD i = (pack w' c t k).getLsbD i) ∧
    (i ≠ 13 → (pack w c t k).getLsbD i = (pack w c' t k).getLsbD i) ∧
    (¬(9 ≤ i ∧ i ≤ 12) → (pack w c t k).getLsbD i = (pack w c t' k).getLsbD i) ∧
    (¬ i ≤ 8 → (pack w c t k).getLsbD i = (pack w c t k').getLsbD i) ∧
    (headerByte (pack w c t k) 0).getLsbD 0 = k.getLsbD 8 ∧ (headerByte (pack w c t k) 0).getLsbD 1 = t.getLsbD 0

/-- R145: the width-class table is a bijection, and no stored class means a width below 1 or above 4. -/
def Obligations.WidthClassTableLaws : Prop :=
  (∀ w : Width, wcDec (wcEnc w) = w) ∧ (∀ x : BitVec 2, wcEnc (wcDec x) = x) ∧
  ∀ x : BitVec 2, (wcDec x).bits ≠ 0 ∧ (wcDec x).bits.toNat ≤ 4

/-- R141: the WIDTHOF port, whole: its thresholds on all 64 bits, its `OOR` flag, and the same conditions in terms of the bits of
the length. -/
def Obligations.WidthOfPort : Prop :=
  ∀ (l : BitVec 64) (s : State),
    (l.toNat < 2 ^ 8 →
      exec (.widthOf l) s = .next { s with ports := { s.ports with widthOfWidth := 1, widthOfOor := false } }) ∧
    (2 ^ 8 ≤ l.toNat → l.toNat < 2 ^ 16 →
      exec (.widthOf l) s = .next { s with ports := { s.ports with widthOfWidth := 2, widthOfOor := false } }) ∧
    (2 ^ 16 ≤ l.toNat → l.toNat < 2 ^ 24 →
      exec (.widthOf l) s = .next { s with ports := { s.ports with widthOfWidth := 3, widthOfOor := false } }) ∧
    (2 ^ 24 ≤ l.toNat → l.toNat < 2 ^ 32 →
      exec (.widthOf l) s = .next { s with ports := { s.ports with widthOfWidth := 4, widthOfOor := false } }) ∧
    (2 ^ 32 ≤ l.toNat → ∃ v,
      exec (.widthOf l) s =
        .next { s with ports := { s.ports with widthOfWidth := v, widthOfOor := true }, freeCount := s.freeCount + 1 }) ∧
    (widthOf l = none ↔ l.extractLsb' 32 32 ≠ 0) ∧
    (widthOf l = some .four ↔ l.extractLsb' 32 32 = 0 ∧ l.extractLsb' 24 8 ≠ 0) ∧
    (widthOf l = some .three ↔ l.extractLsb' 24 40 = 0 ∧ l.extractLsb' 16 8 ≠ 0) ∧
    (widthOf l = some .two ↔ l.extractLsb' 16 48 = 0 ∧ l.extractLsb' 8 8 ≠ 0) ∧
    (widthOf l = some .one ↔ l.extractLsb' 8 56 = 0)

/-- R131 and R132: HDR.PACK on its domain completes with the packed word and `RANGE_ERR = 0`; HDR.UNPACK completes on every word
with its four fields. Neither changes anything else. -/
def Obligations.HeaderCodecPorts : Prop :=
  (∀ (w : Width) (c : Bool) (t : BitVec 4) (k : BitVec 9) (s : State),
    exec (.hdrPack w.bits c t k) s =
      .next { s with ports := { s.ports with
        packH := (w.bits.setWidth 2 : BitVec 2) ++ BitVec.ofBool c ++ t ++ k
        packRangeErr := false } }) ∧
  ∀ (h : BitVec 16) (s : State),
    exec (.hdrUnpack h) s =
      .next { s with ports := { s.ports with
        unpackWidth := if h.extractLsb' 14 2 = 0 then 4 else (h.extractLsb' 14 2).setWidth 3
        unpackC := h.getLsbD 13
        unpackT := h.extractLsb' 9 4
        unpackK := h.extractLsb' 0 9 } }

/-- R143 and R144, whole: WC.ENC's table with `RANGE_ERR = 0`, width modulo 4 on the legal domain, and `RANGE_ERR = 1` with nothing
said of `wc` outside it; WC.DEC's table on its four inputs. -/
def Obligations.WidthClassPorts : Prop :=
  (∀ s : State,
    exec (.wcEnc 1) s = .next { s with ports := { s.ports with wcEncWc := 0b01, wcEncRangeErr := false } } ∧
    exec (.wcEnc 2) s = .next { s with ports := { s.ports with wcEncWc := 0b10, wcEncRangeErr := false } } ∧
    exec (.wcEnc 3) s = .next { s with ports := { s.ports with wcEncWc := 0b11, wcEncRangeErr := false } } ∧
    exec (.wcEnc 4) s = .next { s with ports := { s.ports with wcEncWc := 0b00, wcEncRangeErr := false } } ∧
    exec (.wcDec 0b00) s = .next { s with ports := { s.ports with wcDecWidth := 4 } } ∧
    exec (.wcDec 0b01) s = .next { s with ports := { s.ports with wcDecWidth := 1 } } ∧
    exec (.wcDec 0b10) s = .next { s with ports := { s.ports with wcDecWidth := 2 } } ∧
    exec (.wcDec 0b11) s = .next { s with ports := { s.ports with wcDecWidth := 3 } }) ∧
  (∀ w : Width, (wcEnc w).toNat = w.toNat % 4) ∧
  ∀ (width : BitVec 3) (s : State), width = 0 ∨ 4 < width.toNat → ∃ v,
    exec (.wcEnc width) s =
      .next { s with ports := { s.ports with wcEncWc := v, wcEncRangeErr := true }, freeCount := s.freeCount + 1 }

/-- The model's choice for the unspecified outputs (R133, R142, R143, R274; log entry 6): the request completes with the error flag
up and some data output of which nothing is said, changing nothing else but the count of free values, and the host's read of that
output is refused. After a legal HDR.PACK the read gives the packed word. -/
def Obligations.UnspecifiedPortOutputsAreWithheld : Prop :=
  (∀ (width : BitVec 3) (c : Bool) (t : BitVec 4) (k : BitVec 9) (s : State), width = 0 ∨ 4 < width.toNat → ∃ u v,
    exec (.hdrPack width c t k) s = .next u ∧
    u = { s with ports := { s.ports with packH := v, packRangeErr := true }, freeCount := s.freeCount + 1 } ∧
    readPackOutput u = .error .portOutputUnspecified) ∧
  (∀ (l : BitVec 64) (s : State), 2 ^ 32 ≤ l.toNat → ∃ u v, exec (.widthOf l) s = .next u ∧
    u = { s with ports := { s.ports with widthOfWidth := v, widthOfOor := true }, freeCount := s.freeCount + 1 } ∧
    readWidthOutput u = .error .portOutputUnspecified) ∧
  (∀ (width : BitVec 3) (s : State), width = 0 ∨ 4 < width.toNat → ∃ u v, exec (.wcEnc width) s = .next u ∧
    u = { s with ports := { s.ports with wcEncWc := v, wcEncRangeErr := true }, freeCount := s.freeCount + 1 } ∧
    readClassOutput u = .error .portOutputUnspecified) ∧
  ∀ (w : Width) (c : Bool) (t : BitVec 4) (k : BitVec 9) (s : State), ∃ u, exec (.hdrPack w.bits c t k) s = .next u ∧
    readPackOutput u = .ok (pack w c t k)

/-- R146: LEN.EMIT completes for every width and length; byte `i` is the length shifted right by `8·(width−1−i)`, taken modulo 256;
they are the last bytes of the four-byte image, and stand for the length modulo 256 to the width. -/
def Obligations.LengthEmitPort : Prop :=
  ∀ (w : Width) (l : BitVec 32) (s : State), ∃ out : List Byte,
    exec (.lenEmit w l) s = .next { s with ports := { s.ports with lenEmitBytes := out } } ∧
    out.length = w.toNat ∧
    (∀ i, i < w.toNat → (out[i]?).map BitVec.toNat = some (l.toNat / 2 ^ (8 * (w.toNat - 1 - i)) % 256)) ∧
    out = (lenEmit .four l).drop (4 - w.toNat) ∧ fromBe out = l.toNat % 256 ^ w.toNat

/-- R147: LEN.ASSEMBLE completes on every sequence of 1 to 4 bytes with its big-endian value. Other sequences are
outside its operand; that they are refused is the model's choice and no rule's (log entry 16). -/
def Obligations.LengthAssemblePort : Prop :=
  (∀ (bytes : List Byte) (s : State), 1 ≤ bytes.length → bytes.length ≤ 4 → ∃ l : BitVec 32,
    exec (.lenAssemble bytes) s = .next { s with ports := { s.ports with lenAssembleL := l } } ∧ l.toNat = fromBe bytes) ∧
  ∀ (bytes : List Byte) (s : State), bytes.length = 0 ∨ 4 < bytes.length →
    exec (.lenAssemble bytes) s = .refused .operandOutOfDomain

/-- R148: the laws of the length field. -/
def Obligations.LengthFieldLaws : Prop :=
  (∀ (l : BitVec 32) (w : Width), widthOf (l.setWidth 64) = some w → lenAssemble (lenEmit w l) = l) ∧
  (∀ l : BitVec 32, (widthOf (l.setWidth 64)).isSome = true) ∧
  (∀ (w : Width) (l : BitVec 32), l.toNat < 256 ^ w.toNat → lenAssemble (lenEmit w l) = l) ∧
  (∀ (w : Width) (bytes : List Byte), bytes.length = w.toNat → lenEmit w (lenAssemble bytes) = bytes) ∧
  ∀ (b : Byte) (rest : List Byte), rest.length ≤ 3 → ∃ w, widthOf ((lenAssemble (b :: rest)).setWidth 64) = some w ∧
    w.toNat ≤ rest.length + 1 ∧ (w.toNat = rest.length + 1 ↔ rest = [] ∨ b ≠ 0)

/-! ### Which instructions run -/

/-- Every operation whose step is enabled completes, and every other is refused by name and never run (R160, R181, R190, R196, R219,
R130, R140, R274). -/
def Obligations.EnabledOperationsComplete : Prop :=
  ∀ (i : Instr) (s : State), WellFormed i = true →
    (enabled i s = true → ∃ t, exec i s = .next t) ∧
    (enabled i s = false →
      exec i s = .refused .issueNotEnabled ∨ exec i s = .refused .retireNotEnabled ∨ exec i s = .refused .headerNotReady)

/-- A step runs the decoded operation. A waiting requester's turn: the word on its port is decoded, and the operation runs on the
state in which the request has left the queue, with the operand buffers of an encoder command in place; while its step is not enabled
the requester waits, for ISSUE by the rules (R83, R114, R116, R273). The decoder's turn with a complete header runs the operation that
the header word decodes to (R90, R196). Three clauses are the model's choice and no rule's: that a RETIRE that is not enabled waits
(log entry 14), that a word that is no request of its port is refused (log entry 14), and that the turn of a place in which no requester
waits changes nothing but the turns (log entry 1). -/
def Obligations.StepRunsTheDecodedOperation : Prop :=
  (∀ (s : State) (ts : List Agent) (n : Nat) (r : Request), phasesReachable s = true →
    s.turns = .requester n :: ts → s.requests[n]? = some r →
    (∀ i, decode (.request r.port r.word) = .ok i → enabled i s = true →
      step s = exec i { s with
        turns := ts
        requests := s.requests.eraseIdx n
        kbuf := if r.port = .encCmd then r.kbuf else s.kbuf
        vbuf := if r.port = .encCmd then r.vbuf else s.vbuf }) ∧
    (∀ i, decode (.request r.port r.word) = .ok i → enabled i s = false → step s = .next { s with turns := ts }) ∧
    (∀ e, decode (.request r.port r.word) = .error e → step s = .refused (.undecodable e))) ∧
  (∀ (s : State) (ts : List Agent) (n : Nat), phasesReachable s = true → s.turns = .requester n :: ts → s.requests[n]? = none →
    step s = .next { s with turns := ts }) ∧
  ∀ (s : State) (ts : List Agent), phasesReachable s = true → s.turns = .dec :: ts → s.dec.phase = Phase.header.code →
    s.dec.idx = 2 → step s = exec (decodeHeader s.dec.hdr) { s with turns := ts }

/-! ### Commands issued and retired -/

/-- R160 and R161. ENCODE_TAGGED and ENCODE complete in `IDLE` by latching their operands, and are refused elsewhere; the tag of the
untagged form is 0 whatever the word's tag bits hold. A requester's command word with its buffers is served so in `IDLE`, and waits
in every other phase. -/
def Obligations.EncodeCommandsIssue : Prop :=
  (∀ (s : State) (tag tag' : BitVec 4) (klen vlen : BitVec 64),
    (s.enc.phase = Phase.idle.code →
      exec (.encodeTagged tag klen vlen) s = .next { s with enc := { s.enc with
        op := true, tag := tag, klen64 := klen, vlen64 := vlen, status := 0, errphase := 0, expected := 0, actual := 0,
        idx := 0, phase := 1 } } ∧
      exec (.encode tag klen vlen) s = .next { s with enc := { s.enc with
        op := false, tag := 0, klen64 := klen, vlen64 := vlen, status := 0, errphase := 0, expected := 0, actual := 0,
        idx := 0, phase := 1 } }) ∧
    (s.enc.phase ≠ Phase.idle.code →
      exec (.encodeTagged tag klen vlen) s = .refused .issueNotEnabled ∧
      exec (.encode tag klen vlen) s = .refused .issueNotEnabled) ∧
    exec (.encode tag klen vlen) s = exec (.encode tag' klen vlen) s) ∧
  ∀ (s : State) (ts : List Agent) (n : Nat) (op : Bool) (tag : BitVec 4) (klen vlen : BitVec 64) (kb vb : Memory),
    phasesReachable s = true → s.turns = .requester n :: ts →
    s.requests[n]? = some { port := .encCmd, word := encCmdWord op tag klen vlen, kbuf := kb, vbuf := vb } →
    (s.enc.phase = Phase.idle.code →
      step s = .next { s with
        turns := ts
        requests := s.requests.eraseIdx n
        kbuf := kb
        vbuf := vb
        enc := { s.enc with
          op := op
          tag := bif op then tag else 0
          klen64 := klen
          vlen64 := vlen
          status := 0
          errphase := 0
          expected := 0
          actual := 0
          idx := 0
          phase := 1 } }) ∧
    (s.enc.phase ≠ Phase.idle.code → step s = .next { s with turns := ts })

/-- R190: DECODE_TAGGED and DECODE complete in `IDLE` by clearing the working, result and status registers and entering `HEADER`,
and are refused elsewhere. -/
def Obligations.DecodeCommandsIssue : Prop :=
  ∀ s : State,
    (s.dec.phase = Phase.idle.code →
      exec .decodeTagged s = .next { s with dec := {
        op := true, hdr := 0, width := 0, ck := false, tag := 0, klen := 0, vlen := 0, digrx := 0, rklen := 0, rvlen := 0,
        rtag := 0, phase := 2, idx := 0, status := 0, errphase := 0, expected := 0, actual := 0, acc := s.dec.acc } } ∧
      exec .decode s = .next { s with dec := {
        op := false, hdr := 0, width := 0, ck := false, tag := 0, klen := 0, vlen := 0, digrx := 0, rklen := 0, rvlen := 0,
        rtag := 0, phase := 2, idx := 0, status := 0, errphase := 0, expected := 0, actual := 0, acc := s.dec.acc } }) ∧
    (s.dec.phase ≠ Phase.idle.code →
      exec .decodeTagged s = .refused .issueNotEnabled ∧ exec .decode s = .refused .issueNotEnabled)

/-- R181 and R219: RETIRE completes exactly in the terminal phases, clears `IDX` and makes the unit `IDLE`, and changes nothing
else; elsewhere it is refused. -/
def Obligations.RetireFreesTheUnit : Prop :=
  ∀ s : State,
    (s.enc.phase = Phase.done.code ∨ s.enc.phase = Phase.error.code →
      exec .encRetire s = .next { s with enc := { s.enc with idx := 0, phase := 0 } }) ∧
    (¬(s.enc.phase = Phase.done.code ∨ s.enc.phase = Phase.error.code) →
      exec .encRetire s = .refused .retireNotEnabled) ∧
    (s.dec.phase = Phase.done.code ∨ s.dec.phase = Phase.error.code ∨ s.dec.phase = Phase.eos.code →
      exec .decRetire s = .next { s with dec := { s.dec with idx := 0, phase := 0 } }) ∧
    (¬(s.dec.phase = Phase.done.code ∨ s.dec.phase = Phase.error.code ∨ s.dec.phase = Phase.eos.code) →
      exec .decRetire s = .refused .retireNotEnabled)

/-- The eight frame formats (R101 to R108, R196): with a complete header each completes by setting the width, the trailer flag, the
tag and the key length of its format and entering `LENGTH`, and changes nothing else. -/
def Obligations.FrameFormatsSetTheFields : Prop :=
  ∀ (s : State) (tag : BitVec 4) (klen : BitVec 9), s.dec.phase = Phase.header.code → s.dec.idx = 2 →
    exec (.frameW1 tag klen) s = .next { s with dec := { s.dec with
      width := 1, ck := false, tag := tag, klen := klen, vlen := 0, idx := 0, phase := 3 } } ∧
    exec (.frameW1C tag klen) s = .next { s with dec := { s.dec with
      width := 1, ck := true, tag := tag, klen := klen, vlen := 0, idx := 0, phase := 3 } } ∧
    exec (.frameW2 tag klen) s = .next { s with dec := { s.dec with
      width := 2, ck := false, tag := tag, klen := klen, vlen := 0, idx := 0, phase := 3 } } ∧
    exec (.frameW2C tag klen) s = .next { s with dec := { s.dec with
      width := 2, ck := true, tag := tag, klen := klen, vlen := 0, idx := 0, phase := 3 } } ∧
    exec (.frameW3 tag klen) s = .next { s with dec := { s.dec with
      width := 3, ck := false, tag := tag, klen := klen, vlen := 0, idx := 0, phase := 3 } } ∧
    exec (.frameW3C tag klen) s = .next { s with dec := { s.dec with
      width := 3, ck := true, tag := tag, klen := klen, vlen := 0, idx := 0, phase := 3 } } ∧
    exec (.frameW4 tag klen) s = .next { s with dec := { s.dec with
      width := 4, ck := false, tag := tag, klen := klen, vlen := 0, idx := 0, phase := 3 } } ∧
    exec (.frameW4C tag klen) s = .next { s with dec := { s.dec with
      width := 4, ck := true, tag := tag, klen := klen, vlen := 0, idx := 0, phase := 3 } }

/-! ### The encoder's steps -/

/-- R164, R165 and R166: the `VALIDATE` step, whole, with the next state of each case. -/
def Obligations.EncoderValidateStep : Prop :=
  ∀ (s : State) (ts : List Agent), phasesReachable s = true → s.turns = .enc :: ts → s.enc.phase = Phase.validate.code →
    (511 < s.enc.klen64.toNat →
      step s = .next { s with turns := ts, enc := { s.enc with
        status := 1, errphase := 1, expected := 511, actual := s.enc.klen64, acc := s.encHash.init, phase := 8 } }) ∧
    (s.enc.klen64.toNat ≤ 511 → 4294967296 < s.enc.vlen64.toNat →
      step s = .next { s with turns := ts, enc := { s.enc with
        status := 2, errphase := 1, expected := 4294967296, actual := s.enc.vlen64, acc := s.encHash.init, phase := 8 } }) ∧
    (s.enc.klen64.toNat ≤ 511 → s.enc.vlen64.toNat = 4294967296 →
      step s = .next { s with turns := ts, enc := { s.enc with
        status := 3, errphase := 1, expected := 4294967295, actual := s.enc.vlen64, acc := s.encHash.init, phase := 8 } }) ∧
    (s.enc.klen64.toNat ≤ 511 → s.enc.vlen64.toNat < 4294967296 → ∃ w, widthOf s.enc.vlen64 = some w ∧
      step s = .next { s with turns := ts, enc := { s.enc with
        width := w.bits
        klen := s.enc.klen64.extractLsb' 0 9
        vlen := s.enc.vlen64.extractLsb' 0 32
        hdr := pack w s.encHashEn s.enc.tag (s.enc.klen64.extractLsb' 0 9)
        idx := 0
        phase := 2 } })

/-- R167 and R168: the encoder's `HEADER` steps. -/
def Obligations.EncoderHeaderSteps : Prop :=
  ∀ (s : State) (ts : List Agent) (rest : List SinkAnswer), phasesReachable s = true → s.turns = .enc :: ts →
    s.enc.phase = Phase.header.code →
    (s.enc.idx.toNat < 2 → s.sinkAnswers = .ok :: rest →
      step s = .next { s with
        turns := ts
        sinkAnswers := rest
        sink := s.sink ++ [if s.enc.idx = 0 then s.enc.hdr.extractLsb' 8 8 else s.enc.hdr.extractLsb' 0 8]
        enc := { s.enc with idx := s.enc.idx + 1 } }) ∧
    (s.enc.idx.toNat < 2 → s.sinkAnswers = .err :: rest →
      step s = .next (encRaise .ioFailure .header 2 (s.enc.idx.setWidth 64) { s with turns := ts, sinkAnswers := rest })) ∧
    (s.enc.idx = 2 → step s = .next { s with turns := ts, enc := { s.enc with idx := 0, phase := 3 } })

/-- R169 and R170: the encoder's `LENGTH` steps, from the latched width. -/
def Obligations.EncoderLengthSteps : Prop :=
  ∀ (s : State) (ts : List Agent) (rest : List SinkAnswer), phasesReachable s = true → s.turns = .enc :: ts →
    s.enc.phase = Phase.length.code →
    (s.enc.idx.toNat < s.enc.width.toNat → s.sinkAnswers = .ok :: rest →
      step s = .next { s with
        turns := ts
        sinkAnswers := rest
        sink := s.sink ++ [BitVec.ofNat 8 (s.enc.vlen.toNat / 2 ^ (8 * (s.enc.width.toNat - 1 - s.enc.idx.toNat)))]
        enc := { s.enc with idx := s.enc.idx + 1 } }) ∧
    (s.enc.idx.toNat < s.enc.width.toNat → s.sinkAnswers = .err :: rest →
      step s = .next (encRaise .ioFailure .length (s.enc.width.setWidth 64) (s.enc.idx.setWidth 64)
        { s with turns := ts, sinkAnswers := rest })) ∧
    (s.enc.idx.toNat = s.enc.width.toNat →
      step s = .next { s with turns := ts, enc := { s.enc with idx := 0, phase := 4 } })

/-- R171 and R172: the encoder's `KEY` steps. The invariant says that `KBUF` has the byte read (R38, R40). -/
def Obligations.EncoderKeySteps : Prop :=
  ∀ (s : State) (ts : List Agent) (rest : List SinkAnswer), Inv s → s.turns = .enc :: ts → s.enc.phase = Phase.key.code →
    (s.enc.idx.toNat < s.enc.klen.toNat → s.sinkAnswers = .ok :: rest →
      step s = .next { s with
        turns := ts
        sinkAnswers := rest
        sink := s.sink ++ [memRead s.kbuf s.enc.idx.toNat]
        enc := { s.enc with
          idx := s.enc.idx + 1
          acc := bif s.encHashEn then s.encHash.update s.enc.acc (memRead s.kbuf s.enc.idx.toNat) else s.enc.acc } }) ∧
    (s.enc.idx.toNat < s.enc.klen.toNat → s.sinkAnswers = .err :: rest →
      step s = .next (encRaise .ioFailure .key (s.enc.klen.setWidth 64) (s.enc.idx.setWidth 64)
        { s with turns := ts, sinkAnswers := rest })) ∧
    (s.enc.idx.toNat = s.enc.klen.toNat →
      step s = .next { s with turns := ts, enc := { s.enc with idx := 0, phase := 5 } })

/-- R173 and R174: the encoder's `VALUE` steps; at the end a trailer follows iff the encoder has a hash. -/
def Obligations.EncoderValueSteps : Prop :=
  ∀ (s : State) (ts : List Agent) (rest : List SinkAnswer), Inv s → s.turns = .enc :: ts → s.enc.phase = Phase.value.code →
    (s.enc.idx.toNat < s.enc.vlen.toNat → s.sinkAnswers = .ok :: rest →
      step s = .next { s with
        turns := ts
        sinkAnswers := rest
        sink := s.sink ++ [memRead s.vbuf s.enc.idx.toNat]
        enc := { s.enc with
          idx := s.enc.idx + 1
          acc := bif s.encHashEn then s.encHash.update s.enc.acc (memRead s.vbuf s.enc.idx.toNat) else s.enc.acc } }) ∧
    (s.enc.idx.toNat < s.enc.vlen.toNat → s.sinkAnswers = .err :: rest →
      step s = .next (encRaise .ioFailure .value (s.enc.vlen.setWidth 64) (s.enc.idx.setWidth 64)
        { s with turns := ts, sinkAnswers := rest })) ∧
    (s.enc.idx.toNat = s.enc.vlen.toNat → s.encHashEn = true →
      step s = .next { s with turns := ts, enc := { s.enc with
        dig := s.encHash.dig (memBytes s.kbuf s.enc.klen.toNat ++ memBytes s.vbuf s.enc.vlen.toNat)
        idx := 0
        phase := 6 } }) ∧
    (s.enc.idx.toNat = s.enc.vlen.toNat → s.encHashEn = false →
      step s = .next (encComplete { s with turns := ts }))

/-- R175, R176 and R177: the encoder's `CHECKSUM` steps, and what completion with `OK` writes. -/
def Obligations.EncoderChecksumSteps : Prop :=
  ∀ (s : State) (ts : List Agent) (rest : List SinkAnswer), phasesReachable s = true → s.turns = .enc :: ts →
    s.enc.phase = Phase.checksum.code →
    (s.enc.idx.toNat < 4 → s.sinkAnswers = .ok :: rest →
      step s = .next { s with
        turns := ts
        sinkAnswers := rest
        sink := s.sink ++ [BitVec.ofNat 8 (s.enc.dig.toNat / 2 ^ (8 * (3 - s.enc.idx.toNat)))]
        enc := { s.enc with idx := s.enc.idx + 1 } }) ∧
    (s.enc.idx.toNat < 4 → s.sinkAnswers = .err :: rest →
      step s = .next (encRaise .ioFailure .checksum 4 (s.enc.idx.setWidth 64) { s with turns := ts, sinkAnswers := rest })) ∧
    (s.enc.idx = 4 →
      step s = .next { s with turns := ts, enc := { s.enc with
        acc := s.encHash.init, status := 0, errphase := 0, expected := 0, actual := 0, phase := 7 } })

/-! ### The decoder's steps -/

/-- R193 to R196: the decoder's `HEADER` steps; the advance takes the four fields of the header word, whatever the word is. -/
def Obligations.DecoderHeaderSteps : Prop :=
  ∀ (s : State) (ts : List Agent) (b : Byte) (rest : List SourceAnswer), phasesReachable s = true → s.turns = .dec :: ts →
    s.dec.phase = Phase.header.code →
    (s.dec.idx = 0 → s.sourceAnswers = .byte b :: rest →
      step s = .next { s with turns := ts, sourceAnswers := rest, dec := { s.dec with
        hdr := b ++ s.dec.hdr.extractLsb' 0 8, idx := 1 } }) ∧
    (s.dec.idx = 1 → s.sourceAnswers = .byte b :: rest →
      step s = .next { s with turns := ts, sourceAnswers := rest, dec := { s.dec with
        hdr := s.dec.hdr.extractLsb' 8 8 ++ b, idx := 2 } }) ∧
    (s.dec.idx = 0 → s.sourceAnswers = .eos :: rest →
      step s = .next { s with turns := ts, sourceAnswers := rest, dec := { s.dec with
        status := 4, errphase := 2, expected := 0, actual := 0, acc := s.decHash.init, phase := 9 } }) ∧
    (s.dec.idx = 1 → s.sourceAnswers = .eos :: rest →
      step s = .next { s with turns := ts, sourceAnswers := rest, dec := { s.dec with
        status := 5, errphase := 2, expected := 2, actual := 1, acc := s.decHash.init, phase := 8 } }) ∧
    (s.dec.idx = 2 →
      step s = .next { s with turns := ts, dec := { s.dec with
        width := (unpack s.dec.hdr).width.bits
        ck := (unpack s.dec.hdr).ck
        tag := (unpack s.dec.hdr).tag
        klen := (unpack s.dec.hdr).klen
        vlen := 0
        idx := 0
        phase := 3 } })

/-- R197, R198 and R199: the decoder's `LENGTH` steps. -/
def Obligations.DecoderLengthSteps : Prop :=
  ∀ (s : State) (ts : List Agent) (b : Byte) (rest : List SourceAnswer), phasesReachable s = true → s.turns = .dec :: ts →
    s.dec.phase = Phase.length.code →
    (s.dec.idx.toNat < s.dec.width.toNat → s.sourceAnswers = .byte b :: rest →
      step s = .next { s with turns := ts, sourceAnswers := rest, dec := { s.dec with
        vlen := BitVec.ofNat 32 (s.dec.vlen.toNat * 256 + b.toNat), idx := s.dec.idx + 1 } }) ∧
    (s.dec.idx.toNat < s.dec.width.toNat → s.sourceAnswers = .eos :: rest →
      step s = .next { s with turns := ts, sourceAnswers := rest, dec := { s.dec with
        status := 5, errphase := 3, expected := s.dec.width.setWidth 64, actual := s.dec.idx.setWidth 64,
        acc := s.decHash.init, phase := 8 } }) ∧
    (s.dec.idx.toNat = s.dec.width.toNat →
      step s = .next { s with turns := ts, dec := { s.dec with idx := 0, phase := 4 } })

/-- R200, R201 and R202: the decoder's `KEY` steps; the byte received is the only byte of `RKBUF` that changes. -/
def Obligations.DecoderKeySteps : Prop :=
  ∀ (s : State) (ts : List Agent) (b : Byte) (rest : List SourceAnswer), Inv s → s.turns = .dec :: ts →
    s.dec.phase = Phase.key.code →
    (s.dec.idx.toNat < s.dec.klen.toNat → s.sourceAnswers = .byte b :: rest → ∃ m : Memory,
      memRead m s.dec.idx.toNat = b ∧ (∀ a, a ≠ s.dec.idx.toNat → memRead m a = memRead s.rkbuf a) ∧
      step s = .next { s with turns := ts, sourceAnswers := rest, rkbuf := m, dec := { s.dec with
        acc := bif s.decHashEn && s.dec.ck then s.decHash.update s.dec.acc b else s.dec.acc
        idx := s.dec.idx + 1 } }) ∧
    (s.dec.idx.toNat < s.dec.klen.toNat → s.sourceAnswers = .eos :: rest →
      step s = .next { s with turns := ts, sourceAnswers := rest, dec := { s.dec with
        status := 5, errphase := 4, expected := s.dec.klen.setWidth 64, actual := s.dec.idx.setWidth 64,
        acc := s.decHash.init, phase := 8 } }) ∧
    (s.dec.idx.toNat = s.dec.klen.toNat →
      step s = .next { s with turns := ts, dec := { s.dec with idx := 0, phase := 5 } })

/-- R203, R204 and R205: the decoder's `VALUE` steps; the byte received is the only byte of `RVBUF` that changes, and at the end the
frame's own flag alone decides whether a trailer is read. -/
def Obligations.DecoderValueSteps : Prop :=
  ∀ (s : State) (ts : List Agent) (b : Byte) (rest : List SourceAnswer), Inv s → s.turns = .dec :: ts →
    s.dec.phase = Phase.value.code →
    (s.dec.idx.toNat < s.dec.vlen.toNat → s.sourceAnswers = .byte b :: rest → ∃ m : Memory,
      memRead m s.dec.idx.toNat = b ∧ (∀ a, a ≠ s.dec.idx.toNat → memRead m a = memRead s.rvbuf a) ∧
      step s = .next { s with turns := ts, sourceAnswers := rest, rvbuf := m, dec := { s.dec with
        acc := bif s.decHashEn && s.dec.ck then s.decHash.update s.dec.acc b else s.dec.acc
        idx := s.dec.idx + 1 } }) ∧
    (s.dec.idx.toNat < s.dec.vlen.toNat → s.sourceAnswers = .eos :: rest →
      step s = .next { s with turns := ts, sourceAnswers := rest, dec := { s.dec with
        status := 5, errphase := 5, expected := s.dec.vlen.setWidth 64, actual := s.dec.idx.setWidth 64,
        acc := s.decHash.init, phase := 8 } }) ∧
    (s.dec.idx.toNat = s.dec.vlen.toNat → s.dec.ck = false → step s = .next (decComplete { s with turns := ts })) ∧
    (s.dec.idx.toNat = s.dec.vlen.toNat → s.dec.ck = true →
      step s = .next { s with turns := ts, dec := { s.dec with digrx := 0, idx := 0, phase := 6 } })

/-- R206, R207 and R208: the decoder's `CHECKSUM` byte steps, verifying and not. -/
def Obligations.DecoderTrailerSteps : Prop :=
  ∀ (s : State) (ts : List Agent) (b : Byte) (rest : List SourceAnswer), phasesReachable s = true → s.turns = .dec :: ts →
    s.dec.phase = Phase.checksum.code → s.dec.idx.toNat < 4 →
    (s.decHashEn = true → s.sourceAnswers = .byte b :: rest →
      step s = .next { s with turns := ts, sourceAnswers := rest, dec := { s.dec with
        digrx := BitVec.ofNat 32 (s.dec.digrx.toNat * 256 + b.toNat), idx := s.dec.idx + 1 } }) ∧
    (s.decHashEn = false → s.sourceAnswers = .byte b :: rest →
      step s = .next { s with turns := ts, sourceAnswers := rest, dec := { s.dec with idx := s.dec.idx + 1 } }) ∧
    (s.sourceAnswers = .eos :: rest →
      step s = .next { s with turns := ts, sourceAnswers := rest, dec := { s.dec with
        status := 5, errphase := 6, expected := 4, actual := s.dec.idx.setWidth 64, acc := s.decHash.init, phase := 8 } })

/-- R209, R210, R211 and R213: the decoder's `CHECKSUM` advance; the digest it compares with the trailer is that of the key and the
value received. -/
def Obligations.DecoderChecksumAdvance : Prop :=
  ∀ (s : State) (ts : List Agent), Inv s → s.turns = .dec :: ts → s.dec.phase = Phase.checksum.code → s.dec.idx = 4 →
    ((s.decHashEn = false ∨
        s.decHash.dig (memBytes s.rkbuf s.dec.klen.toNat ++ memBytes s.rvbuf s.dec.vlen.toNat) = s.dec.digrx) →
      step s = .next { s with turns := ts, dec := { s.dec with
        acc := s.decHash.init
        rklen := s.dec.klen
        rvlen := s.dec.vlen
        rtag := bif s.dec.op then s.dec.tag else 0
        status := 0
        errphase := 0
        expected := 0
        actual := 0
        phase := 7 } }) ∧
    (s.decHashEn = true →
      s.decHash.dig (memBytes s.rkbuf s.dec.klen.toNat ++ memBytes s.rvbuf s.dec.vlen.toNat) ≠ s.dec.digrx →
      step s = .next { s with turns := ts, dec := { s.dec with
        status := 6, errphase := 6, expected := 0, actual := 0, acc := s.decHash.init, phase := 8 } })

/-! ### Failing, waiting and resting -/

/-- R178, R212, R262 and R263: in every working phase an `Err` answer ends the command; the status and its context are recorded, the
accumulator is set back, and nothing else of the state changes. -/
def Obligations.StreamFailureEndsTheCommand : Prop :=
  (∀ (s : State) (ts : List Agent) (rest : List SinkAnswer) (p : Phase), Inv s → s.turns = .enc :: ts →
    s.enc.phase = p.code → p.transfers = true → s.enc.idx.toNat < encFieldLength s.enc p → s.sinkAnswers = .err :: rest →
    step s = .next { s with
      turns := ts
      sinkAnswers := rest
      enc := { s.enc with
        status := 7
        errphase := p.code
        expected := BitVec.ofNat 64 (encFieldLength s.enc p)
        actual := BitVec.ofNat 64 s.enc.idx.toNat
        acc := s.encHash.init
        phase := 8 } }) ∧
  ∀ (s : State) (ts : List Agent) (rest : List SourceAnswer) (p : Phase), phasesReachable s = true → s.turns = .dec :: ts →
    s.dec.phase = p.code → p.transfers = true → s.dec.idx.toNat < decFieldLength s.dec p → s.sourceAnswers = .err :: rest →
    step s = .next { s with
      turns := ts
      sourceAnswers := rest
      dec := { s.dec with
        status := 7
        errphase := p.code
        expected := BitVec.ofNat 64 (decFieldLength s.dec p)
        actual := BitVec.ofNat 64 s.dec.idx.toNat
        acc := s.decHash.init
        phase := 8 } }

/-- R68, R180 and R215: while a transaction is not answered the unit waits where it is; in `IDLE` and in the terminal phases a unit
has no step of its own and transfers nothing. -/
def Obligations.UnitsWaitAndRest : Prop :=
  (∀ (s : State) (ts : List Agent) (p : Phase), Inv s → p.transfers = true →
    (s.turns = .enc :: ts → s.enc.phase = p.code → s.enc.idx.toNat < encFieldLength s.enc p → s.sinkAnswers = [] →
      step s = .next { s with turns := ts }) ∧
    (s.turns = .dec :: ts → s.dec.phase = p.code → s.dec.idx.toNat < decFieldLength s.dec p → s.sourceAnswers = [] →
      step s = .next { s with turns := ts })) ∧
  ∀ (s : State) (ts : List Agent), phasesReachable s = true →
    (s.turns = .enc :: ts →
      s.enc.phase = Phase.idle.code ∨ s.enc.phase = Phase.done.code ∨ s.enc.phase = Phase.error.code →
      step s = .next { s with turns := ts }) ∧
    (s.turns = .dec :: ts →
      s.dec.phase = Phase.idle.code ∨ s.dec.phase = Phase.done.code ∨ s.dec.phase = Phase.error.code ∨
        s.dec.phase = Phase.eos.code →
      step s = .next { s with turns := ts })

/-- R40 (a), R185 and R223: a state in which a unit's phase holds a code it never holds has no step of any agent and is refused
(R274, U14), by the name of that unit, or of one of the two where both phases do; `phasesReachable` says that there is none, and
every state that keeps the invariant has it. That hardware reset and a state without turns are refused too is log entry 22. -/
def Obligations.UnreachablePhasesAreRefused : Prop :=
  ∀ s : State,
    (9 ≤ s.enc.phase.toNat → ¬(s.dec.phase = 1 ∨ 10 ≤ s.dec.phase.toNat) → step s = .refused .encPhaseUnreachable) ∧
    (s.enc.phase.toNat ≤ 8 → s.dec.phase = 1 ∨ 10 ≤ s.dec.phase.toNat → step s = .refused .decPhaseUnreachable) ∧
    (9 ≤ s.enc.phase.toNat → s.dec.phase = 1 ∨ 10 ≤ s.dec.phase.toNat →
      step s = .refused .encPhaseUnreachable ∨ step s = .refused .decPhaseUnreachable) ∧
    (phasesReachable s = true ↔ s.enc.phase.toNat ≤ 8 ∧ s.dec.phase ≠ 1 ∧ s.dec.phase.toNat ≤ 9) ∧
    (Inv s → phasesReachable s = true)

/-! ### Reset -/

/-- Hardware reset, in every state with reachable phases (from any other no step is defined, R40 (a), log entry 22), sets every
register of both units to the values of R41 and leaves the straps and hash functions (R291), the streams (R292) and the operand
buffers (R41) untouched. That the rest of the state stays too is the model's choice: the waiting requests go on waiting (log entry 20),
the port outputs and the count of free values stay (log entries 8 and 6), and the turns and answers to come are taken as before (log
entries 1 and 20). Of `RKBUF` and `RVBUF` R41 says that their contents are unspecified, so the statement says nothing of them (log
entry 9). -/
def Obligations.HardwareResetStep : Prop :=
  ∀ (s : State) (ts : List Agent), phasesReachable s = true → s.turns = .reset :: ts → ∃ rk rv : Memory,
    step s = .next { s with
      turns := ts
      rkbuf := rk
      rvbuf := rv
      enc := {
        op := false, tag := 0, klen64 := 0, vlen64 := 0, klen := 0, vlen := 0, width := 0, hdr := 0, dig := 0, phase := 0,
        idx := 0, status := 0, errphase := 0, expected := 0, actual := 0, acc := s.encHash.init }
      dec := {
        op := false, hdr := 0, width := 0, ck := false, tag := 0, klen := 0, vlen := 0, digrx := 0, rklen := 0, rvlen := 0,
        rtag := 0, phase := 0, idx := 0, status := 0, errphase := 0, expected := 0, actual := 0, acc := s.decHash.init } }

/-- The state the model starts from is, for every choice of straps and hash functions, one that a hardware reset leaves as it is
(R41, R290; the straps of `State.reset` are log entry 3's choice, and this statement is about all of them). -/
def Obligations.ResetStateIsAfterReset : Prop :=
  (∀ (encEn decEn : Bool) (encH decH : HashFn), hwReset (State.resetOf encEn decEn encH decH) = State.resetOf encEn decEn encH decH ∧
    Inv (State.resetOf encEn decEn encH decH)) ∧
  ∃ (encEn decEn : Bool) (encH decH : HashFn), State.reset = State.resetOf encEn decEn encH decH

/-! ### Invariants and frames over all steps -/

/-- R40: every step from a state that keeps the invariant leads to one that keeps it: legal phases, `IDX` within the field, the
latched registers agreeing with the command and the header, the accumulator holding exactly the bytes hashed so far, the status
context of R259, the results of R32, and the canonical form of every buffer. The requests that arrive are part of the state. -/
def Obligations.StepKeepsInvariant : Prop :=
  ∀ s t : State, Inv s → step s = .next t → Inv t

/-- From a state that keeps the invariant every step has a next state, but for a requester's word that is no request. In particular
the faults and the unreachable-state refusals of the model never happen. -/
def Obligations.InvariantStatesStepSafely : Prop :=
  ∀ s : State, Inv s → StepSafe s

/-- R64: the sink log only grows, by at most one byte a step, and only in the encoder's turn; R291: no step changes a strap or a hash
function. -/
def Obligations.SinkGrowsAndStrapsStay : Prop :=
  ∀ s t : State, step s = .next t →
    (t.sink = s.sink ∨ (∃ b, t.sink = s.sink ++ [b]) ∧ s.turns.head? = some .enc) ∧
    t.encHashEn = s.encHashEn ∧ t.decHashEn = s.decHashEn ∧ t.encHash = s.encHash ∧ t.decHash = s.decHash

/-- R43: what each agent writes. A unit's turn writes its own registers, its stream and (the decoder) the result buffers; its
command registers only ISSUE writes (R22, R30). A requester's turn touches no stream and no result buffer. -/
def Obligations.AgentsWriteOnlyTheirOwn : Prop :=
  ∀ (s t : State) (ts : List Agent), step s = .next t →
    (s.turns = .enc :: ts →
      t = { s with turns := ts, enc := t.enc, sink := t.sink, sinkAnswers := t.sinkAnswers } ∧
      t.enc.op = s.enc.op ∧ t.enc.tag = s.enc.tag ∧ t.enc.klen64 = s.enc.klen64 ∧ t.enc.vlen64 = s.enc.vlen64) ∧
    (s.turns = .dec :: ts →
      t = { s with turns := ts, dec := t.dec, rkbuf := t.rkbuf, rvbuf := t.rvbuf, sourceAnswers := t.sourceAnswers } ∧
      t.dec.op = s.dec.op) ∧
    (∀ n, s.turns = .requester n :: ts →
      t = { s with
        turns := ts
        enc := { t.enc with
          klen := s.enc.klen, vlen := s.enc.vlen, width := s.enc.width, hdr := s.enc.hdr, dig := s.enc.dig, acc := s.enc.acc }
        dec := { t.dec with acc := s.dec.acc }
        kbuf := t.kbuf
        vbuf := t.vbuf
        requests := t.requests
        ports := t.ports
        freeCount := t.freeCount })

/-- R43 and R266, by two runs: the outcome of a unit's turn depends on nothing that belongs to the other unit, to the requesters or
to the host's view of the ports; both states have reachable phases, since no agent has a step from any other (R40 (a)). -/
def Obligations.UnitsSeeOnlyTheirOwn : Prop :=
  ∀ (s s' t : State) (ts ts' : List Agent), phasesReachable s' = true → step s = .next t →
    (s.turns = .enc :: ts → s'.turns = .enc :: ts' → s'.enc = s.enc → s'.encHashEn = s.encHashEn → s'.encHash = s.encHash →
      s'.kbuf = s.kbuf → s'.vbuf = s.vbuf → s'.sink = s.sink → s'.sinkAnswers = s.sinkAnswers →
      step s' = .next { s' with turns := ts', enc := t.enc, sink := t.sink, sinkAnswers := t.sinkAnswers }) ∧
    (s.turns = .dec :: ts → s'.turns = .dec :: ts' → s'.dec = s.dec → s'.decHashEn = s.decHashEn → s'.decHash = s.decHash →
      s'.rkbuf = s.rkbuf → s'.rvbuf = s.rvbuf → s'.sourceAnswers = s.sourceAnswers →
      step s' = .next { s' with
        turns := ts', dec := t.dec, rkbuf := t.rkbuf, rvbuf := t.rvbuf, sourceAnswers := t.sourceAnswers })

/-- R81: any interleaving of the units' steps is allowed and makes no difference: an encoder turn and a decoder turn commute. -/
def Obligations.UnitTurnsCommute : Prop :=
  ∀ (s u : State) (ts : List Agent),
    runSteps 2 { s with turns := .enc :: .dec :: ts } = .next u ↔ runSteps 2 { s with turns := .dec :: .enc :: ts } = .next u

/-! ### Control transfers -/

/-- R184, with R290's reset: the complete list of ways in which `ENC.PHASE` changes. -/
def Obligations.EncoderControlTransfers : Prop :=
  ∀ s t : State, step s = .next t → t.enc.phase ≠ s.enc.phase →
    (s.turns.head? = some .reset ∧ t.enc.phase = 0) ∨
    ((∃ n, s.turns.head? = some (.requester n)) ∧
      ((s.enc.phase = 0 ∧ t.enc.phase = 1) ∨ ((s.enc.phase = 7 ∨ s.enc.phase = 8) ∧ t.enc.phase = 0))) ∨
    (s.turns.head? = some .enc ∧
      ((s.enc.phase = 1 ∧ (511 < s.enc.klen64.toNat ∨ 4294967296 ≤ s.enc.vlen64.toNat) ∧ t.enc.phase = 8) ∨
       (s.enc.phase = 1 ∧ s.enc.klen64.toNat ≤ 511 ∧ s.enc.vlen64.toNat < 4294967296 ∧ t.enc.phase = 2) ∨
       (s.enc.phase = 2 ∧ s.enc.idx.toNat = 2 ∧ t.enc.phase = 3) ∨
       (s.enc.phase = 3 ∧ s.enc.idx.toNat = s.enc.width.toNat ∧ t.enc.phase = 4) ∨
       (s.enc.phase = 4 ∧ s.enc.idx.toNat = s.enc.klen.toNat ∧ t.enc.phase = 5) ∨
       (s.enc.phase = 5 ∧ s.enc.idx.toNat = s.enc.vlen.toNat ∧ s.encHashEn = true ∧ t.enc.phase = 6) ∨
       (s.enc.phase = 5 ∧ s.enc.idx.toNat = s.enc.vlen.toNat ∧ s.encHashEn = false ∧ t.enc.phase = 7) ∨
       (s.enc.phase = 6 ∧ s.enc.idx.toNat = 4 ∧ t.enc.phase = 7) ∨
       (2 ≤ s.enc.phase.toNat ∧ s.enc.phase.toNat ≤ 6 ∧ s.sinkAnswers.head? = some .err ∧ t.enc.phase = 8)))

/-- R220, with R290's reset: the complete list of ways in which `DEC.PHASE` changes; phase `EOS` is reached only by an `Eos` answer
to the first pull of a command. -/
def Obligations.DecoderControlTransfers : Prop :=
  ∀ s t : State, step s = .next t → t.dec.phase ≠ s.dec.phase →
    (s.turns.head? = some .reset ∧ t.dec.phase = 0) ∨
    ((∃ n, s.turns.head? = some (.requester n)) ∧
      ((s.dec.phase = 0 ∧ t.dec.phase = 2) ∨
       ((s.dec.phase = 7 ∨ s.dec.phase = 8 ∨ s.dec.phase = 9) ∧ t.dec.phase = 0))) ∨
    (s.turns.head? = some .dec ∧
      ((s.dec.phase = 2 ∧ s.dec.idx = 0 ∧ s.sourceAnswers.head? = some .eos ∧ t.dec.phase = 9) ∨
       (s.dec.phase = 2 ∧ s.dec.idx = 2 ∧ t.dec.phase = 3) ∨
       (s.dec.phase = 3 ∧ s.dec.idx.toNat = s.dec.width.toNat ∧ t.dec.phase = 4) ∨
       (s.dec.phase = 4 ∧ s.dec.idx.toNat = s.dec.klen.toNat ∧ t.dec.phase = 5) ∨
       (s.dec.phase = 5 ∧ s.dec.idx.toNat = s.dec.vlen.toNat ∧ s.dec.ck = false ∧ t.dec.phase = 7) ∨
       (s.dec.phase = 5 ∧ s.dec.idx.toNat = s.dec.vlen.toNat ∧ s.dec.ck = true ∧ t.dec.phase = 6) ∨
       (s.dec.phase = 6 ∧ s.dec.idx = 4 ∧ (s.decHashEn = false ∨ s.decHash.final s.dec.acc = s.dec.digrx) ∧
         t.dec.phase = 7) ∨
       (s.dec.phase = 6 ∧ s.dec.idx = 4 ∧ s.decHashEn = true ∧ s.decHash.final s.dec.acc ≠ s.dec.digrx ∧
         t.dec.phase = 8 ∧ t.dec.status = 6) ∨
       (2 ≤ s.dec.phase.toNat ∧ s.dec.phase.toNat ≤ 6 ∧ ¬(s.dec.phase = 2 ∧ s.dec.idx = 0) ∧
         s.sourceAnswers.head? = some .eos ∧ t.dec.phase = 8 ∧ t.dec.status = 5) ∨
       (2 ≤ s.dec.phase.toNat ∧ s.dec.phase.toNat ≤ 6 ∧ s.sourceAnswers.head? = some .err ∧
         t.dec.phase = 8 ∧ t.dec.status = 7)))

/-! ### Whole commands -/

/-- R100: the parts of a frame, their offsets, and the least and the greatest length. -/
def Obligations.FrameLayout : Prop :=
  ∀ (hashEn : Bool) (h : HashFn) (tag : BitVec 4) (w : Width) (key value : List Byte),
    (frameOf hashEn h tag w key value).length = 2 + w.toNat + key.length + value.length + 4 * hashEn.toNat ∧
    (frameOf hashEn h tag w key value).take 2 = headerBytes (pack w hashEn tag (BitVec.ofNat 9 key.length)) ∧
    ((frameOf hashEn h tag w key value).drop 2).take w.toNat = lenEmit w (BitVec.ofNat 32 value.length) ∧
    ((frameOf hashEn h tag w key value).drop (2 + w.toNat)).take key.length = key ∧
    ((frameOf hashEn h tag w key value).drop (2 + w.toNat + key.length)).take value.length = value ∧
    (frameOf hashEn h tag w key value).drop (2 + w.toNat + key.length + value.length) =
      (bif hashEn then digestBytes (h.dig (key ++ value)) else []) ∧
    (key.length ≤ 511 → value.length ≤ 4294967295 →
      3 ≤ (frameOf hashEn h tag w key value).length ∧ (frameOf hashEn h tag w key value).length ≤ 4294967816)

/-- R162 and R164 to R166 together: a command whose lengths are rejected ends after one encoder step with the failure that the
command's description names, and nothing has been pushed. -/
def Obligations.RejectedEncodeWritesNothing : Prop :=
  ∀ (s : State) (op : Bool) (tag : BitVec 4) (klen vlen : BitVec 64) (f : Failure) (ts : List Agent),
    phasesReachable s = true → s.enc.phase = Phase.idle.code → validation klen vlen = .error f →
    ∃ u t, exec (bif op then .encodeTagged tag klen vlen else .encode tag klen vlen) s = .next u ∧
      step (withTurns 1 .enc ts u) = .next t ∧ encFailedWith f t ∧ inputTooLarge t.enc.status = true ∧
      t = { s with turns := ts, enc := t.enc }

/-- R182: an accepted command, given enough turns, pushes its frame against the sink's answers as the command's description says:
it ends in `DONE` with the whole frame in `SINK`, or in `ERROR` with the bytes accepted before the refused one and the context of
that byte, or it waits for an answer with the bytes accepted so far in `SINK`. -/
def Obligations.EncodeCommandPushesItsFrame : Prop :=
  ∀ (s : State) (op : Bool) (tag : BitVec 4) (klen vlen : BitVec 64) (w : Width) (ts : List Agent) (n : Nat),
    Inv s → s.enc.phase = Phase.idle.code → validation klen vlen = .ok w →
    frameLength s.encHashEn w klen.toNat vlen.toNat + 6 ≤ n →
    ∃ u t, exec (bif op then .encodeTagged tag klen vlen else .encode tag klen vlen) s = .next u ∧
      runSteps n (withTurns n .enc ts u) = .next t ∧
      t = { s with turns := ts, enc := t.enc, sink := t.sink, sinkAnswers := t.sinkAnswers } ∧
      match pushFrame s.encHashEn s.encHash (bif op then tag else 0) w (memBytes s.kbuf klen.toNat)
          (memBytes s.vbuf vlen.toNat) s.sinkAnswers with
      | .all pushed rest => encSucceeded t ∧ t.sink = s.sink ++ pushed ∧ t.sinkAnswers = rest
      | .failed pushed f rest => encFailedWith f t ∧ t.sink = s.sink ++ pushed ∧ t.sinkAnswers = rest
      | .waiting pushed => encWaiting t ∧ t.sink = s.sink ++ pushed

/-- What the description of ENCODE_TAGGED makes of the sink's answers (R162, R182): all `Ok` writes the frame; a first `Err` at byte
`j` leaves the first `j` bytes and reports the phase that owns byte `j`, its length and the byte's index in it. -/
def Obligations.PushFrameOutcomes : Prop :=
  ∀ (hashEn : Bool) (h : HashFn) (tag : BitVec 4) (w : Width) (key value : List Byte) (rest : List SinkAnswer),
    pushFrame hashEn h tag w key value
        (List.replicate (frameLength hashEn w key.length value.length) .ok ++ rest) =
      .all (frameOf hashEn h tag w key value) rest ∧
    ∀ j, j < frameLength hashEn w key.length value.length → ∃ f,
      pushFrame hashEn h tag w key value (List.replicate j .ok ++ .err :: rest) =
        .failed ((frameOf hashEn h tag w key value).take j) f rest ∧
      f.status = .ioFailure ∧
      (j < 2 → f = ⟨.ioFailure, .header, 2, BitVec.ofNat 64 j⟩) ∧
      (2 ≤ j → j < 2 + w.toNat → f = ⟨.ioFailure, .length, BitVec.ofNat 64 w.toNat, BitVec.ofNat 64 (j - 2)⟩) ∧
      (2 + w.toNat ≤ j → j < 2 + w.toNat + key.length →
        f = ⟨.ioFailure, .key, BitVec.ofNat 64 key.length, BitVec.ofNat 64 (j - (2 + w.toNat))⟩) ∧
      (2 + w.toNat + key.length ≤ j → j < 2 + w.toNat + key.length + value.length →
        f = ⟨.ioFailure, .value, BitVec.ofNat 64 value.length, BitVec.ofNat 64 (j - (2 + w.toNat + key.length))⟩) ∧
      (2 + w.toNat + key.length + value.length ≤ j →
        f = ⟨.ioFailure, .checksum, 4, BitVec.ofNat 64 (j - (2 + w.toNat + key.length + value.length))⟩)

/-- R183: when every push is accepted, the command is done after exactly `1 + |frame| + 4 + c` encoder steps, and not before. -/
def Obligations.EncodeStepCount : Prop :=
  ∀ (s : State) (op : Bool) (tag : BitVec 4) (klen vlen : BitVec 64) (w : Width) (rest : List SinkAnswer) (n : Nat),
    Inv s → s.enc.phase = Phase.idle.code → validation klen vlen = .ok w →
    s.sinkAnswers = List.replicate (frameLength s.encHashEn w klen.toNat vlen.toNat) .ok ++ rest →
    ∃ u t, exec (bif op then .encodeTagged tag klen vlen else .encode tag klen vlen) s = .next u ∧
      runSteps n (withTurns n .enc [] u) = .next t ∧
      (encTerminal t.enc.phase = true ↔ 1 + frameLength s.encHashEn w klen.toNat vlen.toNat + 4 + s.encHashEn.toNat ≤ n)

/-- R217: a decode command, given enough turns, reaches the terminal phase, status, context and results that the description of
`decode_tagged` gives on the source's answers, with the tag dropped by DECODE, and takes exactly the same transactions; or it waits
for an answer. -/
def Obligations.DecodeCommandAgreesWithItsDescription : Prop :=
  ∀ (s : State) (op : Bool) (ts : List Agent) (n : Nat),
    Inv s → s.dec.phase = Phase.idle.code → s.sourceAnswers.length + 5 ≤ n →
    ∃ u t, exec (bif op then .decodeTagged else .decode) s = .next u ∧
      runSteps n (withTurns n .dec ts u) = .next t ∧
      t = { s with turns := ts, dec := t.dec, rkbuf := t.rkbuf, rvbuf := t.rvbuf, sourceAnswers := t.sourceAnswers } ∧
      match decodeTaggedWhole s.decHashEn s.decHash s.sourceAnswers with
      | .ok key value tag rest => decSucceeded key value (bif op then tag else 0) t ∧ t.sourceAnswers = rest
      | .failed f rest => decFailedWith f t ∧ t.sourceAnswers = rest
      | .waiting => decWaiting t

/-- R69 and R216: a decode that succeeds has consumed exactly one frame's bytes, as its own header and results say; one that ends
with `EndOfStream` has consumed none. -/
def Obligations.DecodeConsumesOneFrame : Prop :=
  ∀ (hashEn : Bool) (h : HashFn) (answers : List SourceAnswer),
    match decodeTaggedWhole hashEn h answers with
    | .ok key value tag rest => ∃ (hdr : BitVec 16) (bytes : List Byte),
        answers = (headerBytes hdr ++ bytes).map .byte ++ rest ∧
        bytes.length = (unpack hdr).width.toNat + key.length + value.length + 4 * (unpack hdr).ck.toNat ∧
        key.length = (unpack hdr).klen.toNat ∧ tag = (unpack hdr).tag
    | .failed f rest => f.status = .endOfStream → answers = .eos :: rest
    | .waiting => True

/-- R161: ENCODE is ENCODE_TAGGED with tag 0, whatever its own tag bits hold; after ISSUE the two take the same steps and differ only
in `ENC.OP`, which no step reads. -/
def Obligations.EncodeIsTaggedWithZero : Prop :=
  ∀ (s t : State) (tag : BitVec 4) (klen vlen : BitVec 64) (ts : List Agent) (n : Nat), s.enc.phase = Phase.idle.code →
    (∃ u, exec (.encodeTagged 0 klen vlen) s = .next u ∧ runSteps n (withTurns n .enc ts u) = .next t) →
    ∃ u, exec (.encode tag klen vlen) s = .next u ∧
      runSteps n (withTurns n .enc ts u) = .next { t with enc := { t.enc with op := false } }

/-- R192: DECODE and DECODE_TAGGED take the same steps on the same source; they differ in `DEC.OP` and in the tag returned, which
is 0 for DECODE. -/
def Obligations.DecodeDropsOnlyTheTag : Prop :=
  ∀ (s t : State) (ts : List Agent) (n : Nat), s.dec.phase = Phase.idle.code →
    (∃ u, exec .decodeTagged s = .next u ∧ runSteps n (withTurns n .dec ts u) = .next t) →
    ∃ u, exec .decode s = .next u ∧
      runSteps n (withTurns n .dec ts u) = .next { t with dec := { t.dec with op := false, rtag := 0 } }

/-- R241 and R242: decoding the frame of a record gives the record back and leaves the rest of the source alone, unless the frame
carries a digest, the reader verifies, and the reader's hash disagrees on the record's bytes. -/
def Obligations.DecodeOfAFrame : Prop :=
  ∀ (encEn decEn : Bool) (encH decH : HashFn) (tag : BitVec 4) (w : Width) (key value : List Byte)
    (more : List SourceAnswer), key.length ≤ 511 → widthOf (BitVec.ofNat 64 value.length) = some w → value.length < 2 ^ 64 →
    decodeTaggedWhole decEn decH ((frameOf encEn encH tag w key value).map .byte ++ more) =
      if encEn = true ∧ decEn = true ∧ decH.dig (key ++ value) ≠ encH.dig (key ++ value) then
        .failed ⟨.checksumMismatch, .checksum, 0, 0⟩ more
      else .ok key value tag more

/-- The headline (R315: "Round-trip in the other direction, encode then decode, is exact"; R241, R242): a machine that encodes a
record with every push accepted, and is then given the bytes its sink has gained as its source, decodes that record: same key, same
value, same tag. A verifying decoder whose hash disagrees on the record reports `ChecksumMismatch` instead. -/
def Obligations.RecordSurvivesEncodeThenDecode : Prop :=
  ∀ (s : State) (tag : BitVec 4) (klen vlen : BitVec 64) (key value : List Byte) (more : List SourceAnswer) (n m : Nat),
    Inv s → s.enc.phase = Phase.idle.code → s.dec.phase = Phase.idle.code →
    key = memBytes s.kbuf klen.toNat → value = memBytes s.vbuf vlen.toNat →
    klen.toNat ≤ 511 → vlen.toNat < 4294967296 →
    (∀ a ∈ s.sinkAnswers, a = SinkAnswer.ok) → klen.toNat + vlen.toNat + 10 ≤ s.sinkAnswers.length →
    klen.toNat + vlen.toNat + 16 ≤ n → klen.toNat + vlen.toNat + more.length + 15 ≤ m →
    ∃ u t v x, exec (.encodeTagged tag klen vlen) s = .next u ∧ runSteps n (withTurns n .enc [] u) = .next t ∧
      encSucceeded t ∧
      exec .decodeTagged { t with sourceAnswers := (t.sink.drop s.sink.length).map .byte ++ more } = .next v ∧
      runSteps m (withTurns m .dec [] v) = .next x ∧ x.sourceAnswers = more ∧
      if s.encHashEn = true ∧ s.decHashEn = true ∧ s.decHash.dig (key ++ value) ≠ s.encHash.dig (key ++ value) then
        decFailedWith ⟨.checksumMismatch, .checksum, 0, 0⟩ x
      else decSucceeded key value tag x

/-! ### What the host reads -/

/-- R37, R29 and R35: the host-visible registers as numbers. -/
def Obligations.HostReadsRegisters : Prop :=
  ∀ s : State,
    (readRegister .encCfg s).toNat = s.encHashEn.toNat ∧ (readRegister .decCfg s).toNat = s.decHashEn.toNat ∧
    (readRegister .encPhase s).toNat = s.enc.phase.toNat ∧ (readRegister .decPhase s).toNat = s.dec.phase.toNat ∧
    (readRegister .encStatus s).toNat = s.enc.errphase.toNat * 16 + s.enc.status.toNat ∧
    (readRegister .decStatus s).toNat = s.dec.errphase.toNat * 16 + s.dec.status.toNat ∧
    readRegister .encExpected s = s.enc.expected ∧ readRegister .encActual s = s.enc.actual ∧
    readRegister .decExpected s = s.dec.expected ∧ readRegister .decActual s = s.dec.actual ∧
    (readRegister .decRklen s).toNat = s.dec.rklen.toNat ∧ (readRegister .decRvlen s).toNat = s.dec.rvlen.toNat ∧
    (readRegister .decRtag s).toNat = s.dec.rtag.toNat

/-- The result buffers as the host reads them (R32, R301, R274): below the valid length in `DONE`, and refused everywhere else; what
may be read is the byte of the result. -/
def Obligations.HostReadsOnlyValidResults : Prop :=
  ∀ (s : State) (i : Nat),
    (s.dec.phase = Phase.done.code → i < s.dec.rklen.toNat →
      ∃ b, readResultKey i s = .ok b ∧ (resultKey s)[i]? = some b) ∧
    (s.dec.phase = Phase.done.code → i < s.dec.rvlen.toNat →
      ∃ b, readResultValue i s = .ok b ∧ (resultValue s)[i]? = some b) ∧
    (¬(s.dec.phase = Phase.done.code ∧ i < s.dec.rklen.toNat) → readResultKey i s = .error .resultNotValid) ∧
    (¬(s.dec.phase = Phase.done.code ∧ i < s.dec.rvlen.toNat) → readResultValue i s = .error .resultNotValid)
end

