-- ==== Sys2Proof/Laws/Codes.lean ====
section
/-! SUPPORT. Phase codes, status codes and widths: each code stands for one name. -/

namespace Sys2Proof

@[simp] theorem Width.ofBits_bits (w : Width) : Width.ofBits w.bits = some w := by
  cases w <;> rfl

@[simp] theorem Width.bits_toNat (w : Width) : w.bits.toNat = w.toNat := by
  cases w <;> rfl

theorem Width.toNat_pos (w : Width) : 1 ≤ w.toNat := by
  cases w <;> decide

theorem Width.toNat_le_four (w : Width) : w.toNat ≤ 4 := by
  cases w <;> decide

/-! ### Hashing -/

@[simp] theorem HashFn.fold_nil (h : HashFn) : h.fold [] = h.init := rfl

@[simp] theorem HashFn.fold_append_singleton (h : HashFn) (s : List Byte) (b : Byte) :
    h.fold (s ++ [b]) = h.update (h.fold s) b := by
  simp [HashFn.fold]

theorem HashFn.final_fold (h : HashFn) (s : List Byte) : h.final (h.fold s) = h.dig s := rfl

/-- Reset's accumulator is `h_init` (R41). -/
@[simp] theorem HashFn.init_eq_zero (h : HashFn) : h.init = 0 := rfl

end Sys2Proof

namespace Sys2Proof.Machine

@[simp] theorem Phase.ofCode_code (p : Phase) : Phase.ofCode p.code = some p := by
  cases p <;> rfl

theorem Phase.code_injective {p q : Phase} (h : p.code = q.code) : p = q := by
  have hq := Phase.ofCode_code q
  rw [← h, Phase.ofCode_code] at hq
  exact Option.some.inj hq

@[simp] theorem Phase.code_eq_iff {p q : Phase} : p.code = q.code ↔ p = q :=
  ⟨Phase.code_injective, congrArg Phase.code⟩

/-- A code that stands for a phase is that phase's code. -/
theorem Phase.eq_code_of_ofCode {c : BitVec 4} {p : Phase} (h : Phase.ofCode c = some p) : c = p.code := by
  have all : ∀ (c : BitVec 4) (p : Phase), Phase.ofCode c = some p → c = p.code := by
    intro c p
    cases p <;> revert c <;> decide
  exact all c p h

/-- The codes 10 to 15 stand for no phase. -/
theorem Phase.ofCode_eq_none_iff {c : BitVec 4} : Phase.ofCode c = none ↔ 10 ≤ c.toNat := by
  revert c
  decide

theorem Status.code_injective {a b : Status} (h : a.code = b.code) : a = b := by
  revert h
  cases a <;> cases b <;> decide

@[simp] theorem Status.code_eq_iff {a b : Status} : a.code = b.code ↔ a = b :=
  ⟨Status.code_injective, congrArg Status.code⟩

/-- The 64-bit context value of a field length or index is its number. -/
theorem zext64_toNat {n : Nat} (h : n ≤ 64) (v : BitVec n) : (zext64 v).toNat = v.toNat := by
  simp only [zext64, BitVec.toNat_setWidth]
  exact Nat.mod_eq_of_lt (Nat.lt_of_lt_of_le v.isLt (Nat.pow_le_pow_right (by decide) h))

/-- No field is longer than 2^32 − 1 bytes (R25). -/
theorem encFieldLength_lt (e : EncState) (p : Phase) : encFieldLength e p < 4294967296 := by
  have hw := e.width.isLt
  have hk := e.klen.isLt
  have hv := e.vlen.isLt
  cases p <;> simp only [encFieldLength] <;> omega

theorem decFieldLength_lt (d : DecState) (p : Phase) : decFieldLength d p < 4294967296 := by
  have hw := d.width.isLt
  have hk := d.klen.isLt
  have hv := d.vlen.isLt
  cases p <;> simp only [decFieldLength] <;> omega

/-- A field length as a 64-bit context value. -/
theorem ofNat_encFieldLength (e : EncState) (p : Phase) :
    (BitVec.ofNat 64 (encFieldLength e p)).toNat = encFieldLength e p := by
  have h := encFieldLength_lt e p
  rw [BitVec.toNat_ofNat]
  exact Nat.mod_eq_of_lt (by omega)

theorem ofNat_decFieldLength (d : DecState) (p : Phase) :
    (BitVec.ofNat 64 (decFieldLength d p)).toNat = decFieldLength d p := by
  have h := decFieldLength_lt d p
  rw [BitVec.toNat_ofNat]
  exact Nat.mod_eq_of_lt (by omega)

/-- Counting one more byte does not wrap while a field is not complete (R25). -/
theorem idx_succ_toNat {idx : BitVec 32} {n : Nat} (h : idx.toNat < n) (hn : n < 4294967296) :
    (idx + 1).toNat = idx.toNat + 1 := by
  rw [BitVec.toNat_add]
  exact Nat.mod_eq_of_lt (by simp; omega)

end Sys2Proof.Machine
end

