-- ==== Sys2Proof/Laws/Memory.lean ====
section
/-! SUPPORT. The laws of the byte buffers: a write is read back, leaves every other byte alone and keeps the canonical form. -/

namespace Sys2Proof.Machine

@[simp] theorem memRead_nil (a : Nat) : memRead [] a = memBlank := rfl

theorem memRead_cons (k : Nat) (v : Byte) (rest : Memory) (a : Nat) :
    memRead ((k, v) :: rest) a = if k = a then v else memRead rest a := rfl

/-- An address that no cell holds reads as blank. -/
theorem memRead_of_not_listed {m : Memory} {a : Nat} (h : ∀ c ∈ m, c.1 ≠ a) : memRead m a = memBlank := by
  induction m with
  | nil => rfl
  | cons c rest ih =>
    obtain ⟨k, v⟩ := c
    have hk : k ≠ a := h (k, v) (by simp)
    rw [memRead_cons, if_neg hk]
    exact ih fun c hc => h c (by simp [hc])

theorem memRead_memCons_ne {a a' : Nat} (h : a ≠ a') (b : Byte) (rest : Memory) :
    memRead (memCons a b rest) a' = memRead rest a' := by
  unfold memCons
  split
  · rfl
  · rw [memRead_cons, if_neg h]

theorem memRead_memCons_same {a : Nat} (b : Byte) {rest : Memory} (h : ∀ c ∈ rest, c.1 ≠ a) :
    memRead (memCons a b rest) a = b := by
  unfold memCons
  split
  · next hb => rw [memRead_of_not_listed h, hb]
  · rw [memRead_cons, if_pos rfl]

/-- A write leaves every other byte alone, in any list of cells. -/
theorem memRead_memWrite_ne {a a' : Nat} (h : a ≠ a') (m : Memory) (b : Byte) :
    memRead (memWrite m a b) a' = memRead m a' := by
  induction m with
  | nil => exact memRead_memCons_ne h b []
  | cons c rest ih =>
    obtain ⟨k, v⟩ := c
    simp only [memWrite]
    split
    · exact memRead_memCons_ne h b _
    · split
      · next hak => rw [memRead_memCons_ne h, memRead_cons, if_neg (hak ▸ h)]
      · rw [memRead_cons, memRead_cons, ih]

/-- In canonical form a written byte is read back. -/
theorem memRead_memWrite_same {m : Memory} (hm : Memory.wf m) (a : Nat) (b : Byte) :
    memRead (memWrite m a b) a = b := by
  induction m with
  | nil => exact memRead_memCons_same b (by simp)
  | cons c rest ih =>
    obtain ⟨k, v⟩ := c
    obtain ⟨hp, hb⟩ := hm
    obtain ⟨hk, hp⟩ := List.pairwise_cons.mp hp
    simp only [memWrite]
    split
    · next hak =>
      refine memRead_memCons_same b fun c hc => ?_
      rcases List.mem_cons.mp hc with rfl | hc
      · exact Nat.ne_of_gt hak
      · exact Nat.ne_of_gt (Nat.lt_trans hak (hk c hc))
    · split
      · next hak => exact memRead_memCons_same b fun c hc => Nat.ne_of_gt (hak ▸ hk c hc)
      · next hak => rw [memRead_cons, if_neg fun h => hak h.symm, ih ⟨hp, fun c hc => hb c (by simp [hc])⟩]

theorem memCons_wf {a : Nat} {b : Byte} {rest : Memory} (hr : Memory.wf rest) (h : ∀ c ∈ rest, a < c.1) :
    Memory.wf (memCons a b rest) := by
  unfold memCons
  split
  · exact hr
  · next hb =>
    refine ⟨List.pairwise_cons.mpr ⟨h, hr.1⟩, fun c hc => ?_⟩
    rcases List.mem_cons.mp hc with rfl | hc
    · exact hb
    · exact hr.2 c hc

/-- The addresses a written buffer lists: those it listed, and the one written. -/
theorem memWrite_listed {m : Memory} {a : Nat} {b : Byte} {c : Host.Cell} (hc : c ∈ memWrite m a b) :
    c.1 = a ∨ c ∈ m := by
  have front : ∀ rest : Memory, c ∈ memCons a b rest → c.1 = a ∨ c ∈ rest := by
    intro rest h
    unfold memCons at h
    split at h
    · exact .inr h
    · rcases List.mem_cons.mp h with rfl | h
      · exact .inl rfl
      · exact .inr h
  induction m with
  | nil => exact front [] hc
  | cons d rest ih =>
    obtain ⟨k, v⟩ := d
    simp only [memWrite] at hc
    split at hc
    · exact front _ hc
    · split at hc
      · exact (front _ hc).imp id fun h => by simp [h]
      · rcases List.mem_cons.mp hc with rfl | hc
        · exact .inr (by simp)
        · exact (ih hc).imp id fun h => by simp [h]

/-- Every write keeps the canonical form. -/
theorem memWrite_wf {m : Memory} (hm : Memory.wf m) (a : Nat) (b : Byte) : Memory.wf (memWrite m a b) := by
  induction m with
  | nil => exact memCons_wf ⟨List.Pairwise.nil, by simp⟩ (by simp)
  | cons c rest ih =>
    obtain ⟨k, v⟩ := c
    obtain ⟨hp, hb⟩ := hm
    obtain ⟨hk, hp'⟩ := List.pairwise_cons.mp hp
    have hr : Memory.wf rest := ⟨hp', fun c hc => hb c (by simp [hc])⟩
    simp only [memWrite]
    split
    · next hak =>
      refine memCons_wf ⟨hp, hb⟩ fun c hc => ?_
      rcases List.mem_cons.mp hc with rfl | hc
      · exact hak
      · exact Nat.lt_trans hak (hk c hc)
    · split
      · next hak => exact memCons_wf hr fun c hc => hak ▸ hk c hc
      · next hlt hne =>
        have hw := ih hr
        refine ⟨List.pairwise_cons.mpr ⟨fun c hc => ?_, hw.1⟩, fun c hc => ?_⟩
        · rcases memWrite_listed hc with h | h
          · change k < c.1
            omega
          · exact hk c h
        · rcases List.mem_cons.mp hc with rfl | hc
          · exact hb (k, v) (by simp)
          · exact hw.2 c hc

/-- A buffer with nothing listed is in canonical form. -/
theorem nil_wf : Memory.wf ([] : Memory) := ⟨List.Pairwise.nil, by simp⟩

/-! ### Runs of bytes -/

@[simp] theorem memBytes_zero (m : Memory) : memBytes m 0 = [] := rfl

theorem memBytes_succ (m : Memory) (n : Nat) : memBytes m (n + 1) = memBytes m n ++ [memRead m n] := by
  simp [memBytes, List.range_succ]

@[simp] theorem memBytes_length (m : Memory) (n : Nat) : (memBytes m n).length = n := by
  simp [memBytes]

theorem memBytes_congr {m m' : Memory} {n : Nat} (h : ∀ i < n, memRead m i = memRead m' i) : memBytes m n = memBytes m' n := by
  simp only [memBytes]
  exact List.map_congr_left fun i hi => h i (List.mem_range.mp hi)

/-- A write at or above `n` does not show in the first `n` bytes. -/
theorem memBytes_memWrite_of_le (m : Memory) {n a : Nat} (h : n ≤ a) (b : Byte) :
    memBytes (memWrite m a b) n = memBytes m n :=
  memBytes_congr fun i hi => memRead_memWrite_ne (by omega) m b

/-- Writing the next byte appends it. -/
theorem memBytes_memWrite_next {m : Memory} (hm : Memory.wf m) (n : Nat) (b : Byte) :
    memBytes (memWrite m n b) (n + 1) = memBytes m n ++ [b] := by
  rw [memBytes_succ, memBytes_memWrite_of_le m (Nat.le_refl n), memRead_memWrite_same hm]

/-! ### Placing a byte sequence -/

theorem memOfBytes_foldl_wf (l : List (Byte × Nat)) {m : Memory} (hm : Memory.wf m) :
    Memory.wf (l.foldl (fun m c => memWrite m c.2 c.1) m) := by
  induction l generalizing m with
  | nil => exact hm
  | cons c rest ih => exact ih (memWrite_wf hm c.2 c.1)

theorem memOfBytes_wf (bytes : List Byte) : Memory.wf (memOfBytes bytes) :=
  memOfBytes_foldl_wf _ nil_wf

/-- Storing a byte sequence after the first `n` bytes appends it to them. -/
theorem memBytes_foldl (bytes : List Byte) (n : Nat) {m : Memory} (hm : Memory.wf m) :
    memBytes ((bytes.zipIdx n).foldl (fun m c => memWrite m c.2 c.1) m) (n + bytes.length) = memBytes m n ++ bytes := by
  induction bytes generalizing n m with
  | nil => simp
  | cons b rest ih =>
    have h := ih (n + 1) (memWrite_wf hm n b)
    rw [memBytes_memWrite_next hm] at h
    simpa [Nat.add_assoc, Nat.add_comm 1] using h

/-- A buffer made of a byte sequence holds it. -/
theorem memBytes_memOfBytes (bytes : List Byte) : memBytes (memOfBytes bytes) bytes.length = bytes := by
  simpa [memOfBytes] using memBytes_foldl bytes 0 nil_wf

end Sys2Proof.Machine
end

