-- ==== Sys2Proof/Laws/State.lean ====
section
/-! SUPPORT. What each update of the state does to each field, so that no proof unfolds a record update. -/

namespace Sys2Proof.Machine

/-! ### encRaise -/

@[simp] theorem encRaise_enc_op (st : Status) (ph : Phase) (e a : BitVec 64) (s : State) : (encRaise st ph e a s).enc.op = s.enc.op := rfl
@[simp] theorem encRaise_enc_tag (st : Status) (ph : Phase) (e a : BitVec 64) (s : State) : (encRaise st ph e a s).enc.tag = s.enc.tag := rfl
@[simp] theorem encRaise_enc_klen64 (st : Status) (ph : Phase) (e a : BitVec 64) (s : State) : (encRaise st ph e a s).enc.klen64 = s.enc.klen64 := rfl
@[simp] theorem encRaise_enc_vlen64 (st : Status) (ph : Phase) (e a : BitVec 64) (s : State) : (encRaise st ph e a s).enc.vlen64 = s.enc.vlen64 := rfl
@[simp] theorem encRaise_enc_klen (st : Status) (ph : Phase) (e a : BitVec 64) (s : State) : (encRaise st ph e a s).enc.klen = s.enc.klen := rfl
@[simp] theorem encRaise_enc_vlen (st : Status) (ph : Phase) (e a : BitVec 64) (s : State) : (encRaise st ph e a s).enc.vlen = s.enc.vlen := rfl
@[simp] theorem encRaise_enc_width (st : Status) (ph : Phase) (e a : BitVec 64) (s : State) : (encRaise st ph e a s).enc.width = s.enc.width := rfl
@[simp] theorem encRaise_enc_hdr (st : Status) (ph : Phase) (e a : BitVec 64) (s : State) : (encRaise st ph e a s).enc.hdr = s.enc.hdr := rfl
@[simp] theorem encRaise_enc_dig (st : Status) (ph : Phase) (e a : BitVec 64) (s : State) : (encRaise st ph e a s).enc.dig = s.enc.dig := rfl
@[simp] theorem encRaise_enc_phase (st : Status) (ph : Phase) (e a : BitVec 64) (s : State) : (encRaise st ph e a s).enc.phase = Phase.error.code := rfl
@[simp] theorem encRaise_enc_idx (st : Status) (ph : Phase) (e a : BitVec 64) (s : State) : (encRaise st ph e a s).enc.idx = s.enc.idx := rfl
@[simp] theorem encRaise_enc_status (st : Status) (ph : Phase) (e a : BitVec 64) (s : State) : (encRaise st ph e a s).enc.status = st.code := rfl
@[simp] theorem encRaise_enc_errphase (st : Status) (ph : Phase) (e a : BitVec 64) (s : State) : (encRaise st ph e a s).enc.errphase = ph.code := rfl
@[simp] theorem encRaise_enc_expected (st : Status) (ph : Phase) (e a : BitVec 64) (s : State) : (encRaise st ph e a s).enc.expected = e := rfl
@[simp] theorem encRaise_enc_actual (st : Status) (ph : Phase) (e a : BitVec 64) (s : State) : (encRaise st ph e a s).enc.actual = a := rfl
@[simp] theorem encRaise_enc_acc (st : Status) (ph : Phase) (e a : BitVec 64) (s : State) : (encRaise st ph e a s).enc.acc = s.encHash.init := rfl
@[simp] theorem encRaise_dec (st : Status) (ph : Phase) (e a : BitVec 64) (s : State) : (encRaise st ph e a s).dec = s.dec := rfl
@[simp] theorem encRaise_encHashEn (st : Status) (ph : Phase) (e a : BitVec 64) (s : State) : (encRaise st ph e a s).encHashEn = s.encHashEn := rfl
@[simp] theorem encRaise_decHashEn (st : Status) (ph : Phase) (e a : BitVec 64) (s : State) : (encRaise st ph e a s).decHashEn = s.decHashEn := rfl
@[simp] theorem encRaise_encHash (st : Status) (ph : Phase) (e a : BitVec 64) (s : State) : (encRaise st ph e a s).encHash = s.encHash := rfl
@[simp] theorem encRaise_decHash (st : Status) (ph : Phase) (e a : BitVec 64) (s : State) : (encRaise st ph e a s).decHash = s.decHash := rfl
@[simp] theorem encRaise_kbuf (st : Status) (ph : Phase) (e a : BitVec 64) (s : State) : (encRaise st ph e a s).kbuf = s.kbuf := rfl
@[simp] theorem encRaise_vbuf (st : Status) (ph : Phase) (e a : BitVec 64) (s : State) : (encRaise st ph e a s).vbuf = s.vbuf := rfl
@[simp] theorem encRaise_rkbuf (st : Status) (ph : Phase) (e a : BitVec 64) (s : State) : (encRaise st ph e a s).rkbuf = s.rkbuf := rfl
@[simp] theorem encRaise_rvbuf (st : Status) (ph : Phase) (e a : BitVec 64) (s : State) : (encRaise st ph e a s).rvbuf = s.rvbuf := rfl
@[simp] theorem encRaise_sink (st : Status) (ph : Phase) (e a : BitVec 64) (s : State) : (encRaise st ph e a s).sink = s.sink := rfl
@[simp] theorem encRaise_sinkAnswers (st : Status) (ph : Phase) (e a : BitVec 64) (s : State) : (encRaise st ph e a s).sinkAnswers = s.sinkAnswers := rfl
@[simp] theorem encRaise_sourceAnswers (st : Status) (ph : Phase) (e a : BitVec 64) (s : State) : (encRaise st ph e a s).sourceAnswers = s.sourceAnswers := rfl
@[simp] theorem encRaise_requests (st : Status) (ph : Phase) (e a : BitVec 64) (s : State) : (encRaise st ph e a s).requests = s.requests := rfl
@[simp] theorem encRaise_turns (st : Status) (ph : Phase) (e a : BitVec 64) (s : State) : (encRaise st ph e a s).turns = s.turns := rfl
@[simp] theorem encRaise_ports (st : Status) (ph : Phase) (e a : BitVec 64) (s : State) : (encRaise st ph e a s).ports = s.ports := rfl
@[simp] theorem encRaise_freeCount (st : Status) (ph : Phase) (e a : BitVec 64) (s : State) : (encRaise st ph e a s).freeCount = s.freeCount := rfl

/-! ### encComplete -/

@[simp] theorem encComplete_enc_op (s : State) : (encComplete s).enc.op = s.enc.op := rfl
@[simp] theorem encComplete_enc_tag (s : State) : (encComplete s).enc.tag = s.enc.tag := rfl
@[simp] theorem encComplete_enc_klen64 (s : State) : (encComplete s).enc.klen64 = s.enc.klen64 := rfl
@[simp] theorem encComplete_enc_vlen64 (s : State) : (encComplete s).enc.vlen64 = s.enc.vlen64 := rfl
@[simp] theorem encComplete_enc_klen (s : State) : (encComplete s).enc.klen = s.enc.klen := rfl
@[simp] theorem encComplete_enc_vlen (s : State) : (encComplete s).enc.vlen = s.enc.vlen := rfl
@[simp] theorem encComplete_enc_width (s : State) : (encComplete s).enc.width = s.enc.width := rfl
@[simp] theorem encComplete_enc_hdr (s : State) : (encComplete s).enc.hdr = s.enc.hdr := rfl
@[simp] theorem encComplete_enc_dig (s : State) : (encComplete s).enc.dig = s.enc.dig := rfl
@[simp] theorem encComplete_enc_phase (s : State) : (encComplete s).enc.phase = Phase.done.code := rfl
@[simp] theorem encComplete_enc_idx (s : State) : (encComplete s).enc.idx = s.enc.idx := rfl
@[simp] theorem encComplete_enc_status (s : State) : (encComplete s).enc.status = Status.ok.code := rfl
@[simp] theorem encComplete_enc_errphase (s : State) : (encComplete s).enc.errphase = 0 := rfl
@[simp] theorem encComplete_enc_expected (s : State) : (encComplete s).enc.expected = 0 := rfl
@[simp] theorem encComplete_enc_actual (s : State) : (encComplete s).enc.actual = 0 := rfl
@[simp] theorem encComplete_enc_acc (s : State) : (encComplete s).enc.acc = s.encHash.init := rfl
@[simp] theorem encComplete_dec (s : State) : (encComplete s).dec = s.dec := rfl
@[simp] theorem encComplete_encHashEn (s : State) : (encComplete s).encHashEn = s.encHashEn := rfl
@[simp] theorem encComplete_decHashEn (s : State) : (encComplete s).decHashEn = s.decHashEn := rfl
@[simp] theorem encComplete_encHash (s : State) : (encComplete s).encHash = s.encHash := rfl
@[simp] theorem encComplete_decHash (s : State) : (encComplete s).decHash = s.decHash := rfl
@[simp] theorem encComplete_kbuf (s : State) : (encComplete s).kbuf = s.kbuf := rfl
@[simp] theorem encComplete_vbuf (s : State) : (encComplete s).vbuf = s.vbuf := rfl
@[simp] theorem encComplete_rkbuf (s : State) : (encComplete s).rkbuf = s.rkbuf := rfl
@[simp] theorem encComplete_rvbuf (s : State) : (encComplete s).rvbuf = s.rvbuf := rfl
@[simp] theorem encComplete_sink (s : State) : (encComplete s).sink = s.sink := rfl
@[simp] theorem encComplete_sinkAnswers (s : State) : (encComplete s).sinkAnswers = s.sinkAnswers := rfl
@[simp] theorem encComplete_sourceAnswers (s : State) : (encComplete s).sourceAnswers = s.sourceAnswers := rfl
@[simp] theorem encComplete_requests (s : State) : (encComplete s).requests = s.requests := rfl
@[simp] theorem encComplete_turns (s : State) : (encComplete s).turns = s.turns := rfl
@[simp] theorem encComplete_ports (s : State) : (encComplete s).ports = s.ports := rfl
@[simp] theorem encComplete_freeCount (s : State) : (encComplete s).freeCount = s.freeCount := rfl

/-! ### encLatch -/

@[simp] theorem encLatch_enc_op (op : Bool) (tag : BitVec 4) (klen vlen : BitVec 64) (s : State) : (encLatch op tag klen vlen s).enc.op = op := rfl
@[simp] theorem encLatch_enc_tag (op : Bool) (tag : BitVec 4) (klen vlen : BitVec 64) (s : State) : (encLatch op tag klen vlen s).enc.tag = bif op then tag else 0 := rfl
@[simp] theorem encLatch_enc_klen64 (op : Bool) (tag : BitVec 4) (klen vlen : BitVec 64) (s : State) : (encLatch op tag klen vlen s).enc.klen64 = klen := rfl
@[simp] theorem encLatch_enc_vlen64 (op : Bool) (tag : BitVec 4) (klen vlen : BitVec 64) (s : State) : (encLatch op tag klen vlen s).enc.vlen64 = vlen := rfl
@[simp] theorem encLatch_enc_klen (op : Bool) (tag : BitVec 4) (klen vlen : BitVec 64) (s : State) : (encLatch op tag klen vlen s).enc.klen = s.enc.klen := rfl
@[simp] theorem encLatch_enc_vlen (op : Bool) (tag : BitVec 4) (klen vlen : BitVec 64) (s : State) : (encLatch op tag klen vlen s).enc.vlen = s.enc.vlen := rfl
@[simp] theorem encLatch_enc_width (op : Bool) (tag : BitVec 4) (klen vlen : BitVec 64) (s : State) : (encLatch op tag klen vlen s).enc.width = s.enc.width := rfl
@[simp] theorem encLatch_enc_hdr (op : Bool) (tag : BitVec 4) (klen vlen : BitVec 64) (s : State) : (encLatch op tag klen vlen s).enc.hdr = s.enc.hdr := rfl
@[simp] theorem encLatch_enc_dig (op : Bool) (tag : BitVec 4) (klen vlen : BitVec 64) (s : State) : (encLatch op tag klen vlen s).enc.dig = s.enc.dig := rfl
@[simp] theorem encLatch_enc_phase (op : Bool) (tag : BitVec 4) (klen vlen : BitVec 64) (s : State) : (encLatch op tag klen vlen s).enc.phase = Phase.validate.code := rfl
@[simp] theorem encLatch_enc_idx (op : Bool) (tag : BitVec 4) (klen vlen : BitVec 64) (s : State) : (encLatch op tag klen vlen s).enc.idx = 0 := rfl
@[simp] theorem encLatch_enc_status (op : Bool) (tag : BitVec 4) (klen vlen : BitVec 64) (s : State) : (encLatch op tag klen vlen s).enc.status = Status.ok.code := rfl
@[simp] theorem encLatch_enc_errphase (op : Bool) (tag : BitVec 4) (klen vlen : BitVec 64) (s : State) : (encLatch op tag klen vlen s).enc.errphase = 0 := rfl
@[simp] theorem encLatch_enc_expected (op : Bool) (tag : BitVec 4) (klen vlen : BitVec 64) (s : State) : (encLatch op tag klen vlen s).enc.expected = 0 := rfl
@[simp] theorem encLatch_enc_actual (op : Bool) (tag : BitVec 4) (klen vlen : BitVec 64) (s : State) : (encLatch op tag klen vlen s).enc.actual = 0 := rfl
@[simp] theorem encLatch_enc_acc (op : Bool) (tag : BitVec 4) (klen vlen : BitVec 64) (s : State) : (encLatch op tag klen vlen s).enc.acc = s.enc.acc := rfl
@[simp] theorem encLatch_dec (op : Bool) (tag : BitVec 4) (klen vlen : BitVec 64) (s : State) : (encLatch op tag klen vlen s).dec = s.dec := rfl
@[simp] theorem encLatch_encHashEn (op : Bool) (tag : BitVec 4) (klen vlen : BitVec 64) (s : State) : (encLatch op tag klen vlen s).encHashEn = s.encHashEn := rfl
@[simp] theorem encLatch_decHashEn (op : Bool) (tag : BitVec 4) (klen vlen : BitVec 64) (s : State) : (encLatch op tag klen vlen s).decHashEn = s.decHashEn := rfl
@[simp] theorem encLatch_encHash (op : Bool) (tag : BitVec 4) (klen vlen : BitVec 64) (s : State) : (encLatch op tag klen vlen s).encHash = s.encHash := rfl
@[simp] theorem encLatch_decHash (op : Bool) (tag : BitVec 4) (klen vlen : BitVec 64) (s : State) : (encLatch op tag klen vlen s).decHash = s.decHash := rfl
@[simp] theorem encLatch_kbuf (op : Bool) (tag : BitVec 4) (klen vlen : BitVec 64) (s : State) : (encLatch op tag klen vlen s).kbuf = s.kbuf := rfl
@[simp] theorem encLatch_vbuf (op : Bool) (tag : BitVec 4) (klen vlen : BitVec 64) (s : State) : (encLatch op tag klen vlen s).vbuf = s.vbuf := rfl
@[simp] theorem encLatch_rkbuf (op : Bool) (tag : BitVec 4) (klen vlen : BitVec 64) (s : State) : (encLatch op tag klen vlen s).rkbuf = s.rkbuf := rfl
@[simp] theorem encLatch_rvbuf (op : Bool) (tag : BitVec 4) (klen vlen : BitVec 64) (s : State) : (encLatch op tag klen vlen s).rvbuf = s.rvbuf := rfl
@[simp] theorem encLatch_sink (op : Bool) (tag : BitVec 4) (klen vlen : BitVec 64) (s : State) : (encLatch op tag klen vlen s).sink = s.sink := rfl
@[simp] theorem encLatch_sinkAnswers (op : Bool) (tag : BitVec 4) (klen vlen : BitVec 64) (s : State) : (encLatch op tag klen vlen s).sinkAnswers = s.sinkAnswers := rfl
@[simp] theorem encLatch_sourceAnswers (op : Bool) (tag : BitVec 4) (klen vlen : BitVec 64) (s : State) : (encLatch op tag klen vlen s).sourceAnswers = s.sourceAnswers := rfl
@[simp] theorem encLatch_requests (op : Bool) (tag : BitVec 4) (klen vlen : BitVec 64) (s : State) : (encLatch op tag klen vlen s).requests = s.requests := rfl
@[simp] theorem encLatch_turns (op : Bool) (tag : BitVec 4) (klen vlen : BitVec 64) (s : State) : (encLatch op tag klen vlen s).turns = s.turns := rfl
@[simp] theorem encLatch_ports (op : Bool) (tag : BitVec 4) (klen vlen : BitVec 64) (s : State) : (encLatch op tag klen vlen s).ports = s.ports := rfl
@[simp] theorem encLatch_freeCount (op : Bool) (tag : BitVec 4) (klen vlen : BitVec 64) (s : State) : (encLatch op tag klen vlen s).freeCount = s.freeCount := rfl

/-! ### encFree -/

@[simp] theorem encFree_enc_op (s : State) : (encFree s).enc.op = s.enc.op := rfl
@[simp] theorem encFree_enc_tag (s : State) : (encFree s).enc.tag = s.enc.tag := rfl
@[simp] theorem encFree_enc_klen64 (s : State) : (encFree s).enc.klen64 = s.enc.klen64 := rfl
@[simp] theorem encFree_enc_vlen64 (s : State) : (encFree s).enc.vlen64 = s.enc.vlen64 := rfl
@[simp] theorem encFree_enc_klen (s : State) : (encFree s).enc.klen = s.enc.klen := rfl
@[simp] theorem encFree_enc_vlen (s : State) : (encFree s).enc.vlen = s.enc.vlen := rfl
@[simp] theorem encFree_enc_width (s : State) : (encFree s).enc.width = s.enc.width := rfl
@[simp] theorem encFree_enc_hdr (s : State) : (encFree s).enc.hdr = s.enc.hdr := rfl
@[simp] theorem encFree_enc_dig (s : State) : (encFree s).enc.dig = s.enc.dig := rfl
@[simp] theorem encFree_enc_phase (s : State) : (encFree s).enc.phase = Phase.idle.code := rfl
@[simp] theorem encFree_enc_idx (s : State) : (encFree s).enc.idx = 0 := rfl
@[simp] theorem encFree_enc_status (s : State) : (encFree s).enc.status = s.enc.status := rfl
@[simp] theorem encFree_enc_errphase (s : State) : (encFree s).enc.errphase = s.enc.errphase := rfl
@[simp] theorem encFree_enc_expected (s : State) : (encFree s).enc.expected = s.enc.expected := rfl
@[simp] theorem encFree_enc_actual (s : State) : (encFree s).enc.actual = s.enc.actual := rfl
@[simp] theorem encFree_enc_acc (s : State) : (encFree s).enc.acc = s.enc.acc := rfl
@[simp] theorem encFree_dec (s : State) : (encFree s).dec = s.dec := rfl
@[simp] theorem encFree_encHashEn (s : State) : (encFree s).encHashEn = s.encHashEn := rfl
@[simp] theorem encFree_decHashEn (s : State) : (encFree s).decHashEn = s.decHashEn := rfl
@[simp] theorem encFree_encHash (s : State) : (encFree s).encHash = s.encHash := rfl
@[simp] theorem encFree_decHash (s : State) : (encFree s).decHash = s.decHash := rfl
@[simp] theorem encFree_kbuf (s : State) : (encFree s).kbuf = s.kbuf := rfl
@[simp] theorem encFree_vbuf (s : State) : (encFree s).vbuf = s.vbuf := rfl
@[simp] theorem encFree_rkbuf (s : State) : (encFree s).rkbuf = s.rkbuf := rfl
@[simp] theorem encFree_rvbuf (s : State) : (encFree s).rvbuf = s.rvbuf := rfl
@[simp] theorem encFree_sink (s : State) : (encFree s).sink = s.sink := rfl
@[simp] theorem encFree_sinkAnswers (s : State) : (encFree s).sinkAnswers = s.sinkAnswers := rfl
@[simp] theorem encFree_sourceAnswers (s : State) : (encFree s).sourceAnswers = s.sourceAnswers := rfl
@[simp] theorem encFree_requests (s : State) : (encFree s).requests = s.requests := rfl
@[simp] theorem encFree_turns (s : State) : (encFree s).turns = s.turns := rfl
@[simp] theorem encFree_ports (s : State) : (encFree s).ports = s.ports := rfl
@[simp] theorem encFree_freeCount (s : State) : (encFree s).freeCount = s.freeCount := rfl

/-! ### encAdvance -/

@[simp] theorem encAdvance_enc_op (ph : Phase) (s : State) : (encAdvance ph s).enc.op = s.enc.op := rfl
@[simp] theorem encAdvance_enc_tag (ph : Phase) (s : State) : (encAdvance ph s).enc.tag = s.enc.tag := rfl
@[simp] theorem encAdvance_enc_klen64 (ph : Phase) (s : State) : (encAdvance ph s).enc.klen64 = s.enc.klen64 := rfl
@[simp] theorem encAdvance_enc_vlen64 (ph : Phase) (s : State) : (encAdvance ph s).enc.vlen64 = s.enc.vlen64 := rfl
@[simp] theorem encAdvance_enc_klen (ph : Phase) (s : State) : (encAdvance ph s).enc.klen = s.enc.klen := rfl
@[simp] theorem encAdvance_enc_vlen (ph : Phase) (s : State) : (encAdvance ph s).enc.vlen = s.enc.vlen := rfl
@[simp] theorem encAdvance_enc_width (ph : Phase) (s : State) : (encAdvance ph s).enc.width = s.enc.width := rfl
@[simp] theorem encAdvance_enc_hdr (ph : Phase) (s : State) : (encAdvance ph s).enc.hdr = s.enc.hdr := rfl
@[simp] theorem encAdvance_enc_dig (ph : Phase) (s : State) : (encAdvance ph s).enc.dig = s.enc.dig := rfl
@[simp] theorem encAdvance_enc_phase (ph : Phase) (s : State) : (encAdvance ph s).enc.phase = ph.code := rfl
@[simp] theorem encAdvance_enc_idx (ph : Phase) (s : State) : (encAdvance ph s).enc.idx = 0 := rfl
@[simp] theorem encAdvance_enc_status (ph : Phase) (s : State) : (encAdvance ph s).enc.status = s.enc.status := rfl
@[simp] theorem encAdvance_enc_errphase (ph : Phase) (s : State) : (encAdvance ph s).enc.errphase = s.enc.errphase := rfl
@[simp] theorem encAdvance_enc_expected (ph : Phase) (s : State) : (encAdvance ph s).enc.expected = s.enc.expected := rfl
@[simp] theorem encAdvance_enc_actual (ph : Phase) (s : State) : (encAdvance ph s).enc.actual = s.enc.actual := rfl
@[simp] theorem encAdvance_enc_acc (ph : Phase) (s : State) : (encAdvance ph s).enc.acc = s.enc.acc := rfl
@[simp] theorem encAdvance_dec (ph : Phase) (s : State) : (encAdvance ph s).dec = s.dec := rfl
@[simp] theorem encAdvance_encHashEn (ph : Phase) (s : State) : (encAdvance ph s).encHashEn = s.encHashEn := rfl
@[simp] theorem encAdvance_decHashEn (ph : Phase) (s : State) : (encAdvance ph s).decHashEn = s.decHashEn := rfl
@[simp] theorem encAdvance_encHash (ph : Phase) (s : State) : (encAdvance ph s).encHash = s.encHash := rfl
@[simp] theorem encAdvance_decHash (ph : Phase) (s : State) : (encAdvance ph s).decHash = s.decHash := rfl
@[simp] theorem encAdvance_kbuf (ph : Phase) (s : State) : (encAdvance ph s).kbuf = s.kbuf := rfl
@[simp] theorem encAdvance_vbuf (ph : Phase) (s : State) : (encAdvance ph s).vbuf = s.vbuf := rfl
@[simp] theorem encAdvance_rkbuf (ph : Phase) (s : State) : (encAdvance ph s).rkbuf = s.rkbuf := rfl
@[simp] theorem encAdvance_rvbuf (ph : Phase) (s : State) : (encAdvance ph s).rvbuf = s.rvbuf := rfl
@[simp] theorem encAdvance_sink (ph : Phase) (s : State) : (encAdvance ph s).sink = s.sink := rfl
@[simp] theorem encAdvance_sinkAnswers (ph : Phase) (s : State) : (encAdvance ph s).sinkAnswers = s.sinkAnswers := rfl
@[simp] theorem encAdvance_sourceAnswers (ph : Phase) (s : State) : (encAdvance ph s).sourceAnswers = s.sourceAnswers := rfl
@[simp] theorem encAdvance_requests (ph : Phase) (s : State) : (encAdvance ph s).requests = s.requests := rfl
@[simp] theorem encAdvance_turns (ph : Phase) (s : State) : (encAdvance ph s).turns = s.turns := rfl
@[simp] theorem encAdvance_ports (ph : Phase) (s : State) : (encAdvance ph s).ports = s.ports := rfl
@[simp] theorem encAdvance_freeCount (ph : Phase) (s : State) : (encAdvance ph s).freeCount = s.freeCount := rfl

/-! ### encAccepted -/

@[simp] theorem encAccepted_enc_op (w : Width) (s : State) : (encAccepted w s).enc.op = s.enc.op := rfl
@[simp] theorem encAccepted_enc_tag (w : Width) (s : State) : (encAccepted w s).enc.tag = s.enc.tag := rfl
@[simp] theorem encAccepted_enc_klen64 (w : Width) (s : State) : (encAccepted w s).enc.klen64 = s.enc.klen64 := rfl
@[simp] theorem encAccepted_enc_vlen64 (w : Width) (s : State) : (encAccepted w s).enc.vlen64 = s.enc.vlen64 := rfl
@[simp] theorem encAccepted_enc_klen (w : Width) (s : State) : (encAccepted w s).enc.klen = s.enc.klen64.setWidth 9 := rfl
@[simp] theorem encAccepted_enc_vlen (w : Width) (s : State) : (encAccepted w s).enc.vlen = s.enc.vlen64.setWidth 32 := rfl
@[simp] theorem encAccepted_enc_width (w : Width) (s : State) : (encAccepted w s).enc.width = w.bits := rfl
@[simp] theorem encAccepted_enc_hdr (w : Width) (s : State) : (encAccepted w s).enc.hdr = pack w s.encHashEn s.enc.tag (s.enc.klen64.setWidth 9) := rfl
@[simp] theorem encAccepted_enc_dig (w : Width) (s : State) : (encAccepted w s).enc.dig = s.enc.dig := rfl
@[simp] theorem encAccepted_enc_phase (w : Width) (s : State) : (encAccepted w s).enc.phase = Phase.header.code := rfl
@[simp] theorem encAccepted_enc_idx (w : Width) (s : State) : (encAccepted w s).enc.idx = 0 := rfl
@[simp] theorem encAccepted_enc_status (w : Width) (s : State) : (encAccepted w s).enc.status = s.enc.status := rfl
@[simp] theorem encAccepted_enc_errphase (w : Width) (s : State) : (encAccepted w s).enc.errphase = s.enc.errphase := rfl
@[simp] theorem encAccepted_enc_expected (w : Width) (s : State) : (encAccepted w s).enc.expected = s.enc.expected := rfl
@[simp] theorem encAccepted_enc_actual (w : Width) (s : State) : (encAccepted w s).enc.actual = s.enc.actual := rfl
@[simp] theorem encAccepted_enc_acc (w : Width) (s : State) : (encAccepted w s).enc.acc = s.enc.acc := rfl
@[simp] theorem encAccepted_dec (w : Width) (s : State) : (encAccepted w s).dec = s.dec := rfl
@[simp] theorem encAccepted_encHashEn (w : Width) (s : State) : (encAccepted w s).encHashEn = s.encHashEn := rfl
@[simp] theorem encAccepted_decHashEn (w : Width) (s : State) : (encAccepted w s).decHashEn = s.decHashEn := rfl
@[simp] theorem encAccepted_encHash (w : Width) (s : State) : (encAccepted w s).encHash = s.encHash := rfl
@[simp] theorem encAccepted_decHash (w : Width) (s : State) : (encAccepted w s).decHash = s.decHash := rfl
@[simp] theorem encAccepted_kbuf (w : Width) (s : State) : (encAccepted w s).kbuf = s.kbuf := rfl
@[simp] theorem encAccepted_vbuf (w : Width) (s : State) : (encAccepted w s).vbuf = s.vbuf := rfl
@[simp] theorem encAccepted_rkbuf (w : Width) (s : State) : (encAccepted w s).rkbuf = s.rkbuf := rfl
@[simp] theorem encAccepted_rvbuf (w : Width) (s : State) : (encAccepted w s).rvbuf = s.rvbuf := rfl
@[simp] theorem encAccepted_sink (w : Width) (s : State) : (encAccepted w s).sink = s.sink := rfl
@[simp] theorem encAccepted_sinkAnswers (w : Width) (s : State) : (encAccepted w s).sinkAnswers = s.sinkAnswers := rfl
@[simp] theorem encAccepted_sourceAnswers (w : Width) (s : State) : (encAccepted w s).sourceAnswers = s.sourceAnswers := rfl
@[simp] theorem encAccepted_requests (w : Width) (s : State) : (encAccepted w s).requests = s.requests := rfl
@[simp] theorem encAccepted_turns (w : Width) (s : State) : (encAccepted w s).turns = s.turns := rfl
@[simp] theorem encAccepted_ports (w : Width) (s : State) : (encAccepted w s).ports = s.ports := rfl
@[simp] theorem encAccepted_freeCount (w : Width) (s : State) : (encAccepted w s).freeCount = s.freeCount := rfl

/-! ### encPushed -/

@[simp] theorem encPushed_enc_op (acc : Nat) (b : Byte) (rest : List SinkAnswer) (s : State) : (encPushed acc b rest s).enc.op = s.enc.op := rfl
@[simp] theorem encPushed_enc_tag (acc : Nat) (b : Byte) (rest : List SinkAnswer) (s : State) : (encPushed acc b rest s).enc.tag = s.enc.tag := rfl
@[simp] theorem encPushed_enc_klen64 (acc : Nat) (b : Byte) (rest : List SinkAnswer) (s : State) : (encPushed acc b rest s).enc.klen64 = s.enc.klen64 := rfl
@[simp] theorem encPushed_enc_vlen64 (acc : Nat) (b : Byte) (rest : List SinkAnswer) (s : State) : (encPushed acc b rest s).enc.vlen64 = s.enc.vlen64 := rfl
@[simp] theorem encPushed_enc_klen (acc : Nat) (b : Byte) (rest : List SinkAnswer) (s : State) : (encPushed acc b rest s).enc.klen = s.enc.klen := rfl
@[simp] theorem encPushed_enc_vlen (acc : Nat) (b : Byte) (rest : List SinkAnswer) (s : State) : (encPushed acc b rest s).enc.vlen = s.enc.vlen := rfl
@[simp] theorem encPushed_enc_width (acc : Nat) (b : Byte) (rest : List SinkAnswer) (s : State) : (encPushed acc b rest s).enc.width = s.enc.width := rfl
@[simp] theorem encPushed_enc_hdr (acc : Nat) (b : Byte) (rest : List SinkAnswer) (s : State) : (encPushed acc b rest s).enc.hdr = s.enc.hdr := rfl
@[simp] theorem encPushed_enc_dig (acc : Nat) (b : Byte) (rest : List SinkAnswer) (s : State) : (encPushed acc b rest s).enc.dig = s.enc.dig := rfl
@[simp] theorem encPushed_enc_phase (acc : Nat) (b : Byte) (rest : List SinkAnswer) (s : State) : (encPushed acc b rest s).enc.phase = s.enc.phase := rfl
@[simp] theorem encPushed_enc_idx (acc : Nat) (b : Byte) (rest : List SinkAnswer) (s : State) : (encPushed acc b rest s).enc.idx = s.enc.idx + 1 := rfl
@[simp] theorem encPushed_enc_status (acc : Nat) (b : Byte) (rest : List SinkAnswer) (s : State) : (encPushed acc b rest s).enc.status = s.enc.status := rfl
@[simp] theorem encPushed_enc_errphase (acc : Nat) (b : Byte) (rest : List SinkAnswer) (s : State) : (encPushed acc b rest s).enc.errphase = s.enc.errphase := rfl
@[simp] theorem encPushed_enc_expected (acc : Nat) (b : Byte) (rest : List SinkAnswer) (s : State) : (encPushed acc b rest s).enc.expected = s.enc.expected := rfl
@[simp] theorem encPushed_enc_actual (acc : Nat) (b : Byte) (rest : List SinkAnswer) (s : State) : (encPushed acc b rest s).enc.actual = s.enc.actual := rfl
@[simp] theorem encPushed_enc_acc (acc : Nat) (b : Byte) (rest : List SinkAnswer) (s : State) : (encPushed acc b rest s).enc.acc = acc := rfl
@[simp] theorem encPushed_dec (acc : Nat) (b : Byte) (rest : List SinkAnswer) (s : State) : (encPushed acc b rest s).dec = s.dec := rfl
@[simp] theorem encPushed_encHashEn (acc : Nat) (b : Byte) (rest : List SinkAnswer) (s : State) : (encPushed acc b rest s).encHashEn = s.encHashEn := rfl
@[simp] theorem encPushed_decHashEn (acc : Nat) (b : Byte) (rest : List SinkAnswer) (s : State) : (encPushed acc b rest s).decHashEn = s.decHashEn := rfl
@[simp] theorem encPushed_encHash (acc : Nat) (b : Byte) (rest : List SinkAnswer) (s : State) : (encPushed acc b rest s).encHash = s.encHash := rfl
@[simp] theorem encPushed_decHash (acc : Nat) (b : Byte) (rest : List SinkAnswer) (s : State) : (encPushed acc b rest s).decHash = s.decHash := rfl
@[simp] theorem encPushed_kbuf (acc : Nat) (b : Byte) (rest : List SinkAnswer) (s : State) : (encPushed acc b rest s).kbuf = s.kbuf := rfl
@[simp] theorem encPushed_vbuf (acc : Nat) (b : Byte) (rest : List SinkAnswer) (s : State) : (encPushed acc b rest s).vbuf = s.vbuf := rfl
@[simp] theorem encPushed_rkbuf (acc : Nat) (b : Byte) (rest : List SinkAnswer) (s : State) : (encPushed acc b rest s).rkbuf = s.rkbuf := rfl
@[simp] theorem encPushed_rvbuf (acc : Nat) (b : Byte) (rest : List SinkAnswer) (s : State) : (encPushed acc b rest s).rvbuf = s.rvbuf := rfl
@[simp] theorem encPushed_sink (acc : Nat) (b : Byte) (rest : List SinkAnswer) (s : State) : (encPushed acc b rest s).sink = s.sink ++ [b] := rfl
@[simp] theorem encPushed_sinkAnswers (acc : Nat) (b : Byte) (rest : List SinkAnswer) (s : State) : (encPushed acc b rest s).sinkAnswers = rest := rfl
@[simp] theorem encPushed_sourceAnswers (acc : Nat) (b : Byte) (rest : List SinkAnswer) (s : State) : (encPushed acc b rest s).sourceAnswers = s.sourceAnswers := rfl
@[simp] theorem encPushed_requests (acc : Nat) (b : Byte) (rest : List SinkAnswer) (s : State) : (encPushed acc b rest s).requests = s.requests := rfl
@[simp] theorem encPushed_turns (acc : Nat) (b : Byte) (rest : List SinkAnswer) (s : State) : (encPushed acc b rest s).turns = s.turns := rfl
@[simp] theorem encPushed_ports (acc : Nat) (b : Byte) (rest : List SinkAnswer) (s : State) : (encPushed acc b rest s).ports = s.ports := rfl
@[simp] theorem encPushed_freeCount (acc : Nat) (b : Byte) (rest : List SinkAnswer) (s : State) : (encPushed acc b rest s).freeCount = s.freeCount := rfl

/-! ### decRaise -/

@[simp] theorem decRaise_enc (st : Status) (ph : Phase) (e a : BitVec 64) (s : State) : (decRaise st ph e a s).enc = s.enc := rfl
@[simp] theorem decRaise_dec_op (st : Status) (ph : Phase) (e a : BitVec 64) (s : State) : (decRaise st ph e a s).dec.op = s.dec.op := rfl
@[simp] theorem decRaise_dec_hdr (st : Status) (ph : Phase) (e a : BitVec 64) (s : State) : (decRaise st ph e a s).dec.hdr = s.dec.hdr := rfl
@[simp] theorem decRaise_dec_width (st : Status) (ph : Phase) (e a : BitVec 64) (s : State) : (decRaise st ph e a s).dec.width = s.dec.width := rfl
@[simp] theorem decRaise_dec_ck (st : Status) (ph : Phase) (e a : BitVec 64) (s : State) : (decRaise st ph e a s).dec.ck = s.dec.ck := rfl
@[simp] theorem decRaise_dec_tag (st : Status) (ph : Phase) (e a : BitVec 64) (s : State) : (decRaise st ph e a s).dec.tag = s.dec.tag := rfl
@[simp] theorem decRaise_dec_klen (st : Status) (ph : Phase) (e a : BitVec 64) (s : State) : (decRaise st ph e a s).dec.klen = s.dec.klen := rfl
@[simp] theorem decRaise_dec_vlen (st : Status) (ph : Phase) (e a : BitVec 64) (s : State) : (decRaise st ph e a s).dec.vlen = s.dec.vlen := rfl
@[simp] theorem decRaise_dec_digrx (st : Status) (ph : Phase) (e a : BitVec 64) (s : State) : (decRaise st ph e a s).dec.digrx = s.dec.digrx := rfl
@[simp] theorem decRaise_dec_rklen (st : Status) (ph : Phase) (e a : BitVec 64) (s : State) : (decRaise st ph e a s).dec.rklen = s.dec.rklen := rfl
@[simp] theorem decRaise_dec_rvlen (st : Status) (ph : Phase) (e a : BitVec 64) (s : State) : (decRaise st ph e a s).dec.rvlen = s.dec.rvlen := rfl
@[simp] theorem decRaise_dec_rtag (st : Status) (ph : Phase) (e a : BitVec 64) (s : State) : (decRaise st ph e a s).dec.rtag = s.dec.rtag := rfl
@[simp] theorem decRaise_dec_phase (st : Status) (ph : Phase) (e a : BitVec 64) (s : State) : (decRaise st ph e a s).dec.phase = (decFailurePhase st).code := rfl
@[simp] theorem decRaise_dec_idx (st : Status) (ph : Phase) (e a : BitVec 64) (s : State) : (decRaise st ph e a s).dec.idx = s.dec.idx := rfl
@[simp] theorem decRaise_dec_status (st : Status) (ph : Phase) (e a : BitVec 64) (s : State) : (decRaise st ph e a s).dec.status = st.code := rfl
@[simp] theorem decRaise_dec_errphase (st : Status) (ph : Phase) (e a : BitVec 64) (s : State) : (decRaise st ph e a s).dec.errphase = ph.code := rfl
@[simp] theorem decRaise_dec_expected (st : Status) (ph : Phase) (e a : BitVec 64) (s : State) : (decRaise st ph e a s).dec.expected = e := rfl
@[simp] theorem decRaise_dec_actual (st : Status) (ph : Phase) (e a : BitVec 64) (s : State) : (decRaise st ph e a s).dec.actual = a := rfl
@[simp] theorem decRaise_dec_acc (st : Status) (ph : Phase) (e a : BitVec 64) (s : State) : (decRaise st ph e a s).dec.acc = s.decHash.init := rfl
@[simp] theorem decRaise_encHashEn (st : Status) (ph : Phase) (e a : BitVec 64) (s : State) : (decRaise st ph e a s).encHashEn = s.encHashEn := rfl
@[simp] theorem decRaise_decHashEn (st : Status) (ph : Phase) (e a : BitVec 64) (s : State) : (decRaise st ph e a s).decHashEn = s.decHashEn := rfl
@[simp] theorem decRaise_encHash (st : Status) (ph : Phase) (e a : BitVec 64) (s : State) : (decRaise st ph e a s).encHash = s.encHash := rfl
@[simp] theorem decRaise_decHash (st : Status) (ph : Phase) (e a : BitVec 64) (s : State) : (decRaise st ph e a s).decHash = s.decHash := rfl
@[simp] theorem decRaise_kbuf (st : Status) (ph : Phase) (e a : BitVec 64) (s : State) : (decRaise st ph e a s).kbuf = s.kbuf := rfl
@[simp] theorem decRaise_vbuf (st : Status) (ph : Phase) (e a : BitVec 64) (s : State) : (decRaise st ph e a s).vbuf = s.vbuf := rfl
@[simp] theorem decRaise_rkbuf (st : Status) (ph : Phase) (e a : BitVec 64) (s : State) : (decRaise st ph e a s).rkbuf = s.rkbuf := rfl
@[simp] theorem decRaise_rvbuf (st : Status) (ph : Phase) (e a : BitVec 64) (s : State) : (decRaise st ph e a s).rvbuf = s.rvbuf := rfl
@[simp] theorem decRaise_sink (st : Status) (ph : Phase) (e a : BitVec 64) (s : State) : (decRaise st ph e a s).sink = s.sink := rfl
@[simp] theorem decRaise_sinkAnswers (st : Status) (ph : Phase) (e a : BitVec 64) (s : State) : (decRaise st ph e a s).sinkAnswers = s.sinkAnswers := rfl
@[simp] theorem decRaise_sourceAnswers (st : Status) (ph : Phase) (e a : BitVec 64) (s : State) : (decRaise st ph e a s).sourceAnswers = s.sourceAnswers := rfl
@[simp] theorem decRaise_requests (st : Status) (ph : Phase) (e a : BitVec 64) (s : State) : (decRaise st ph e a s).requests = s.requests := rfl
@[simp] theorem decRaise_turns (st : Status) (ph : Phase) (e a : BitVec 64) (s : State) : (decRaise st ph e a s).turns = s.turns := rfl
@[simp] theorem decRaise_ports (st : Status) (ph : Phase) (e a : BitVec 64) (s : State) : (decRaise st ph e a s).ports = s.ports := rfl
@[simp] theorem decRaise_freeCount (st : Status) (ph : Phase) (e a : BitVec 64) (s : State) : (decRaise st ph e a s).freeCount = s.freeCount := rfl

/-! ### decComplete -/

@[simp] theorem decComplete_enc (s : State) : (decComplete s).enc = s.enc := rfl
@[simp] theorem decComplete_dec_op (s : State) : (decComplete s).dec.op = s.dec.op := rfl
@[simp] theorem decComplete_dec_hdr (s : State) : (decComplete s).dec.hdr = s.dec.hdr := rfl
@[simp] theorem decComplete_dec_width (s : State) : (decComplete s).dec.width = s.dec.width := rfl
@[simp] theorem decComplete_dec_ck (s : State) : (decComplete s).dec.ck = s.dec.ck := rfl
@[simp] theorem decComplete_dec_tag (s : State) : (decComplete s).dec.tag = s.dec.tag := rfl
@[simp] theorem decComplete_dec_klen (s : State) : (decComplete s).dec.klen = s.dec.klen := rfl
@[simp] theorem decComplete_dec_vlen (s : State) : (decComplete s).dec.vlen = s.dec.vlen := rfl
@[simp] theorem decComplete_dec_digrx (s : State) : (decComplete s).dec.digrx = s.dec.digrx := rfl
@[simp] theorem decComplete_dec_rklen (s : State) : (decComplete s).dec.rklen = s.dec.klen := rfl
@[simp] theorem decComplete_dec_rvlen (s : State) : (decComplete s).dec.rvlen = s.dec.vlen := rfl
@[simp] theorem decComplete_dec_rtag (s : State) : (decComplete s).dec.rtag = bif s.dec.op then s.dec.tag else 0 := rfl
@[simp] theorem decComplete_dec_phase (s : State) : (decComplete s).dec.phase = Phase.done.code := rfl
@[simp] theorem decComplete_dec_idx (s : State) : (decComplete s).dec.idx = s.dec.idx := rfl
@[simp] theorem decComplete_dec_status (s : State) : (decComplete s).dec.status = Status.ok.code := rfl
@[simp] theorem decComplete_dec_errphase (s : State) : (decComplete s).dec.errphase = 0 := rfl
@[simp] theorem decComplete_dec_expected (s : State) : (decComplete s).dec.expected = 0 := rfl
@[simp] theorem decComplete_dec_actual (s : State) : (decComplete s).dec.actual = 0 := rfl
@[simp] theorem decComplete_dec_acc (s : State) : (decComplete s).dec.acc = s.decHash.init := rfl
@[simp] theorem decComplete_encHashEn (s : State) : (decComplete s).encHashEn = s.encHashEn := rfl
@[simp] theorem decComplete_decHashEn (s : State) : (decComplete s).decHashEn = s.decHashEn := rfl
@[simp] theorem decComplete_encHash (s : State) : (decComplete s).encHash = s.encHash := rfl
@[simp] theorem decComplete_decHash (s : State) : (decComplete s).decHash = s.decHash := rfl
@[simp] theorem decComplete_kbuf (s : State) : (decComplete s).kbuf = s.kbuf := rfl
@[simp] theorem decComplete_vbuf (s : State) : (decComplete s).vbuf = s.vbuf := rfl
@[simp] theorem decComplete_rkbuf (s : State) : (decComplete s).rkbuf = s.rkbuf := rfl
@[simp] theorem decComplete_rvbuf (s : State) : (decComplete s).rvbuf = s.rvbuf := rfl
@[simp] theorem decComplete_sink (s : State) : (decComplete s).sink = s.sink := rfl
@[simp] theorem decComplete_sinkAnswers (s : State) : (decComplete s).sinkAnswers = s.sinkAnswers := rfl
@[simp] theorem decComplete_sourceAnswers (s : State) : (decComplete s).sourceAnswers = s.sourceAnswers := rfl
@[simp] theorem decComplete_requests (s : State) : (decComplete s).requests = s.requests := rfl
@[simp] theorem decComplete_turns (s : State) : (decComplete s).turns = s.turns := rfl
@[simp] theorem decComplete_ports (s : State) : (decComplete s).ports = s.ports := rfl
@[simp] theorem decComplete_freeCount (s : State) : (decComplete s).freeCount = s.freeCount := rfl

/-! ### decLatch -/

@[simp] theorem decLatch_enc (op : Bool) (s : State) : (decLatch op s).enc = s.enc := rfl
@[simp] theorem decLatch_dec_op (op : Bool) (s : State) : (decLatch op s).dec.op = op := rfl
@[simp] theorem decLatch_dec_hdr (op : Bool) (s : State) : (decLatch op s).dec.hdr = 0 := rfl
@[simp] theorem decLatch_dec_width (op : Bool) (s : State) : (decLatch op s).dec.width = 0 := rfl
@[simp] theorem decLatch_dec_ck (op : Bool) (s : State) : (decLatch op s).dec.ck = false := rfl
@[simp] theorem decLatch_dec_tag (op : Bool) (s : State) : (decLatch op s).dec.tag = 0 := rfl
@[simp] theorem decLatch_dec_klen (op : Bool) (s : State) : (decLatch op s).dec.klen = 0 := rfl
@[simp] theorem decLatch_dec_vlen (op : Bool) (s : State) : (decLatch op s).dec.vlen = 0 := rfl
@[simp] theorem decLatch_dec_digrx (op : Bool) (s : State) : (decLatch op s).dec.digrx = 0 := rfl
@[simp] theorem decLatch_dec_rklen (op : Bool) (s : State) : (decLatch op s).dec.rklen = 0 := rfl
@[simp] theorem decLatch_dec_rvlen (op : Bool) (s : State) : (decLatch op s).dec.rvlen = 0 := rfl
@[simp] theorem decLatch_dec_rtag (op : Bool) (s : State) : (decLatch op s).dec.rtag = 0 := rfl
@[simp] theorem decLatch_dec_phase (op : Bool) (s : State) : (decLatch op s).dec.phase = Phase.header.code := rfl
@[simp] theorem decLatch_dec_idx (op : Bool) (s : State) : (decLatch op s).dec.idx = 0 := rfl
@[simp] theorem decLatch_dec_status (op : Bool) (s : State) : (decLatch op s).dec.status = Status.ok.code := rfl
@[simp] theorem decLatch_dec_errphase (op : Bool) (s : State) : (decLatch op s).dec.errphase = 0 := rfl
@[simp] theorem decLatch_dec_expected (op : Bool) (s : State) : (decLatch op s).dec.expected = 0 := rfl
@[simp] theorem decLatch_dec_actual (op : Bool) (s : State) : (decLatch op s).dec.actual = 0 := rfl
@[simp] theorem decLatch_dec_acc (op : Bool) (s : State) : (decLatch op s).dec.acc = s.dec.acc := rfl
@[simp] theorem decLatch_encHashEn (op : Bool) (s : State) : (decLatch op s).encHashEn = s.encHashEn := rfl
@[simp] theorem decLatch_decHashEn (op : Bool) (s : State) : (decLatch op s).decHashEn = s.decHashEn := rfl
@[simp] theorem decLatch_encHash (op : Bool) (s : State) : (decLatch op s).encHash = s.encHash := rfl
@[simp] theorem decLatch_decHash (op : Bool) (s : State) : (decLatch op s).decHash = s.decHash := rfl
@[simp] theorem decLatch_kbuf (op : Bool) (s : State) : (decLatch op s).kbuf = s.kbuf := rfl
@[simp] theorem decLatch_vbuf (op : Bool) (s : State) : (decLatch op s).vbuf = s.vbuf := rfl
@[simp] theorem decLatch_rkbuf (op : Bool) (s : State) : (decLatch op s).rkbuf = s.rkbuf := rfl
@[simp] theorem decLatch_rvbuf (op : Bool) (s : State) : (decLatch op s).rvbuf = s.rvbuf := rfl
@[simp] theorem decLatch_sink (op : Bool) (s : State) : (decLatch op s).sink = s.sink := rfl
@[simp] theorem decLatch_sinkAnswers (op : Bool) (s : State) : (decLatch op s).sinkAnswers = s.sinkAnswers := rfl
@[simp] theorem decLatch_sourceAnswers (op : Bool) (s : State) : (decLatch op s).sourceAnswers = s.sourceAnswers := rfl
@[simp] theorem decLatch_requests (op : Bool) (s : State) : (decLatch op s).requests = s.requests := rfl
@[simp] theorem decLatch_turns (op : Bool) (s : State) : (decLatch op s).turns = s.turns := rfl
@[simp] theorem decLatch_ports (op : Bool) (s : State) : (decLatch op s).ports = s.ports := rfl
@[simp] theorem decLatch_freeCount (op : Bool) (s : State) : (decLatch op s).freeCount = s.freeCount := rfl

/-! ### decFree -/

@[simp] theorem decFree_enc (s : State) : (decFree s).enc = s.enc := rfl
@[simp] theorem decFree_dec_op (s : State) : (decFree s).dec.op = s.dec.op := rfl
@[simp] theorem decFree_dec_hdr (s : State) : (decFree s).dec.hdr = s.dec.hdr := rfl
@[simp] theorem decFree_dec_width (s : State) : (decFree s).dec.width = s.dec.width := rfl
@[simp] theorem decFree_dec_ck (s : State) : (decFree s).dec.ck = s.dec.ck := rfl
@[simp] theorem decFree_dec_tag (s : State) : (decFree s).dec.tag = s.dec.tag := rfl
@[simp] theorem decFree_dec_klen (s : State) : (decFree s).dec.klen = s.dec.klen := rfl
@[simp] theorem decFree_dec_vlen (s : State) : (decFree s).dec.vlen = s.dec.vlen := rfl
@[simp] theorem decFree_dec_digrx (s : State) : (decFree s).dec.digrx = s.dec.digrx := rfl
@[simp] theorem decFree_dec_rklen (s : State) : (decFree s).dec.rklen = s.dec.rklen := rfl
@[simp] theorem decFree_dec_rvlen (s : State) : (decFree s).dec.rvlen = s.dec.rvlen := rfl
@[simp] theorem decFree_dec_rtag (s : State) : (decFree s).dec.rtag = s.dec.rtag := rfl
@[simp] theorem decFree_dec_phase (s : State) : (decFree s).dec.phase = Phase.idle.code := rfl
@[simp] theorem decFree_dec_idx (s : State) : (decFree s).dec.idx = 0 := rfl
@[simp] theorem decFree_dec_status (s : State) : (decFree s).dec.status = s.dec.status := rfl
@[simp] theorem decFree_dec_errphase (s : State) : (decFree s).dec.errphase = s.dec.errphase := rfl
@[simp] theorem decFree_dec_expected (s : State) : (decFree s).dec.expected = s.dec.expected := rfl
@[simp] theorem decFree_dec_actual (s : State) : (decFree s).dec.actual = s.dec.actual := rfl
@[simp] theorem decFree_dec_acc (s : State) : (decFree s).dec.acc = s.dec.acc := rfl
@[simp] theorem decFree_encHashEn (s : State) : (decFree s).encHashEn = s.encHashEn := rfl
@[simp] theorem decFree_decHashEn (s : State) : (decFree s).decHashEn = s.decHashEn := rfl
@[simp] theorem decFree_encHash (s : State) : (decFree s).encHash = s.encHash := rfl
@[simp] theorem decFree_decHash (s : State) : (decFree s).decHash = s.decHash := rfl
@[simp] theorem decFree_kbuf (s : State) : (decFree s).kbuf = s.kbuf := rfl
@[simp] theorem decFree_vbuf (s : State) : (decFree s).vbuf = s.vbuf := rfl
@[simp] theorem decFree_rkbuf (s : State) : (decFree s).rkbuf = s.rkbuf := rfl
@[simp] theorem decFree_rvbuf (s : State) : (decFree s).rvbuf = s.rvbuf := rfl
@[simp] theorem decFree_sink (s : State) : (decFree s).sink = s.sink := rfl
@[simp] theorem decFree_sinkAnswers (s : State) : (decFree s).sinkAnswers = s.sinkAnswers := rfl
@[simp] theorem decFree_sourceAnswers (s : State) : (decFree s).sourceAnswers = s.sourceAnswers := rfl
@[simp] theorem decFree_requests (s : State) : (decFree s).requests = s.requests := rfl
@[simp] theorem decFree_turns (s : State) : (decFree s).turns = s.turns := rfl
@[simp] theorem decFree_ports (s : State) : (decFree s).ports = s.ports := rfl
@[simp] theorem decFree_freeCount (s : State) : (decFree s).freeCount = s.freeCount := rfl

/-! ### decAdvance -/

@[simp] theorem decAdvance_enc (ph : Phase) (s : State) : (decAdvance ph s).enc = s.enc := rfl
@[simp] theorem decAdvance_dec_op (ph : Phase) (s : State) : (decAdvance ph s).dec.op = s.dec.op := rfl
@[simp] theorem decAdvance_dec_hdr (ph : Phase) (s : State) : (decAdvance ph s).dec.hdr = s.dec.hdr := rfl
@[simp] theorem decAdvance_dec_width (ph : Phase) (s : State) : (decAdvance ph s).dec.width = s.dec.width := rfl
@[simp] theorem decAdvance_dec_ck (ph : Phase) (s : State) : (decAdvance ph s).dec.ck = s.dec.ck := rfl
@[simp] theorem decAdvance_dec_tag (ph : Phase) (s : State) : (decAdvance ph s).dec.tag = s.dec.tag := rfl
@[simp] theorem decAdvance_dec_klen (ph : Phase) (s : State) : (decAdvance ph s).dec.klen = s.dec.klen := rfl
@[simp] theorem decAdvance_dec_vlen (ph : Phase) (s : State) : (decAdvance ph s).dec.vlen = s.dec.vlen := rfl
@[simp] theorem decAdvance_dec_digrx (ph : Phase) (s : State) : (decAdvance ph s).dec.digrx = s.dec.digrx := rfl
@[simp] theorem decAdvance_dec_rklen (ph : Phase) (s : State) : (decAdvance ph s).dec.rklen = s.dec.rklen := rfl
@[simp] theorem decAdvance_dec_rvlen (ph : Phase) (s : State) : (decAdvance ph s).dec.rvlen = s.dec.rvlen := rfl
@[simp] theorem decAdvance_dec_rtag (ph : Phase) (s : State) : (decAdvance ph s).dec.rtag = s.dec.rtag := rfl
@[simp] theorem decAdvance_dec_phase (ph : Phase) (s : State) : (decAdvance ph s).dec.phase = ph.code := rfl
@[simp] theorem decAdvance_dec_idx (ph : Phase) (s : State) : (decAdvance ph s).dec.idx = 0 := rfl
@[simp] theorem decAdvance_dec_status (ph : Phase) (s : State) : (decAdvance ph s).dec.status = s.dec.status := rfl
@[simp] theorem decAdvance_dec_errphase (ph : Phase) (s : State) : (decAdvance ph s).dec.errphase = s.dec.errphase := rfl
@[simp] theorem decAdvance_dec_expected (ph : Phase) (s : State) : (decAdvance ph s).dec.expected = s.dec.expected := rfl
@[simp] theorem decAdvance_dec_actual (ph : Phase) (s : State) : (decAdvance ph s).dec.actual = s.dec.actual := rfl
@[simp] theorem decAdvance_dec_acc (ph : Phase) (s : State) : (decAdvance ph s).dec.acc = s.dec.acc := rfl
@[simp] theorem decAdvance_encHashEn (ph : Phase) (s : State) : (decAdvance ph s).encHashEn = s.encHashEn := rfl
@[simp] theorem decAdvance_decHashEn (ph : Phase) (s : State) : (decAdvance ph s).decHashEn = s.decHashEn := rfl
@[simp] theorem decAdvance_encHash (ph : Phase) (s : State) : (decAdvance ph s).encHash = s.encHash := rfl
@[simp] theorem decAdvance_decHash (ph : Phase) (s : State) : (decAdvance ph s).decHash = s.decHash := rfl
@[simp] theorem decAdvance_kbuf (ph : Phase) (s : State) : (decAdvance ph s).kbuf = s.kbuf := rfl
@[simp] theorem decAdvance_vbuf (ph : Phase) (s : State) : (decAdvance ph s).vbuf = s.vbuf := rfl
@[simp] theorem decAdvance_rkbuf (ph : Phase) (s : State) : (decAdvance ph s).rkbuf = s.rkbuf := rfl
@[simp] theorem decAdvance_rvbuf (ph : Phase) (s : State) : (decAdvance ph s).rvbuf = s.rvbuf := rfl
@[simp] theorem decAdvance_sink (ph : Phase) (s : State) : (decAdvance ph s).sink = s.sink := rfl
@[simp] theorem decAdvance_sinkAnswers (ph : Phase) (s : State) : (decAdvance ph s).sinkAnswers = s.sinkAnswers := rfl
@[simp] theorem decAdvance_sourceAnswers (ph : Phase) (s : State) : (decAdvance ph s).sourceAnswers = s.sourceAnswers := rfl
@[simp] theorem decAdvance_requests (ph : Phase) (s : State) : (decAdvance ph s).requests = s.requests := rfl
@[simp] theorem decAdvance_turns (ph : Phase) (s : State) : (decAdvance ph s).turns = s.turns := rfl
@[simp] theorem decAdvance_ports (ph : Phase) (s : State) : (decAdvance ph s).ports = s.ports := rfl
@[simp] theorem decAdvance_freeCount (ph : Phase) (s : State) : (decAdvance ph s).freeCount = s.freeCount := rfl

/-! ### decCount -/

@[simp] theorem decCount_enc (s : State) : (decCount s).enc = s.enc := rfl
@[simp] theorem decCount_dec_op (s : State) : (decCount s).dec.op = s.dec.op := rfl
@[simp] theorem decCount_dec_hdr (s : State) : (decCount s).dec.hdr = s.dec.hdr := rfl
@[simp] theorem decCount_dec_width (s : State) : (decCount s).dec.width = s.dec.width := rfl
@[simp] theorem decCount_dec_ck (s : State) : (decCount s).dec.ck = s.dec.ck := rfl
@[simp] theorem decCount_dec_tag (s : State) : (decCount s).dec.tag = s.dec.tag := rfl
@[simp] theorem decCount_dec_klen (s : State) : (decCount s).dec.klen = s.dec.klen := rfl
@[simp] theorem decCount_dec_vlen (s : State) : (decCount s).dec.vlen = s.dec.vlen := rfl
@[simp] theorem decCount_dec_digrx (s : State) : (decCount s).dec.digrx = s.dec.digrx := rfl
@[simp] theorem decCount_dec_rklen (s : State) : (decCount s).dec.rklen = s.dec.rklen := rfl
@[simp] theorem decCount_dec_rvlen (s : State) : (decCount s).dec.rvlen = s.dec.rvlen := rfl
@[simp] theorem decCount_dec_rtag (s : State) : (decCount s).dec.rtag = s.dec.rtag := rfl
@[simp] theorem decCount_dec_phase (s : State) : (decCount s).dec.phase = s.dec.phase := rfl
@[simp] theorem decCount_dec_idx (s : State) : (decCount s).dec.idx = s.dec.idx + 1 := rfl
@[simp] theorem decCount_dec_status (s : State) : (decCount s).dec.status = s.dec.status := rfl
@[simp] theorem decCount_dec_errphase (s : State) : (decCount s).dec.errphase = s.dec.errphase := rfl
@[simp] theorem decCount_dec_expected (s : State) : (decCount s).dec.expected = s.dec.expected := rfl
@[simp] theorem decCount_dec_actual (s : State) : (decCount s).dec.actual = s.dec.actual := rfl
@[simp] theorem decCount_dec_acc (s : State) : (decCount s).dec.acc = s.dec.acc := rfl
@[simp] theorem decCount_encHashEn (s : State) : (decCount s).encHashEn = s.encHashEn := rfl
@[simp] theorem decCount_decHashEn (s : State) : (decCount s).decHashEn = s.decHashEn := rfl
@[simp] theorem decCount_encHash (s : State) : (decCount s).encHash = s.encHash := rfl
@[simp] theorem decCount_decHash (s : State) : (decCount s).decHash = s.decHash := rfl
@[simp] theorem decCount_kbuf (s : State) : (decCount s).kbuf = s.kbuf := rfl
@[simp] theorem decCount_vbuf (s : State) : (decCount s).vbuf = s.vbuf := rfl
@[simp] theorem decCount_rkbuf (s : State) : (decCount s).rkbuf = s.rkbuf := rfl
@[simp] theorem decCount_rvbuf (s : State) : (decCount s).rvbuf = s.rvbuf := rfl
@[simp] theorem decCount_sink (s : State) : (decCount s).sink = s.sink := rfl
@[simp] theorem decCount_sinkAnswers (s : State) : (decCount s).sinkAnswers = s.sinkAnswers := rfl
@[simp] theorem decCount_sourceAnswers (s : State) : (decCount s).sourceAnswers = s.sourceAnswers := rfl
@[simp] theorem decCount_requests (s : State) : (decCount s).requests = s.requests := rfl
@[simp] theorem decCount_turns (s : State) : (decCount s).turns = s.turns := rfl
@[simp] theorem decCount_ports (s : State) : (decCount s).ports = s.ports := rfl
@[simp] theorem decCount_freeCount (s : State) : (decCount s).freeCount = s.freeCount := rfl

/-! ### headerTaken -/

@[simp] theorem headerTaken_enc (w : Width) (ck : Bool) (tag : BitVec 4) (klen : BitVec 9) (s : State) : (headerTaken w ck tag klen s).enc = s.enc := rfl
@[simp] theorem headerTaken_dec_op (w : Width) (ck : Bool) (tag : BitVec 4) (klen : BitVec 9) (s : State) : (headerTaken w ck tag klen s).dec.op = s.dec.op := rfl
@[simp] theorem headerTaken_dec_hdr (w : Width) (ck : Bool) (tag : BitVec 4) (klen : BitVec 9) (s : State) : (headerTaken w ck tag klen s).dec.hdr = s.dec.hdr := rfl
@[simp] theorem headerTaken_dec_width (w : Width) (ck : Bool) (tag : BitVec 4) (klen : BitVec 9) (s : State) : (headerTaken w ck tag klen s).dec.width = w.bits := rfl
@[simp] theorem headerTaken_dec_ck (w : Width) (ck : Bool) (tag : BitVec 4) (klen : BitVec 9) (s : State) : (headerTaken w ck tag klen s).dec.ck = ck := rfl
@[simp] theorem headerTaken_dec_tag (w : Width) (ck : Bool) (tag : BitVec 4) (klen : BitVec 9) (s : State) : (headerTaken w ck tag klen s).dec.tag = tag := rfl
@[simp] theorem headerTaken_dec_klen (w : Width) (ck : Bool) (tag : BitVec 4) (klen : BitVec 9) (s : State) : (headerTaken w ck tag klen s).dec.klen = klen := rfl
@[simp] theorem headerTaken_dec_vlen (w : Width) (ck : Bool) (tag : BitVec 4) (klen : BitVec 9) (s : State) : (headerTaken w ck tag klen s).dec.vlen = 0 := rfl
@[simp] theorem headerTaken_dec_digrx (w : Width) (ck : Bool) (tag : BitVec 4) (klen : BitVec 9) (s : State) : (headerTaken w ck tag klen s).dec.digrx = s.dec.digrx := rfl
@[simp] theorem headerTaken_dec_rklen (w : Width) (ck : Bool) (tag : BitVec 4) (klen : BitVec 9) (s : State) : (headerTaken w ck tag klen s).dec.rklen = s.dec.rklen := rfl
@[simp] theorem headerTaken_dec_rvlen (w : Width) (ck : Bool) (tag : BitVec 4) (klen : BitVec 9) (s : State) : (headerTaken w ck tag klen s).dec.rvlen = s.dec.rvlen := rfl
@[simp] theorem headerTaken_dec_rtag (w : Width) (ck : Bool) (tag : BitVec 4) (klen : BitVec 9) (s : State) : (headerTaken w ck tag klen s).dec.rtag = s.dec.rtag := rfl
@[simp] theorem headerTaken_dec_phase (w : Width) (ck : Bool) (tag : BitVec 4) (klen : BitVec 9) (s : State) : (headerTaken w ck tag klen s).dec.phase = Phase.length.code := rfl
@[simp] theorem headerTaken_dec_idx (w : Width) (ck : Bool) (tag : BitVec 4) (klen : BitVec 9) (s : State) : (headerTaken w ck tag klen s).dec.idx = 0 := rfl
@[simp] theorem headerTaken_dec_status (w : Width) (ck : Bool) (tag : BitVec 4) (klen : BitVec 9) (s : State) : (headerTaken w ck tag klen s).dec.status = s.dec.status := rfl
@[simp] theorem headerTaken_dec_errphase (w : Width) (ck : Bool) (tag : BitVec 4) (klen : BitVec 9) (s : State) : (headerTaken w ck tag klen s).dec.errphase = s.dec.errphase := rfl
@[simp] theorem headerTaken_dec_expected (w : Width) (ck : Bool) (tag : BitVec 4) (klen : BitVec 9) (s : State) : (headerTaken w ck tag klen s).dec.expected = s.dec.expected := rfl
@[simp] theorem headerTaken_dec_actual (w : Width) (ck : Bool) (tag : BitVec 4) (klen : BitVec 9) (s : State) : (headerTaken w ck tag klen s).dec.actual = s.dec.actual := rfl
@[simp] theorem headerTaken_dec_acc (w : Width) (ck : Bool) (tag : BitVec 4) (klen : BitVec 9) (s : State) : (headerTaken w ck tag klen s).dec.acc = s.dec.acc := rfl
@[simp] theorem headerTaken_encHashEn (w : Width) (ck : Bool) (tag : BitVec 4) (klen : BitVec 9) (s : State) : (headerTaken w ck tag klen s).encHashEn = s.encHashEn := rfl
@[simp] theorem headerTaken_decHashEn (w : Width) (ck : Bool) (tag : BitVec 4) (klen : BitVec 9) (s : State) : (headerTaken w ck tag klen s).decHashEn = s.decHashEn := rfl
@[simp] theorem headerTaken_encHash (w : Width) (ck : Bool) (tag : BitVec 4) (klen : BitVec 9) (s : State) : (headerTaken w ck tag klen s).encHash = s.encHash := rfl
@[simp] theorem headerTaken_decHash (w : Width) (ck : Bool) (tag : BitVec 4) (klen : BitVec 9) (s : State) : (headerTaken w ck tag klen s).decHash = s.decHash := rfl
@[simp] theorem headerTaken_kbuf (w : Width) (ck : Bool) (tag : BitVec 4) (klen : BitVec 9) (s : State) : (headerTaken w ck tag klen s).kbuf = s.kbuf := rfl
@[simp] theorem headerTaken_vbuf (w : Width) (ck : Bool) (tag : BitVec 4) (klen : BitVec 9) (s : State) : (headerTaken w ck tag klen s).vbuf = s.vbuf := rfl
@[simp] theorem headerTaken_rkbuf (w : Width) (ck : Bool) (tag : BitVec 4) (klen : BitVec 9) (s : State) : (headerTaken w ck tag klen s).rkbuf = s.rkbuf := rfl
@[simp] theorem headerTaken_rvbuf (w : Width) (ck : Bool) (tag : BitVec 4) (klen : BitVec 9) (s : State) : (headerTaken w ck tag klen s).rvbuf = s.rvbuf := rfl
@[simp] theorem headerTaken_sink (w : Width) (ck : Bool) (tag : BitVec 4) (klen : BitVec 9) (s : State) : (headerTaken w ck tag klen s).sink = s.sink := rfl
@[simp] theorem headerTaken_sinkAnswers (w : Width) (ck : Bool) (tag : BitVec 4) (klen : BitVec 9) (s : State) : (headerTaken w ck tag klen s).sinkAnswers = s.sinkAnswers := rfl
@[simp] theorem headerTaken_sourceAnswers (w : Width) (ck : Bool) (tag : BitVec 4) (klen : BitVec 9) (s : State) : (headerTaken w ck tag klen s).sourceAnswers = s.sourceAnswers := rfl
@[simp] theorem headerTaken_requests (w : Width) (ck : Bool) (tag : BitVec 4) (klen : BitVec 9) (s : State) : (headerTaken w ck tag klen s).requests = s.requests := rfl
@[simp] theorem headerTaken_turns (w : Width) (ck : Bool) (tag : BitVec 4) (klen : BitVec 9) (s : State) : (headerTaken w ck tag klen s).turns = s.turns := rfl
@[simp] theorem headerTaken_ports (w : Width) (ck : Bool) (tag : BitVec 4) (klen : BitVec 9) (s : State) : (headerTaken w ck tag klen s).ports = s.ports := rfl
@[simp] theorem headerTaken_freeCount (w : Width) (ck : Bool) (tag : BitVec 4) (klen : BitVec 9) (s : State) : (headerTaken w ck tag klen s).freeCount = s.freeCount := rfl

/-! ### hwReset -/

@[simp] theorem hwReset_enc (s : State) : (hwReset s).enc = { EncState.reset with acc := s.encHash.init } := rfl
@[simp] theorem hwReset_dec (s : State) : (hwReset s).dec = { DecState.reset with acc := s.decHash.init } := rfl
@[simp] theorem hwReset_encHashEn (s : State) : (hwReset s).encHashEn = s.encHashEn := rfl
@[simp] theorem hwReset_decHashEn (s : State) : (hwReset s).decHashEn = s.decHashEn := rfl
@[simp] theorem hwReset_encHash (s : State) : (hwReset s).encHash = s.encHash := rfl
@[simp] theorem hwReset_decHash (s : State) : (hwReset s).decHash = s.decHash := rfl
@[simp] theorem hwReset_kbuf (s : State) : (hwReset s).kbuf = s.kbuf := rfl
@[simp] theorem hwReset_vbuf (s : State) : (hwReset s).vbuf = s.vbuf := rfl
@[simp] theorem hwReset_rkbuf (s : State) : (hwReset s).rkbuf = s.rkbuf := rfl
@[simp] theorem hwReset_rvbuf (s : State) : (hwReset s).rvbuf = s.rvbuf := rfl
@[simp] theorem hwReset_sink (s : State) : (hwReset s).sink = s.sink := rfl
@[simp] theorem hwReset_sinkAnswers (s : State) : (hwReset s).sinkAnswers = s.sinkAnswers := rfl
@[simp] theorem hwReset_sourceAnswers (s : State) : (hwReset s).sourceAnswers = s.sourceAnswers := rfl
@[simp] theorem hwReset_requests (s : State) : (hwReset s).requests = s.requests := rfl
@[simp] theorem hwReset_turns (s : State) : (hwReset s).turns = s.turns := rfl
@[simp] theorem hwReset_ports (s : State) : (hwReset s).ports = s.ports := rfl
@[simp] theorem hwReset_freeCount (s : State) : (hwReset s).freeCount = s.freeCount := rfl

/-! ### withPorts -/

@[simp] theorem withPorts_enc (f : PortOutputs → PortOutputs) (s : State) : (withPorts f s).enc = s.enc := rfl
@[simp] theorem withPorts_dec (f : PortOutputs → PortOutputs) (s : State) : (withPorts f s).dec = s.dec := rfl
@[simp] theorem withPorts_encHashEn (f : PortOutputs → PortOutputs) (s : State) : (withPorts f s).encHashEn = s.encHashEn := rfl
@[simp] theorem withPorts_decHashEn (f : PortOutputs → PortOutputs) (s : State) : (withPorts f s).decHashEn = s.decHashEn := rfl
@[simp] theorem withPorts_encHash (f : PortOutputs → PortOutputs) (s : State) : (withPorts f s).encHash = s.encHash := rfl
@[simp] theorem withPorts_decHash (f : PortOutputs → PortOutputs) (s : State) : (withPorts f s).decHash = s.decHash := rfl
@[simp] theorem withPorts_kbuf (f : PortOutputs → PortOutputs) (s : State) : (withPorts f s).kbuf = s.kbuf := rfl
@[simp] theorem withPorts_vbuf (f : PortOutputs → PortOutputs) (s : State) : (withPorts f s).vbuf = s.vbuf := rfl
@[simp] theorem withPorts_rkbuf (f : PortOutputs → PortOutputs) (s : State) : (withPorts f s).rkbuf = s.rkbuf := rfl
@[simp] theorem withPorts_rvbuf (f : PortOutputs → PortOutputs) (s : State) : (withPorts f s).rvbuf = s.rvbuf := rfl
@[simp] theorem withPorts_sink (f : PortOutputs → PortOutputs) (s : State) : (withPorts f s).sink = s.sink := rfl
@[simp] theorem withPorts_sinkAnswers (f : PortOutputs → PortOutputs) (s : State) : (withPorts f s).sinkAnswers = s.sinkAnswers := rfl
@[simp] theorem withPorts_sourceAnswers (f : PortOutputs → PortOutputs) (s : State) : (withPorts f s).sourceAnswers = s.sourceAnswers := rfl
@[simp] theorem withPorts_requests (f : PortOutputs → PortOutputs) (s : State) : (withPorts f s).requests = s.requests := rfl
@[simp] theorem withPorts_turns (f : PortOutputs → PortOutputs) (s : State) : (withPorts f s).turns = s.turns := rfl
@[simp] theorem withPorts_ports (f : PortOutputs → PortOutputs) (s : State) : (withPorts f s).ports = f s.ports := rfl
@[simp] theorem withPorts_freeCount (f : PortOutputs → PortOutputs) (s : State) : (withPorts f s).freeCount = s.freeCount := rfl

/-! ### withFreePorts -/

@[simp] theorem withFreePorts_enc (f : Nat → PortOutputs → PortOutputs) (s : State) : (withFreePorts f s).enc = s.enc := rfl
@[simp] theorem withFreePorts_dec (f : Nat → PortOutputs → PortOutputs) (s : State) : (withFreePorts f s).dec = s.dec := rfl
@[simp] theorem withFreePorts_encHashEn (f : Nat → PortOutputs → PortOutputs) (s : State) : (withFreePorts f s).encHashEn = s.encHashEn := rfl
@[simp] theorem withFreePorts_decHashEn (f : Nat → PortOutputs → PortOutputs) (s : State) : (withFreePorts f s).decHashEn = s.decHashEn := rfl
@[simp] theorem withFreePorts_encHash (f : Nat → PortOutputs → PortOutputs) (s : State) : (withFreePorts f s).encHash = s.encHash := rfl
@[simp] theorem withFreePorts_decHash (f : Nat → PortOutputs → PortOutputs) (s : State) : (withFreePorts f s).decHash = s.decHash := rfl
@[simp] theorem withFreePorts_kbuf (f : Nat → PortOutputs → PortOutputs) (s : State) : (withFreePorts f s).kbuf = s.kbuf := rfl
@[simp] theorem withFreePorts_vbuf (f : Nat → PortOutputs → PortOutputs) (s : State) : (withFreePorts f s).vbuf = s.vbuf := rfl
@[simp] theorem withFreePorts_rkbuf (f : Nat → PortOutputs → PortOutputs) (s : State) : (withFreePorts f s).rkbuf = s.rkbuf := rfl
@[simp] theorem withFreePorts_rvbuf (f : Nat → PortOutputs → PortOutputs) (s : State) : (withFreePorts f s).rvbuf = s.rvbuf := rfl
@[simp] theorem withFreePorts_sink (f : Nat → PortOutputs → PortOutputs) (s : State) : (withFreePorts f s).sink = s.sink := rfl
@[simp] theorem withFreePorts_sinkAnswers (f : Nat → PortOutputs → PortOutputs) (s : State) : (withFreePorts f s).sinkAnswers = s.sinkAnswers := rfl
@[simp] theorem withFreePorts_sourceAnswers (f : Nat → PortOutputs → PortOutputs) (s : State) : (withFreePorts f s).sourceAnswers = s.sourceAnswers := rfl
@[simp] theorem withFreePorts_requests (f : Nat → PortOutputs → PortOutputs) (s : State) : (withFreePorts f s).requests = s.requests := rfl
@[simp] theorem withFreePorts_turns (f : Nat → PortOutputs → PortOutputs) (s : State) : (withFreePorts f s).turns = s.turns := rfl
@[simp] theorem withFreePorts_ports (f : Nat → PortOutputs → PortOutputs) (s : State) : (withFreePorts f s).ports = f s.freeCount s.ports := rfl
@[simp] theorem withFreePorts_freeCount (f : Nat → PortOutputs → PortOutputs) (s : State) : (withFreePorts f s).freeCount = s.freeCount + 1 := rfl

/-! ### accepted -/

@[simp] theorem accepted_enc (n : Nat) (r : Request) (s : State) : (accepted n r s).enc = s.enc := rfl
@[simp] theorem accepted_dec (n : Nat) (r : Request) (s : State) : (accepted n r s).dec = s.dec := rfl
@[simp] theorem accepted_encHashEn (n : Nat) (r : Request) (s : State) : (accepted n r s).encHashEn = s.encHashEn := rfl
@[simp] theorem accepted_decHashEn (n : Nat) (r : Request) (s : State) : (accepted n r s).decHashEn = s.decHashEn := rfl
@[simp] theorem accepted_encHash (n : Nat) (r : Request) (s : State) : (accepted n r s).encHash = s.encHash := rfl
@[simp] theorem accepted_decHash (n : Nat) (r : Request) (s : State) : (accepted n r s).decHash = s.decHash := rfl
@[simp] theorem accepted_kbuf (n : Nat) (r : Request) (s : State) : (accepted n r s).kbuf = if r.port = .encCmd then r.kbuf else s.kbuf := rfl
@[simp] theorem accepted_vbuf (n : Nat) (r : Request) (s : State) : (accepted n r s).vbuf = if r.port = .encCmd then r.vbuf else s.vbuf := rfl
@[simp] theorem accepted_rkbuf (n : Nat) (r : Request) (s : State) : (accepted n r s).rkbuf = s.rkbuf := rfl
@[simp] theorem accepted_rvbuf (n : Nat) (r : Request) (s : State) : (accepted n r s).rvbuf = s.rvbuf := rfl
@[simp] theorem accepted_sink (n : Nat) (r : Request) (s : State) : (accepted n r s).sink = s.sink := rfl
@[simp] theorem accepted_sinkAnswers (n : Nat) (r : Request) (s : State) : (accepted n r s).sinkAnswers = s.sinkAnswers := rfl
@[simp] theorem accepted_sourceAnswers (n : Nat) (r : Request) (s : State) : (accepted n r s).sourceAnswers = s.sourceAnswers := rfl
@[simp] theorem accepted_requests (n : Nat) (r : Request) (s : State) : (accepted n r s).requests = s.requests.eraseIdx n := rfl
@[simp] theorem accepted_turns (n : Nat) (r : Request) (s : State) : (accepted n r s).turns = s.turns := rfl
@[simp] theorem accepted_ports (n : Nat) (r : Request) (s : State) : (accepted n r s).ports = s.ports := rfl
@[simp] theorem accepted_freeCount (n : Nat) (r : Request) (s : State) : (accepted n r s).freeCount = s.freeCount := rfl

end Sys2Proof.Machine
end

