-- ==== Sys2Proof/Laws/Invariant.lean ====
section
/-! SUPPORT. How to show the invariant of a state whose phase is known, and which fields it depends on. The clauses of the invariant
speak of every phase; a state is in one. -/

namespace Sys2Proof.Machine

/-- The encoder's invariant of a state in phase `p`. -/
theorem encInv_of_phase {t : State} (p : Phase) (hp : t.enc.phase = p.code) (hne : p ≠ .eos)
    (hidx : p.terminal = false → t.enc.idx.toNat ≤ encFieldLength t.enc p)
    (hlatched : p.transfers = true →
      t.enc.klen64.toNat ≤ 511 ∧ t.enc.vlen64.toNat < 4294967296 ∧
      t.enc.klen = t.enc.klen64.setWidth 9 ∧ t.enc.vlen = t.enc.vlen64.setWidth 32 ∧
      ∃ w, widthOf t.enc.vlen64 = some w ∧ t.enc.width = w.bits ∧ t.enc.hdr = pack w t.encHashEn t.enc.tag t.enc.klen)
    (hdigest : p = .checksum → t.encHashEn = true ∧
      t.enc.dig = t.encHash.dig (memBytes t.kbuf t.enc.klen.toNat ++ memBytes t.vbuf t.enc.vlen.toNat))
    (hacc : t.enc.acc = bif t.encHashEn then t.encHash.fold (encTransferred t p) else t.encHash.init)
    (hclear : (p = .validate ∨ p.transfers = true ∨ p = .done) →
      t.enc.status = Status.ok.code ∧ t.enc.errphase = 0 ∧ t.enc.expected = 0 ∧ t.enc.actual = 0)
    (hcontext : encContext t.enc) (hterminal : p = .error → t.enc.status ≠ Status.ok.code) : EncInv t := by
  have only : ∀ q : Phase, t.enc.phase = q.code → q = p := fun q hq => Phase.code_injective (hq.symm.trans hp)
  refine ⟨⟨p, hne, hp⟩, ?_, ?_, ?_, ?_, ?_, hcontext, ?_⟩
  · intro q hq; rw [only q hq]; exact hidx
  · intro q hq; rw [only q hq]; exact hlatched
  · intro hq; exact hdigest (only _ hq).symm
  · intro q hq; rw [only q hq]; exact hacc
  · intro q hq; rw [only q hq]; exact hclear
  · intro hq; exact hterminal (only _ hq).symm

/-- The decoder's invariant of a state in phase `p`. -/
theorem decInv_of_phase {t : State} (p : Phase) (hp : t.dec.phase = p.code) (hne : p ≠ .validate)
    (hidx : p.terminal = false → t.dec.idx.toNat ≤ decFieldLength t.dec p)
    (hlatched : p.afterHeader = true →
      t.dec.width = (unpack t.dec.hdr).width.bits ∧ t.dec.ck = (unpack t.dec.hdr).ck ∧
      t.dec.tag = (unpack t.dec.hdr).tag ∧ t.dec.klen = (unpack t.dec.hdr).klen)
    (hflagged : p = .checksum → t.dec.ck = true)
    (hacc : t.dec.acc = bif verifies t then t.decHash.fold (decTransferred t p) else t.decHash.init)
    (hclear : (p = .validate ∨ p.transfers = true ∨ p = .done) →
      t.dec.status = Status.ok.code ∧ t.dec.errphase = 0 ∧ t.dec.expected = 0 ∧ t.dec.actual = 0)
    (hcontext : decContext t.dec) (heos : p = .eos → t.dec.status = Status.endOfStream.code)
    (herror : p = .error → t.dec.status ≠ Status.ok.code ∧ t.dec.status ≠ Status.endOfStream.code)
    (hempty : (p.transfers = true ∨ p = .error ∨ p = .eos) → t.dec.rklen = 0 ∧ t.dec.rvlen = 0 ∧ t.dec.rtag = 0)
    (hresult : p = .done →
      t.dec.rklen = t.dec.klen ∧ t.dec.rvlen = t.dec.vlen ∧ t.dec.rtag = bif t.dec.op then t.dec.tag else 0) : DecInv t := by
  have only : ∀ q : Phase, t.dec.phase = q.code → q = p := fun q hq => Phase.code_injective (hq.symm.trans hp)
  refine ⟨⟨p, hne, hp⟩, ?_, ?_, ?_, ?_, ?_, hcontext, ⟨?_, ?_⟩, ⟨?_, ?_⟩⟩
  · intro q hq; rw [only q hq]; exact hidx
  · intro q hq; rw [only q hq]; exact hlatched
  · intro hq; exact hflagged (only _ hq).symm
  · intro q hq; rw [only q hq]; exact hacc
  · intro q hq; rw [only q hq]; exact hclear
  · intro hq; exact heos (only _ hq).symm
  · intro hq; exact herror (only _ hq).symm
  · intro q hq; rw [only q hq]; exact hempty
  · intro hq; exact hresult (only _ hq).symm

/-- The invariant leaves no unreachable phase. -/
theorem inv_phasesReachable {s : State} (h : Inv s) : phasesReachable s = true := by
  obtain ⟨p, hp, he⟩ := h.enc.phase
  obtain ⟨q, hq, hd⟩ := h.dec.phase
  have henc : encPhaseReachable s = true := by
    unfold encPhaseReachable; rw [he]; cases p <;> first | rfl | exact absurd rfl hp
  have hdec : decPhaseReachable s = true := by
    unfold decPhaseReachable; rw [hd]; cases q <;> first | rfl | exact absurd rfl hq
  simp [phasesReachable, henc, hdec]

/-- The encoder's invariant depends on its registers, its strap, its hash function and its operand buffers. -/
theorem encInv_congr {s t : State} (h : EncInv s) (he : t.enc = s.enc) (hh : t.encHashEn = s.encHashEn)
    (hf : t.encHash = s.encHash) (hk : t.kbuf = s.kbuf) (hv : t.vbuf = s.vbuf) : EncInv t := by
  obtain ⟨p, hne, hp⟩ := h.phase
  have htr : encTransferred t p = encTransferred s p := by
    cases p <;> simp only [encTransferred, he, hk, hv]
  refine encInv_of_phase p (by rw [he]; exact hp) hne ?_ ?_ ?_ ?_ ?_ (by rw [he]; exact h.context) ?_
  · rw [he]; exact h.idx p hp
  · rw [he, hh]; exact h.latched p hp
  · intro hc; subst hc; rw [he, hh, hf, hk, hv]; exact h.digest hp
  · rw [he, hh, hf, htr]; exact h.accumulated p hp
  · rw [he]; exact h.clear p hp
  · intro hc; subst hc; rw [he]; exact h.terminal hp

/-- The decoder's invariant depends on its registers, its strap, its hash function and its result buffers. -/
theorem decInv_congr {s t : State} (h : DecInv s) (hd : t.dec = s.dec) (hh : t.decHashEn = s.decHashEn)
    (hf : t.decHash = s.decHash) (hk : t.rkbuf = s.rkbuf) (hv : t.rvbuf = s.rvbuf) : DecInv t := by
  obtain ⟨p, hne, hp⟩ := h.phase
  have htr : decTransferred t p = decTransferred s p := by
    cases p <;> simp only [decTransferred, hd, hk, hv]
  have hver : verifies t = verifies s := by
    simp only [verifies, hd, hh]
  refine decInv_of_phase p (by rw [hd]; exact hp) hne ?_ ?_ ?_ ?_ ?_ (by rw [hd]; exact h.context) ?_ ?_ ?_ ?_
  · rw [hd]; exact h.idx p hp
  · rw [hd]; exact h.latched p hp
  · intro hc; subst hc; rw [hd]; exact h.flagged hp
  · rw [hd, hver, hf, htr]; exact h.accumulated p hp
  · rw [hd]; exact h.clear p hp
  · intro hc; subst hc; rw [hd]; exact h.terminal.1 hp
  · intro hc; subst hc; rw [hd]; exact h.terminal.2 hp
  · rw [hd]; exact h.results.1 p hp
  · intro hc; subst hc; rw [hd]; exact h.results.2 hp

end Sys2Proof.Machine
end

