-- ==== Sys2Proof/Laws/PerInstr.lean ====
section
/-! SUPPORT. A property of every instruction as syntax, one lemma for each constructor: what `encode` puts on a port uses only the
port's wires. -/

namespace Sys2Proof.Laws.EncodeFits

/-- The word of an instruction has no bit above the wires of its port (R114, R115, R116, log entry 7). A header word has no port. -/
def Statement (i : Instr) : Prop :=
  match encode i with
  | .header _ => True
  | .request p w => w >>> p.bits = 0#133

/-- A value of at most `n` bits has no bit at or above `n`. -/
theorem shift_out {m n : Nat} (h : m ≤ n) (v : BitVec m) : (v.setWidth 133 : RequestWord) >>> n = 0#133 := by
  apply BitVec.eq_of_toNat_eq
  rw [BitVec.toNat_ushiftRight, Nat.shiftRight_eq_div_pow, BitVec.toNat_setWidth]
  refine Nat.div_eq_of_lt (Nat.lt_of_le_of_lt (Nat.mod_le _ _) ?_)
  exact Nat.lt_of_lt_of_le v.isLt (Nat.pow_le_pow_right (by decide) h)

theorem frameW1 (tag : BitVec 4) (klen : BitVec 9) : Statement (.frameW1 tag klen) := trivial

theorem frameW1C (tag : BitVec 4) (klen : BitVec 9) : Statement (.frameW1C tag klen) := trivial

theorem frameW2 (tag : BitVec 4) (klen : BitVec 9) : Statement (.frameW2 tag klen) := trivial

theorem frameW2C (tag : BitVec 4) (klen : BitVec 9) : Statement (.frameW2C tag klen) := trivial

theorem frameW3 (tag : BitVec 4) (klen : BitVec 9) : Statement (.frameW3 tag klen) := trivial

theorem frameW3C (tag : BitVec 4) (klen : BitVec 9) : Statement (.frameW3C tag klen) := trivial

theorem frameW4 (tag : BitVec 4) (klen : BitVec 9) : Statement (.frameW4 tag klen) := trivial

theorem frameW4C (tag : BitVec 4) (klen : BitVec 9) : Statement (.frameW4C tag klen) := trivial

theorem encodeTagged (tag : BitVec 4) (klen vlen : BitVec 64) : Statement (.encodeTagged tag klen vlen) := by
  have h := shift_out (Nat.le_refl 133) (encCmdWord true tag klen vlen)
  rwa [BitVec.setWidth_eq] at h

theorem encode (tag : BitVec 4) (klen vlen : BitVec 64) : Statement (.encode tag klen vlen) := by
  have h := shift_out (Nat.le_refl 133) (encCmdWord false tag klen vlen)
  rwa [BitVec.setWidth_eq] at h

theorem decodeTagged : Statement .decodeTagged := shift_out (Nat.le_refl 1) 1#1

theorem decode : Statement .decode := shift_out (Nat.le_refl 1) 0#1

theorem encRetire : Statement .encRetire := shift_out (Nat.le_refl 0) 0#0

theorem decRetire : Statement .decRetire := shift_out (Nat.le_refl 0) 0#0

theorem hdrPack (width : BitVec 3) (c : Bool) (t : BitVec 4) (k : BitVec 9) : Statement (.hdrPack width c t k) :=
  shift_out (Nat.le_refl 17) (width ++ BitVec.ofBool c ++ t ++ k)

theorem hdrUnpack (h : BitVec 16) : Statement (.hdrUnpack h) := shift_out (Nat.le_refl 16) h

theorem widthOf (l : BitVec 64) : Statement (.widthOf l) := shift_out (Nat.le_refl 64) l

theorem wcEnc (width : BitVec 3) : Statement (.wcEnc width) := shift_out (Nat.le_refl 3) width

theorem wcDec (wc : BitVec 2) : Statement (.wcDec wc) := shift_out (Nat.le_refl 2) wc

theorem lenEmit (width : Width) (l : BitVec 32) : Statement (.lenEmit width l) := shift_out (Nat.le_refl 35) (width.bits ++ l)

theorem lenAssemble (bytes : List Byte) : Statement (.lenAssemble bytes) :=
  shift_out (Nat.le_refl 35) (countBits bytes ++ requestPlaces bytes)

end Sys2Proof.Laws.EncodeFits
end

