-- ==== Sys2Proof/Laws/Units.lean ====
section
/-! SUPPORT. Everything a turn of each agent can do, said once: `EncMove`, `DecMove`, `RequesterMove` and `Move` list the cases, and
the lemmas `encTurn_move`, `decTurn_move`, `requesterTurn_move`, `step_move` say that there are no others. A proof about all steps is a
case analysis of these. -/

namespace Sys2Proof.Machine

/-! ### The encoder -/

/-- The byte an encoder phase pushes next. -/
def encNextByte (s : State) : Phase → Byte
  | .header => headerByte s.enc.hdr s.enc.idx.toNat
  | .length => beByte s.enc.width.toNat s.enc.vlen s.enc.idx.toNat
  | .key => memRead s.kbuf s.enc.idx.toNat
  | .value => memRead s.vbuf s.enc.idx.toNat
  | .checksum => beByte 4 s.enc.dig s.enc.idx.toNat
  | _ => 0

/-- The accumulator after that byte: only key and value bytes are hashed (R236). -/
def encNextAcc (s : State) : Phase → Nat
  | .key => encHashed (encNextByte s .key) s
  | .value => encHashed (encNextByte s .value) s
  | _ => s.enc.acc

/-- The cases of an encoder turn that has a next state. -/
inductive EncMove (s : State) : State → Prop where
  /-- No step of its own in `IDLE`, `DONE`, `ERROR` (R180). -/
  | rests (p : Phase) (hp : s.enc.phase = p.code) (hr : p = .idle ∨ p = .done ∨ p = .error) : EncMove s s
  /-- The `VALIDATE` step (R164 to R166). -/
  | validates (hp : s.enc.phase = Phase.validate.code) : EncMove s (encValidate s)
  /-- A push not yet answered (R68). -/
  | waits (p : Phase) (hp : s.enc.phase = p.code) (ht : p.transfers = true) (hi : s.enc.idx.toNat < encFieldLength s.enc p)
      (ha : s.sinkAnswers = []) : EncMove s s
  /-- A push answered `Ok` (R167, R169, R171, R173, R175). -/
  | pushes (p : Phase) (rest : List SinkAnswer) (hp : s.enc.phase = p.code) (ht : p.transfers = true)
      (hi : s.enc.idx.toNat < encFieldLength s.enc p) (ha : s.sinkAnswers = .ok :: rest) :
      EncMove s (encPushed (encNextAcc s p) (encNextByte s p) rest s)
  /-- A push answered `Err` (R178). -/
  | fails (p : Phase) (rest : List SinkAnswer) (hp : s.enc.phase = p.code) (ht : p.transfers = true)
      (hi : s.enc.idx.toNat < encFieldLength s.enc p) (ha : s.sinkAnswers = .err :: rest) :
      EncMove s (encRaise .ioFailure p (BitVec.ofNat 64 (encFieldLength s.enc p)) (zext64 s.enc.idx) { s with sinkAnswers := rest })
  /-- The advances of `HEADER`, `LENGTH` and `KEY` (R168, R170, R172). -/
  | advances (p q : Phase) (hp : s.enc.phase = p.code)
      (hq : (p = .header ∧ q = .length) ∨ (p = .length ∧ q = .key) ∨ (p = .key ∧ q = .value))
      (hi : s.enc.idx.toNat = encFieldLength s.enc p) : EncMove s (encAdvance q s)
  /-- The `VALUE` advance (R174). -/
  | valueEnds (hp : s.enc.phase = Phase.value.code) (hi : s.enc.idx.toNat = s.enc.vlen.toNat) : EncMove s (encValueAdvance s)
  /-- The `CHECKSUM` advance (R176). -/
  | completes (hp : s.enc.phase = Phase.checksum.code) (hi : s.enc.idx.toNat = 4) : EncMove s (encComplete s)

theorem zext64_eq_ofNat {n : Nat} (v : BitVec n) : zext64 v = BitVec.ofNat 64 v.toNat := by
  simp [zext64]

/-- A byte step of the encoder is a wait, an accepted push or a refused one. -/
theorem encPush_move {s : State} (p : Phase) (hp : s.enc.phase = p.code) (ht : p.transfers = true)
    (hi : s.enc.idx.toNat < encFieldLength s.enc p) :
    EncMove s (encPush p (BitVec.ofNat 64 (encFieldLength s.enc p)) (encNextAcc s p) (encNextByte s p) s) := by
  unfold encPush
  split
  · next ha => exact .waits p hp ht hi ha
  · next rest ha => exact .pushes p rest hp ht hi ha
  · next rest ha => exact .fails p rest hp ht hi ha

/-- A field of the encoder: below its end the byte step, at its end the advance. -/
theorem encField_next {n : Nat} {b a : Host.Outcome State Fault Refusal} {s t : State} (h : encField n b a s = .next t) :
    (s.enc.idx.toNat < n ∧ b = .next t) ∨ (s.enc.idx.toNat = n ∧ a = .next t) := by
  unfold encField at h
  split at h
  · next hi => exact .inl ⟨hi, h⟩
  · split at h
    · next hi => exact .inr ⟨hi, h⟩
    · cases h

theorem encKeyByte_next {s t : State} (h : encKeyByte s = .next t) :
    t = encPush .key (zext64 s.enc.klen) (encHashed (memRead s.kbuf s.enc.idx.toNat) s) (memRead s.kbuf s.enc.idx.toNat) s := by
  unfold encKeyByte at h
  split at h
  · cases h; rfl
  · cases h

theorem encValueByte_next {s t : State} (h : encValueByte s = .next t) :
    t = encPush .value (zext64 s.enc.vlen) (encHashed (memRead s.vbuf s.enc.idx.toNat) s) (memRead s.vbuf s.enc.idx.toNat) s := by
  unfold encValueByte at h
  split at h
  · cases h; rfl
  · cases h

/-- An encoder turn does one of the moves of `EncMove`. -/
theorem encTurn_move {s t : State} (h : encTurn s = .next t) : EncMove s t := by
  unfold encTurn at h
  cases hc : Phase.ofCode s.enc.phase with
  | none => rw [hc] at h; cases h
  | some p =>
    have hp := Phase.eq_code_of_ofCode hc
    rw [hc] at h
    cases p with
    | idle => cases h; exact .rests .idle hp (by simp)
    | validate => cases h; exact .validates hp
    | header =>
      rcases encField_next h with ⟨hi, ht⟩ | ⟨hi, ht⟩
      · cases ht; exact encPush_move .header hp rfl hi
      · cases ht; exact .advances .header .length hp (by simp) hi
    | length =>
      rcases encField_next h with ⟨hi, ht⟩ | ⟨hi, ht⟩
      · cases ht
        unfold encLengthByte
        rw [zext64_eq_ofNat]
        exact encPush_move .length hp rfl hi
      · cases ht; exact .advances .length .key hp (by simp) hi
    | key =>
      rcases encField_next h with ⟨hi, ht⟩ | ⟨hi, ht⟩
      · rw [encKeyByte_next ht, zext64_eq_ofNat]
        exact encPush_move .key hp rfl hi
      · cases ht; exact .advances .key .value hp (by simp) hi
    | value =>
      rcases encField_next h with ⟨hi, ht⟩ | ⟨hi, ht⟩
      · rw [encValueByte_next ht, zext64_eq_ofNat]
        exact encPush_move .value hp rfl hi
      · cases ht; exact .valueEnds hp hi
    | checksum =>
      rcases encField_next h with ⟨hi, ht⟩ | ⟨hi, ht⟩
      · cases ht; exact encPush_move .checksum hp rfl hi
      · cases ht; exact .completes hp hi
    | done => cases h; exact .rests .done hp (by simp)
    | error => cases h; exact .rests .error hp (by simp)
    | eos => cases h

/-- The three ways `VALIDATE` rejects a command and the one way it accepts it (R164, R165, R166). -/
theorem encValidate_cases (s : State) :
    (511 < s.enc.klen64.toNat ∧ encValidate s = encRaise .keyTooLong .validate 511#64 s.enc.klen64 s) ∨
    (s.enc.klen64.toNat ≤ 511 ∧ 4294967296 < s.enc.vlen64.toNat ∧
      encValidate s = encRaise .valueTooLong .validate 4294967296#64 s.enc.vlen64 s) ∨
    (s.enc.klen64.toNat ≤ 511 ∧ s.enc.vlen64.toNat = 4294967296 ∧
      encValidate s = encRaise .outOfRange .validate 4294967295#64 s.enc.vlen64 s) ∨
    (s.enc.klen64.toNat ≤ 511 ∧ s.enc.vlen64.toNat < 4294967296 ∧
      ∃ w, widthOf s.enc.vlen64 = some w ∧ encValidate s = encAccepted w s) := by
  unfold encValidate
  by_cases hk : 511 < s.enc.klen64.toNat
  · exact .inl ⟨hk, if_pos hk⟩
  · rw [if_neg hk]
    refine .inr ?_
    by_cases hv : 4294967296 < s.enc.vlen64.toNat
    · exact .inl ⟨by omega, hv, if_pos hv⟩
    · rw [if_neg hv]
      refine .inr ?_
      have hn : widthOf s.enc.vlen64 = none ↔ 4294967296 ≤ s.enc.vlen64.toNat := by
        unfold widthOf
        repeat' split
        all_goals simp
        all_goals omega
      cases hw : widthOf s.enc.vlen64 with
      | none => exact .inl ⟨by omega, by have := hn.mp hw; omega, rfl⟩
      | some w =>
        refine .inr ⟨by omega, ?_, w, rfl, rfl⟩
        by_contra hc
        rw [hn.mpr (by omega)] at hw
        cases hw

/-- The two ends of the `VALUE` phase (R174). -/
theorem encValueAdvance_cases (s : State) :
    (s.encHashEn = true ∧
      encValueAdvance s = encAdvance .checksum { s with enc := { s.enc with dig := s.encHash.final s.enc.acc } }) ∨
    (s.encHashEn = false ∧ encValueAdvance s = encComplete s) := by
  unfold encValueAdvance
  cases h : s.encHashEn
  · exact .inr ⟨rfl, rfl⟩
  · exact .inl ⟨rfl, rfl⟩

/-! ### The decoder -/

/-- What a received byte does in a decoder phase (R193, R197, R200, R203, R206, R207). -/
def decTakeByte : Phase → Byte → State → State
  | .header => takeHeaderByte
  | .length => takeLengthByte
  | .key => takeKeyByte
  | .value => takeValueByte
  | .checksum => takeChecksumByte
  | _ => fun _ s => s

/-- The cases of a decoder turn that has a next state. -/
inductive DecMove (s : State) : State → Prop where
  /-- No step of its own in `IDLE`, `DONE`, `ERROR`, `EOS` (R215). -/
  | rests (p : Phase) (hp : s.dec.phase = p.code) (hr : p = .idle ∨ p = .done ∨ p = .error ∨ p = .eos) : DecMove s s
  /-- A pull not yet answered (R68). -/
  | waits (p : Phase) (hp : s.dec.phase = p.code) (ht : p.transfers = true) (hi : s.dec.idx.toNat < decFieldLength s.dec p)
      (ha : s.sourceAnswers = []) : DecMove s s
  /-- A pull answered `Byte(b)`. -/
  | takes (p : Phase) (b : Byte) (rest : List SourceAnswer) (hp : s.dec.phase = p.code) (ht : p.transfers = true)
      (hi : s.dec.idx.toNat < decFieldLength s.dec p) (ha : s.sourceAnswers = .byte b :: rest) :
      DecMove s (decTakeByte p b { s with sourceAnswers := rest })
  /-- A pull answered `Eos` (R194, R195, R198, R201, R204, R208). -/
  | ends (p : Phase) (rest : List SourceAnswer) (hp : s.dec.phase = p.code) (ht : p.transfers = true)
      (hi : s.dec.idx.toNat < decFieldLength s.dec p) (ha : s.sourceAnswers = .eos :: rest) :
      DecMove s (eosRaise p (BitVec.ofNat 64 (decFieldLength s.dec p)) { s with sourceAnswers := rest })
  /-- A pull answered `Err` (R212). -/
  | fails (p : Phase) (rest : List SourceAnswer) (hp : s.dec.phase = p.code) (ht : p.transfers = true)
      (hi : s.dec.idx.toNat < decFieldLength s.dec p) (ha : s.sourceAnswers = .err :: rest) :
      DecMove s (decRaise .ioFailure p (BitVec.ofNat 64 (decFieldLength s.dec p)) (zext64 s.dec.idx) { s with sourceAnswers := rest })
  /-- The `HEADER` advance (R196). -/
  | takesHeader (hr : headerReady s = true) : DecMove s (decHeaderAdvance s)
  /-- The advances of `LENGTH` and `KEY` (R199, R202). -/
  | advances (p q : Phase) (hp : s.dec.phase = p.code) (hq : (p = .length ∧ q = .key) ∨ (p = .key ∧ q = .value))
      (hi : s.dec.idx.toNat = decFieldLength s.dec p) : DecMove s (decAdvance q s)
  /-- The `VALUE` advance (R205). -/
  | valueEnds (hp : s.dec.phase = Phase.value.code) (hi : s.dec.idx.toNat = s.dec.vlen.toNat) : DecMove s (decValueAdvance s)
  /-- The `CHECKSUM` advance (R209, R210, R211). -/
  | checks (hp : s.dec.phase = Phase.checksum.code) (hi : s.dec.idx.toNat = 4) : DecMove s (decChecksumAdvance s)

/-- A byte step of the decoder is a wait, a byte, an end of stream or a failure. -/
theorem decPull_move {s : State} (p : Phase) (hp : s.dec.phase = p.code) (ht : p.transfers = true)
    (hi : s.dec.idx.toNat < decFieldLength s.dec p) :
    DecMove s (decPull p (BitVec.ofNat 64 (decFieldLength s.dec p)) (decTakeByte p) s) := by
  unfold decPull
  split
  · next ha => exact .waits p hp ht hi ha
  · next b rest ha => exact .takes p b rest hp ht hi ha
  · next rest ha => exact .ends p rest hp ht hi ha
  · next rest ha => exact .fails p rest hp ht hi ha

/-- A field of the decoder: below its end the byte step, at its end the advance. -/
theorem decField_next {n : Nat} {b a s t : State} (h : decField n b a s = .next t) :
    (s.dec.idx.toNat < n ∧ t = b) ∨ (s.dec.idx.toNat = n ∧ t = a) := by
  unfold decField at h
  split at h
  · next hi => cases h; exact .inl ⟨hi, rfl⟩
  · split at h
    · next hi => cases h; exact .inr ⟨hi, rfl⟩
    · cases h

theorem headerReady_iff (s : State) : headerReady s = true ↔ s.dec.phase = Phase.header.code ∧ s.dec.idx = 2#32 := by
  simp [headerReady]

/-- A step of the decoder does one of the moves of `DecMove`. -/
theorem decStep_move {s t : State} (h : decStep s = .next t) : DecMove s t := by
  unfold decStep at h
  cases hc : Phase.ofCode s.dec.phase with
  | none => rw [hc] at h; cases h
  | some p =>
    have hp := Phase.eq_code_of_ofCode hc
    rw [hc] at h
    cases p with
    | idle => cases h; exact .rests .idle hp (by simp)
    | validate => cases h
    | header =>
      rcases decField_next h with ⟨hi, ht⟩ | ⟨hi, ht⟩
      · cases ht; exact decPull_move .header hp rfl hi
      · cases ht
        exact .takesHeader ((headerReady_iff s).mpr ⟨hp, BitVec.eq_of_toNat_eq hi⟩)
    | length =>
      rcases decField_next h with ⟨hi, ht⟩ | ⟨hi, ht⟩
      · cases ht; rw [zext64_eq_ofNat]; exact decPull_move .length hp rfl hi
      · cases ht; exact .advances .length .key hp (by simp) hi
    | key =>
      rcases decField_next h with ⟨hi, ht⟩ | ⟨hi, ht⟩
      · cases ht; rw [zext64_eq_ofNat]; exact decPull_move .key hp rfl hi
      · cases ht; exact .advances .key .value hp (by simp) hi
    | value =>
      rcases decField_next h with ⟨hi, ht⟩ | ⟨hi, ht⟩
      · cases ht; rw [zext64_eq_ofNat]; exact decPull_move .value hp rfl hi
      · cases ht; exact .valueEnds hp hi
    | checksum =>
      rcases decField_next h with ⟨hi, ht⟩ | ⟨hi, ht⟩
      · cases ht; exact decPull_move .checksum hp rfl hi
      · cases ht; exact .checks hp hi
    | done => cases h; exact .rests .done hp (by simp)
    | error => cases h; exact .rests .error hp (by simp)
    | eos => cases h; exact .rests .eos hp (by simp)

/-- The two ends of the `VALUE` phase (R205). -/
theorem decValueAdvance_cases (s : State) :
    (s.dec.ck = true ∧ decValueAdvance s = decAdvance .checksum { s with dec := { s.dec with digrx := 0 } }) ∨
    (s.dec.ck = false ∧ decValueAdvance s = decComplete s) := by
  unfold decValueAdvance
  cases h : s.dec.ck
  · exact .inr ⟨rfl, rfl⟩
  · exact .inl ⟨rfl, rfl⟩

/-- The two ends of the `CHECKSUM` phase (R209, R210, R211). -/
theorem decChecksumAdvance_cases (s : State) :
    ((s.decHashEn = false ∨ s.decHash.final s.dec.acc = s.dec.digrx) ∧ decChecksumAdvance s = decComplete s) ∨
    (s.decHashEn = true ∧ s.decHash.final s.dec.acc ≠ s.dec.digrx ∧
      decChecksumAdvance s = decRaise .checksumMismatch .checksum 0 0 s) := by
  unfold decChecksumAdvance
  cases h : s.decHashEn
  · exact .inl ⟨.inl rfl, rfl⟩
  · by_cases hd : s.decHash.final s.dec.acc = s.dec.digrx
    · exact .inl ⟨.inr hd, by simp [hd]⟩
    · exact .inr ⟨rfl, hd, by simp [hd]⟩

/-- The two statuses of an `Eos` answer (R194, R255). -/
theorem eosRaise_cases (p : Phase) (n : BitVec 64) (s : State) :
    (p = .header ∧ s.dec.idx = 0 ∧ eosRaise p n s = decRaise .endOfStream .header 0 0 s) ∨
    (¬(p = .header ∧ s.dec.idx = 0) ∧ eosRaise p n s = decRaise .truncatedStream p n (zext64 s.dec.idx) s) := by
  unfold eosRaise
  by_cases h : p = .header ∧ s.dec.idx = 0
  · exact .inl ⟨h.1, h.2, if_pos h⟩
  · exact .inr ⟨h, if_neg h⟩

/-! ### Instructions -/

theorem takeHeader_next {w : Width} {ck : Bool} {tag : BitVec 4} {klen : BitVec 9} {s t : State}
    (h : takeHeader w ck tag klen s = .next t) : headerReady s = true ∧ t = headerTaken w ck tag klen s := by
  unfold takeHeader at h
  split at h
  · next hr => cases h; exact ⟨hr, rfl⟩
  · cases h

theorem encIssue_next {op : Bool} {tag : BitVec 4} {klen vlen : BitVec 64} {s t : State}
    (h : encIssue op tag klen vlen s = .next t) : s.enc.phase = Phase.idle.code ∧ t = encLatch op tag klen vlen s := by
  unfold encIssue at h
  split at h
  · cases h
  · next hl => cases h; exact ⟨by simpa [encLocked] using hl, rfl⟩

theorem decIssue_next {op : Bool} {s t : State} (h : decIssue op s = .next t) :
    s.dec.phase = Phase.idle.code ∧ t = decLatch op s := by
  unfold decIssue at h
  split at h
  · cases h
  · next hl => cases h; exact ⟨by simpa [decLocked] using hl, rfl⟩

theorem execEncRetire_next {s t : State} (h : execEncRetire s = .next t) :
    (s.enc.phase = Phase.done.code ∨ s.enc.phase = Phase.error.code) ∧ t = encFree s := by
  unfold execEncRetire at h
  split at h
  · next ht => cases h; exact ⟨by simpa [encTerminal] using ht, rfl⟩
  · cases h

theorem execDecRetire_next {s t : State} (h : execDecRetire s = .next t) :
    (s.dec.phase = Phase.done.code ∨ s.dec.phase = Phase.error.code ∨ s.dec.phase = Phase.eos.code) ∧ t = decFree s := by
  unfold execDecRetire at h
  split at h
  · next ht => cases h; exact ⟨by simpa [decTerminal, or_assoc] using ht, rfl⟩
  · cases h

/-- What executing an instruction can do, one case for each shape. -/
inductive ExecMove (s : State) : State → Prop where
  /-- A frame's header is taken (R196, R101 to R108). -/
  | header (w : Width) (ck : Bool) (tag : BitVec 4) (klen : BitVec 9) (hr : headerReady s = true) :
      ExecMove s (headerTaken w ck tag klen s)
  /-- ENC.ISSUE (R160). -/
  | encIssues (op : Bool) (tag : BitVec 4) (klen vlen : BitVec 64) (hp : s.enc.phase = Phase.idle.code) :
      ExecMove s (encLatch op tag klen vlen s)
  /-- DEC.ISSUE (R190). -/
  | decIssues (op : Bool) (hp : s.dec.phase = Phase.idle.code) : ExecMove s (decLatch op s)
  /-- ENC.RETIRE (R181). -/
  | encRetires (hp : s.enc.phase = Phase.done.code ∨ s.enc.phase = Phase.error.code) : ExecMove s (encFree s)
  /-- DEC.RETIRE (R219). -/
  | decRetires (hp : s.dec.phase = Phase.done.code ∨ s.dec.phase = Phase.error.code ∨ s.dec.phase = Phase.eos.code) :
      ExecMove s (decFree s)
  /-- A combinational port (R130, R140). -/
  | ports (p : PortOutputs) (n : Nat) : ExecMove s { s with ports := p, freeCount := n }

theorem takeHeader_move {w : Width} {ck : Bool} {tag : BitVec 4} {klen : BitVec 9} {s t : State}
    (h : takeHeader w ck tag klen s = .next t) : ExecMove s t := by
  obtain ⟨hr, rfl⟩ := takeHeader_next h
  exact .header w ck tag klen hr

/-- Executing an instruction does one of the moves of `ExecMove`. -/
theorem exec_move {i : Instr} {s t : State} (h : exec i s = .next t) : ExecMove s t := by
  cases i with
  | frameW1 tag klen => exact takeHeader_move h
  | frameW1C tag klen => exact takeHeader_move h
  | frameW2 tag klen => exact takeHeader_move h
  | frameW2C tag klen => exact takeHeader_move h
  | frameW3 tag klen => exact takeHeader_move h
  | frameW3C tag klen => exact takeHeader_move h
  | frameW4 tag klen => exact takeHeader_move h
  | frameW4C tag klen => exact takeHeader_move h
  | encodeTagged tag klen vlen => obtain ⟨hp, rfl⟩ := encIssue_next h; exact .encIssues true tag klen vlen hp
  | encode tag klen vlen => obtain ⟨hp, rfl⟩ := encIssue_next h; exact .encIssues false tag klen vlen hp
  | decodeTagged => obtain ⟨hp, rfl⟩ := decIssue_next h; exact .decIssues true hp
  | decode => obtain ⟨hp, rfl⟩ := decIssue_next h; exact .decIssues false hp
  | encRetire => obtain ⟨hp, rfl⟩ := execEncRetire_next h; exact .encRetires hp
  | decRetire => obtain ⟨hp, rfl⟩ := execDecRetire_next h; exact .decRetires hp
  | hdrPack width c t k =>
    simp only [exec, execHdrPack] at h
    split at h <;> cases h
    · exact .ports _ s.freeCount
    · exact .ports _ (s.freeCount + 1)
  | hdrUnpack h' => cases h; exact .ports _ s.freeCount
  | widthOf l =>
    simp only [exec, execWidthOf] at h
    split at h <;> cases h
    · exact .ports _ s.freeCount
    · exact .ports _ (s.freeCount + 1)
  | wcEnc width =>
    simp only [exec, execWcEnc] at h
    split at h <;> cases h
    · exact .ports _ s.freeCount
    · exact .ports _ (s.freeCount + 1)
  | wcDec wc => cases h; exact .ports _ s.freeCount
  | lenEmit width l => cases h; exact .ports _ s.freeCount
  | lenAssemble bytes =>
    simp only [exec, execLenAssemble] at h
    split at h <;> cases h
    exact .ports _ s.freeCount

/-- Executing the decoded header word is the header advance by its own fields. -/
theorem exec_decodeHeader_next {s t : State} (h : exec (decodeHeader s.dec.hdr) s = .next t) :
    headerReady s = true ∧ ∃ w ck tag klen, t = headerTaken w ck tag klen s := by
  have frame : ∀ w ck tag klen, takeHeader w ck tag klen s = .next t →
      headerReady s = true ∧ ∃ w ck tag klen, t = headerTaken w ck tag klen s := by
    intro w ck tag klen ht
    obtain ⟨hr, rfl⟩ := takeHeader_next ht
    exact ⟨hr, w, ck, tag, klen, rfl⟩
  unfold decodeHeader at h
  split at h <;> exact frame _ _ _ _ h

/-! ### Turns and steps -/

/-- The cases of a requester's turn that has a next state. -/
inductive RequesterMove (n : Nat) (s : State) : State → Prop where
  /-- Nobody waits there. -/
  | absent (hn : s.requests[n]? = none) : RequesterMove n s s
  /-- The request's step is not enabled: the requester waits (R83). -/
  | waits (r : Request) (i : Instr) (hn : s.requests[n]? = some r) (hd : decode (.request r.port r.word) = .ok i)
      (he : enabled i s = false) : RequesterMove n s s
  /-- The request is served. -/
  | runs (r : Request) (i : Instr) (t : State) (hn : s.requests[n]? = some r)
      (hd : decode (.request r.port r.word) = .ok i) (he : enabled i s = true) (hx : exec i (accepted n r s) = .next t) :
      RequesterMove n s t

/-- A requester's turn does one of the moves of `RequesterMove`. -/
theorem requesterTurn_move {n : Nat} {s t : State} (h : requesterTurn n s = .next t) : RequesterMove n s t := by
  unfold requesterTurn at h
  split at h
  · next hn => cases h; exact .absent hn
  · next r hn =>
    unfold serve at h
    split at h
    · cases h
    · next i hd =>
      split at h
      · next he => exact .runs r i t hn hd he h
      · next he => cases h; exact .waits r i hn hd (by simpa using he)

/-! ### Unreachable phases (R40 (a)) -/

theorem phasesReachable_iff {s : State} :
    phasesReachable s = true ↔ encPhaseReachable s = true ∧ decPhaseReachable s = true := by
  simp [phasesReachable]

@[simp] theorem phasesReachable_turns (s : State) (ts : List Agent) :
    phasesReachable { s with turns := ts } = phasesReachable s := rfl

@[simp] theorem phasesReachable_withTurns (n : Nat) (a : Agent) (ts : List Agent) (s : State) :
    phasesReachable (withTurns n a ts s) = phasesReachable s := rfl

/-- Where both phases are reachable a step is the turn of the agent that is next. -/
theorem step_of_reachable {s : State} (h : phasesReachable s = true) : step s = takeTurn s := by
  obtain ⟨he, hd⟩ := phasesReachable_iff.mp h
  simp [step, nextTurn, he, hd]

/-- Where one is not, no agent has a step. -/
theorem step_of_unreachable {s : State} (h : phasesReachable s = false) :
    step s = .refused .encPhaseUnreachable ∨ step s = .refused .decPhaseUnreachable := by
  cases he : encPhaseReachable s
  · exact .inl (by simp [step, nextTurn, he])
  · cases hd : decPhaseReachable s
    · exact .inr (by simp [step, nextTurn, he, hd])
    · simp [phasesReachable, he, hd] at h

/-- A step that has a next state is the turn of the agent that is next, in a state with reachable phases. -/
theorem step_next_iff {s t : State} : step s = .next t ↔ phasesReachable s = true ∧ takeTurn s = .next t := by
  cases h : phasesReachable s
  · obtain hs | hs := step_of_unreachable h <;> simp [hs]
  · simp [step_of_reachable h]

/-- Everything a step can do. -/
inductive Move (s : State) : State → Prop where
  /-- Nobody's turn. -/
  | still (ht : s.turns = []) : Move s s
  /-- The encoder's turn. -/
  | enc (rest : List Agent) (t : State) (ht : s.turns = .enc :: rest) (hm : EncMove { s with turns := rest } t) : Move s t
  /-- The decoder's turn, by its own step. -/
  | dec (rest : List Agent) (t : State) (ht : s.turns = .dec :: rest)
      (hr : headerReady { s with turns := rest } = false) (hm : DecMove { s with turns := rest } t) : Move s t
  /-- The decoder's turn, by executing the header word it holds. -/
  | header (rest : List Agent) (t : State) (ht : s.turns = .dec :: rest) (hr : headerReady { s with turns := rest } = true)
      (hx : exec (decodeHeader s.dec.hdr) { s with turns := rest } = .next t) : Move s t
  /-- A requester's turn. -/
  | requester (n : Nat) (rest : List Agent) (t : State) (ht : s.turns = .requester n :: rest)
      (hm : RequesterMove n { s with turns := rest } t) : Move s t
  /-- Hardware reset (R290). -/
  | reset (rest : List Agent) (ht : s.turns = .reset :: rest) : Move s (hwReset { s with turns := rest })

/-- A step does one of the moves of `Move`. -/
theorem step_move {s t : State} (h : step s = .next t) : Move s t := by
  replace h := (step_next_iff.mp h).2
  unfold takeTurn at h
  split at h
  · next ht => cases h; exact .still ht
  · next a rest ht =>
    cases a with
    | enc => exact .enc rest t ht (encTurn_move h)
    | dec =>
      change decTurn _ = _ at h
      unfold decTurn at h
      split at h
      · next hr => exact .header rest t ht hr h
      · next hr => exact .dec rest t ht (by simpa using hr) (decStep_move h)
    | requester n => exact .requester n rest t ht (requesterTurn_move h)
    | reset => cases h; exact .reset rest ht

end Sys2Proof.Machine
end

