-- ==== Sys2Proof/Tests/Slice0.lean ====
section
/-! SUPPORT. Tests: the smoke test of WellFormed, words written out from the spec's encodings, one step of each operation on small
states (expected values from the tables and worked runs of spec/), and for each statement with hypotheses a concrete state and
operands that meet them. -/

namespace Sys2Proof.Tests

open Sys2Proof Sys2Proof.Machine

/-! ### WellFormed -/

/-- LEN.ASSEMBLE takes at least one byte (R147). -/
theorem test_wellFormed_refuses_no_bytes : WellFormed (.lenAssemble []) = false := by decide

/-- LEN.ASSEMBLE takes at most four bytes (R147). -/
theorem test_wellFormed_refuses_five_bytes : WellFormed (.lenAssemble [1, 2, 3, 4, 5]) = false := by decide

/-! ### Words written out from the encodings of 30_encoding.md -/

/-- R101: `010 tttt kkkkkkkkk`. -/
theorem test_decode_frameW1 : decode (.header 0b010_0101_000000011#16) = .ok (.frameW1 5 3) := by decide

/-- R102; R136's row `0x7201`. -/
theorem test_decode_frameW1C : decode (.header 0b011_1001_000000001#16) = .ok (.frameW1C 9 1) := by decide

/-- R103; R136's row `0x82FF`. -/
theorem test_decode_frameW2 : decode (.header 0b100_0001_011111111#16) = .ok (.frameW2 1 255) := by decide

/-- R104; BL's scenario, `0xA016`. -/
theorem test_decode_frameW2C : decode (.header 0b101_0000_000010110#16) = .ok (.frameW2C 0 22) := by decide

/-- R105; R136's row `0xCB00`. -/
theorem test_decode_frameW3 : decode (.header 0b110_0101_100000000#16) = .ok (.frameW3 5 256) := by decide

/-- R106; R136's row `0xFFFF`. -/
theorem test_decode_frameW3C : decode (.header 0b111_1111_111111111#16) = .ok (.frameW3C 15 511) := by decide

/-- R107; R136's row `0x0000`. -/
theorem test_decode_frameW4 : decode (.header 0b000_0000_000000000#16) = .ok (.frameW4 0 0) := by decide

/-- R108; R136's row `0x3FFF`. -/
theorem test_decode_frameW4C : decode (.header 0b001_1111_111111111#16) = .ok (.frameW4C 15 511) := by decide

/-- R114: `OP = 1` in bit 132, `TAG` in 131 to 128, `KLEN` in 127 to 64, `VLEN` in 63 to 0. -/
theorem test_decode_encodeTagged :
    decode (.request .encCmd 0x15_0000000000000001_0000000000000002#133) = .ok (.encodeTagged 5 1 2) := by decide +kernel

/-- R114: `OP = 0`. -/
theorem test_decode_encode :
    decode (.request .encCmd 0x0F_8000000000000001_0000000100000000#133) =
      .ok (.encode 15 0x8000000000000001 0x100000000) := by decide +kernel

/-- R115: `CW_D = 1`. -/
theorem test_decode_decodeTagged : decode (.request .decCmd 0b1#133) = .ok .decodeTagged := by decide

/-- R115: `CW_D = 0`. -/
theorem test_decode_decode : decode (.request .decCmd 0b0#133) = .ok .decode := by decide

/-- The opcode-less ports, in the layout of log entry 7. -/
theorem test_decode_ports :
    decode (.request .encRetire 0#133) = .ok .encRetire ∧ decode (.request .decRetire 0#133) = .ok .decRetire ∧
    decode (.request .hdrPack 0b010_1_0000_000010110#133) = .ok (.hdrPack 2 true 0 22) ∧
    decode (.request .hdrUnpack 0xA016#133) = .ok (.hdrUnpack 0xA016) ∧
    decode (.request .widthOf 0x2B5#133) = .ok (.widthOf 693) ∧
    decode (.request .wcEnc 4#133) = .ok (.wcEnc 4) ∧ decode (.request .wcDec 0#133) = .ok (.wcDec 0) ∧
    decode (.request .lenEmit 0x2_000002B5#133) = .ok (.lenEmit .two 693) ∧
    decode (.request .lenAssemble 0x2_0000B502#133) = .ok (.lenAssemble [0x02, 0xB5]) := by decide +kernel

/-- Words that are no request of their port. -/
theorem test_decode_refusals :
    decode (.request .decCmd 2#133) = .error (.bitsBeyondPort .decCmd) ∧
    decode (.request .lenEmit 0x5_00000000#133) = .error .lenEmitWidth ∧
    decode (.request .lenAssemble 0x0_00000000#133) = .error .lenAssembleCount ∧
    decode (.request .lenAssemble 0x1_0000B502#133) = .error .lenAssembleUnused := by decide +kernel

/-- The opcode table's own numbering of a header word, of `CW_D` and of `CW_E`. -/
theorem test_decodeTableWord :
    decodeTableWord 16 0x4A01 = some (.frameW1 5 1) ∧ decodeTableWord 8 1 = some .decodeTagged ∧
    decodeTableWord 136 0x15_0000000000000001_0000000000000002 = some (.encodeTagged 5 1 2) := by decide +kernel

/-! ### A small state -/

/-- A record with a two-byte key and a one-byte value, hashed with the fixture `SUM32`. -/
def key : List Byte := [0x6B, 0x31]

def value : List Byte := [0x76]

/-- The bytes of `key ++ value` hashed when `i` bytes of phase `p`'s field have passed. -/
def hashed (p : Phase) (i : Nat) : List Byte :=
  match p with
  | .key => key.take i
  | .value => key ++ value.take i
  | .checksum => key ++ value
  | _ => []

/-- The sum of a byte sequence, which is what `SUM32` accumulates. -/
def sum (bytes : List Byte) : Nat := (bytes.map BitVec.toNat).sum

/-- The encoder in phase `p` after `i` bytes of its field, writing `key` and `value` under tag 5. -/
def encAt (en : Bool) (p : Phase) (i : BitVec 32) : EncState where
  op := true
  tag := 5
  klen64 := 2
  vlen64 := 1
  klen := 2
  vlen := 1
  width := 1
  hdr := pack .one en 5 2
  dig := 274
  phase := p.code
  idx := i
  status := 0
  errphase := 0
  expected := 0
  actual := 0
  acc := bif en then sum (hashed p i.toNat) else 0

/-- The decoder in phase `p` after `i` bytes of its field, reading the frame of `key` and `value` under tag 5. -/
def decAt (en ck : Bool) (p : Phase) (i : BitVec 32) (digrx : BitVec 32) : DecState where
  op := true
  hdr := pack .one ck 5 2
  width := 1
  ck := ck
  tag := 5
  klen := 2
  vlen := 1
  digrx := digrx
  rklen := bif p == .done then 2 else 0
  rvlen := bif p == .done then 1 else 0
  rtag := bif p == .done then 5 else 0
  phase := p.code
  idx := i
  status := 0
  errphase := 0
  expected := 0
  actual := 0
  acc := bif en && ck then sum (hashed p i.toNat) else 0

/-- Both units at work, with the operand and the result buffers holding the record. -/
def busy (en ck : Bool) (p q : Phase) (i j : BitVec 32) (digrx : BitVec 32) : State :=
  { State.resetOf en en .sum32 .sum32 with
    enc := encAt en p i
    dec := decAt en ck q j digrx
    kbuf := memOfBytes key
    vbuf := memOfBytes value
    rkbuf := memOfBytes key
    rvbuf := memOfBytes value }

/-- With answers waiting and one unit's turn next. -/
def facing (a : Agent) (sinkSays : List SinkAnswer) (sourceSays : List SourceAnswer) (s : State) : State :=
  { s with turns := [a], sinkAnswers := sinkSays, sourceAnswers := sourceSays }

/-- What `busy` must satisfy for the invariant, as facts that can be computed. -/
abbrev Fits (en ck : Bool) (p q : Phase) (i j : BitVec 32) (d : BitVec 32) : Prop :=
  (p ≠ .eos ∧ p ≠ .error ∧ q ≠ .validate ∧ q ≠ .error ∧ q ≠ .eos) ∧
  (p.terminal = false → i.toNat ≤ encFieldLength (encAt en p i) p) ∧
  (q.terminal = false → j.toNat ≤ decFieldLength (decAt en ck q j d) q) ∧
  (p = .checksum → en = true) ∧ (q = .checksum → ck = true) ∧
  (encAt en p i).acc = (bif en then HashFn.sum32.fold (encTransferred (busy en ck p q i j d) p) else 0) ∧
  (decAt en ck q j d).acc = (bif en && ck then HashFn.sum32.fold (decTransferred (busy en ck p q i j d) q) else 0)

/-- `busy` keeps the invariant wherever it fits. -/
theorem busy_inv {en ck : Bool} {p q : Phase} {i j : BitVec 32} {d : BitVec 32} (h : Fits en ck p q i j d) :
    Inv (busy en ck p q i j d) := by
  obtain ⟨⟨h1, h2, h3, h4, h5⟩, hi, hj, hc, hd, he, hf⟩ := h
  refine ⟨?_, ?_, ?_⟩
  · refine encInv_of_phase p rfl h1 hi ?_ ?_ he (fun _ => ⟨rfl, rfl, rfl, rfl⟩) (.inl ⟨rfl, rfl, rfl, rfl⟩) (fun e => absurd e h2)
    · intro _
      exact ⟨Nat.le_of_ble_eq_true rfl, Nat.le_of_ble_eq_true rfl, rfl, rfl, .one, rfl, rfl, rfl⟩
    · intro e
      exact ⟨hc e, rfl⟩
  · have hu : unpack (pack .one ck 5 2) = { width := .one, ck := ck, tag := 5, klen := 2 } := by cases ck <;> decide
    refine decInv_of_phase q rfl h3 hj ?_ hd hf (fun _ => ⟨rfl, rfl, rfl, rfl⟩) (.inl ⟨rfl, rfl, rfl, rfl⟩)
      (fun e => absurd e h5) (fun e => absurd e h4) ?_ ?_
    · intro _
      change 1 = (unpack (pack .one ck 5 2)).width.bits ∧ ck = (unpack (pack .one ck 5 2)).ck ∧
        5 = (unpack (pack .one ck 5 2)).tag ∧ 2 = (unpack (pack .one ck 5 2)).klen
      rw [hu]
      exact ⟨rfl, rfl, rfl, rfl⟩
    · intro e
      have hq : (q == .done) = false := by
        cases q <;> simp_all [Phase.transfers]
      exact ⟨by simp [busy, decAt, hq], by simp [busy, decAt, hq], by simp [busy, decAt, hq]⟩
    · intro e
      subst e
      exact ⟨rfl, rfl, rfl⟩
  · exact ⟨memOfBytes_wf _, memOfBytes_wf _, memOfBytes_wf _, memOfBytes_wf _, fun _ h => absurd h (by simp [busy, State.resetOf])⟩

/-- Turns, answers and requests with canonical buffers do not matter to the invariant. -/
theorem facing_inv {s : State} (h : Inv s) (a : Agent) (x : List SinkAnswer) (y : List SourceAnswer) : Inv (facing a x y s) :=
  ⟨encInv_congr h.enc rfl rfl rfl rfl rfl, decInv_congr h.dec rfl rfl rfl rfl rfl, h.buffers⟩

/-! ### One step of each operation -/

/-- What a step leaves in one place. -/
def see {α : Type} (o : Host.Outcome State Fault Refusal) (f : State → α) : Option α :=
  match o with
  | .next t => some (f t)
  | .fault _ => none
  | .refused _ => none

/-- R101 by way of the opcode table's word, as the host places it: width 1, no trailer, tag 5, one key byte. -/
theorem test_frameW1_step :
    see (step (State.reset.withFetchWord 16 0x4A01)) (fun t => (t.dec.width, t.dec.ck, t.dec.tag, t.dec.klen, t.dec.phase)) =
      some (1, false, 5, 1, 3) := by decide +kernel

/-- R102; R136's row `0x7201`. -/
theorem test_frameW1C_step :
    see (step (State.reset.withFetchWord 16 0x7201)) (fun t => (t.dec.width, t.dec.ck, t.dec.tag, t.dec.klen, t.dec.phase)) =
      some (1, true, 9, 1, 3) := by decide +kernel

/-- R103; R136's row `0x82FF`. -/
theorem test_frameW2_step :
    see (step (State.reset.withFetchWord 16 0x82FF)) (fun t => (t.dec.width, t.dec.ck, t.dec.tag, t.dec.klen, t.dec.phase)) =
      some (2, false, 1, 255, 3) := by decide +kernel

/-- R104; BL's scenario `0xA016`. -/
theorem test_frameW2C_step :
    see (step (State.reset.withFetchWord 16 0xA016)) (fun t => (t.dec.width, t.dec.ck, t.dec.tag, t.dec.klen, t.dec.phase)) =
      some (2, true, 0, 22, 3) := by decide +kernel

/-- R105; R136's row `0xCB00`. -/
theorem test_frameW3_step :
    see (step (State.reset.withFetchWord 16 0xCB00)) (fun t => (t.dec.width, t.dec.ck, t.dec.tag, t.dec.klen, t.dec.phase)) =
      some (3, false, 5, 256, 3) := by decide +kernel

/-- R106; R136's row `0xFFFF`. -/
theorem test_frameW3C_step :
    see (step (State.reset.withFetchWord 16 0xFFFF)) (fun t => (t.dec.width, t.dec.ck, t.dec.tag, t.dec.klen, t.dec.phase)) =
      some (3, true, 15, 511, 3) := by decide +kernel

/-- R107; R136's row `0x0000`. -/
theorem test_frameW4_step :
    see (step (State.reset.withFetchWord 16 0x0000)) (fun t => (t.dec.width, t.dec.ck, t.dec.tag, t.dec.klen, t.dec.phase)) =
      some (4, false, 0, 0, 3) := by decide +kernel

/-- R108; R136's row `0x3FFF`. -/
theorem test_frameW4C_step :
    see (step (State.reset.withFetchWord 16 0x3FFF)) (fun t => (t.dec.width, t.dec.ck, t.dec.tag, t.dec.klen, t.dec.phase)) =
      some (4, true, 15, 511, 3) := by decide +kernel

/-- R160: the command word of R162's example. -/
theorem test_encodeTagged_step :
    see (step (State.reset.withFetchWord 136 0x15_0000000000000001_0000000000000002))
      (fun t => (t.enc.op, t.enc.tag, t.enc.klen64, t.enc.vlen64, t.enc.phase)) = some (true, 5, 1, 2, 1) := by decide +kernel

/-- R161: the tag bits of an ENCODE word are ignored. -/
theorem test_encode_step :
    see (step (State.reset.withFetchWord 136 0x0F_0000000000000002_0000000000000003))
      (fun t => (t.enc.op, t.enc.tag, t.enc.klen64, t.enc.vlen64, t.enc.phase)) = some (false, 0, 2, 3, 1) := by decide +kernel

/-- R190. -/
theorem test_decodeTagged_step :
    see (step (State.reset.withFetchWord 8 1)) (fun t => (t.dec.op, t.dec.phase)) = some (true, 2) := by decide +kernel

/-- R190. -/
theorem test_decode_step :
    see (step (State.reset.withFetchWord 8 0)) (fun t => (t.dec.op, t.dec.phase)) = some (false, 2) := by decide +kernel

/-- R181: RETIRE of a finished command makes the unit `IDLE`; the lock's freeing is `PHASE = 0`. -/
theorem test_encRetire_step :
    see (exec .encRetire (busy true true .done .idle 4 0 0)) (fun t => (t.enc.phase, t.enc.idx, t.enc.klen64)) =
      some (0, 0, 2) := by decide

/-- R219: the results stay (R215). -/
theorem test_decRetire_step :
    see (exec .decRetire (busy true true .idle .done 0 4 274)) (fun t => (t.dec.phase, t.dec.idx, t.dec.rklen, t.dec.rtag)) =
      some (0, 0, 2, 5) := by decide

/-- R136's first row. -/
theorem test_hdrPack_step :
    see (exec (.hdrPack 2 true 0 22) State.reset) (fun t => (t.ports.packH, t.ports.packRangeErr)) = some (0xA016, false) := by
  decide

/-- R133: width 5 is no alias of 1. -/
theorem test_hdrPack_range :
    see (exec (.hdrPack 5 true 0 22) State.reset) (fun t => t.ports.packRangeErr) = some true := by decide

/-- R132's corner cases. -/
theorem test_hdrUnpack_step :
    see (exec (.hdrUnpack 0xFFFF) State.reset)
      (fun t => (t.ports.unpackWidth, t.ports.unpackC, t.ports.unpackT, t.ports.unpackK)) = some (3, true, 15, 511) ∧
    see (exec (.hdrUnpack 0x0000) State.reset)
      (fun t => (t.ports.unpackWidth, t.ports.unpackC, t.ports.unpackT, t.ports.unpackK)) = some (4, false, 0, 0) := by
  decide

/-- R151: the boundary 65536, and `2^40 + 5`, which is not reduced (R141). -/
theorem test_widthOf_step :
    see (exec (.widthOf 65536) State.reset) (fun t => (t.ports.widthOfWidth, t.ports.widthOfOor)) = some (3, false) ∧
    see (exec (.widthOf 0x10000000005) State.reset) (fun t => t.ports.widthOfOor) = some true := by decide

/-- R143: width 4 is stored as 0. -/
theorem test_wcEnc_step :
    see (exec (.wcEnc 4) State.reset) (fun t => (t.ports.wcEncWc, t.ports.wcEncRangeErr)) = some (0, false) ∧
    see (exec (.wcEnc 0) State.reset) (fun t => t.ports.wcEncRangeErr) = some true := by decide

/-- R144: a stored 0 means width 4. -/
theorem test_wcDec_step : see (exec (.wcDec 0) State.reset) (fun t => t.ports.wcDecWidth) = some 4 := by decide

/-- R146: 693 with width 2, and a width too small drops the high bytes. -/
theorem test_lenEmit_step :
    see (exec (.lenEmit .two 693) State.reset) (fun t => t.ports.lenEmitBytes) = some [0x02, 0xB5] ∧
    see (exec (.lenEmit .one 693) State.reset) (fun t => t.ports.lenEmitBytes) = some [0xB5] := by decide

/-- R147: 693, and leading zeros are accepted. -/
theorem test_lenAssemble_step :
    see (exec (.lenAssemble [0x02, 0xB5]) State.reset) (fun t => t.ports.lenAssembleL) = some 693 ∧
    see (exec (.lenAssemble [0x00, 0x05]) State.reset) (fun t => t.ports.lenAssembleL) = some 5 := by decide

/-- R166: the worked run's step 1 (key of 2 bytes, value of 1, tag 5, no hash): `WIDTH = 1` and the header `010 0101 000000010`. -/
theorem test_validate_step :
    see (step (facing .enc [] [] (busy false false .validate .idle 0 0 0))) (fun t => (t.enc.phase, t.enc.width, t.enc.hdr)) =
      some (2, 1, 0b010_0101_000000010) := by decide +kernel

/-- R164: 512 is the smallest refused key length. -/
theorem test_validate_key_too_long :
    see (step (facing .enc [] [] { State.reset with enc := { EncState.reset with phase := 1, klen64 := 512 } }))
      (fun t => (t.enc.phase, t.enc.status, t.enc.errphase, t.enc.expected, t.enc.actual)) =
      some (8, 1, 1, 511, 512) := by decide +kernel

/-- R171: the second key byte goes to the sink and into the hash. -/
theorem test_key_byte_step :
    see (step (facing .enc [.ok] [] (busy true false .key .idle 1 0 0))) (fun t => (t.sink, t.enc.idx, t.enc.acc)) =
      some ([0x31], 2, 0x6B + 0x31) := by decide +kernel

/-- R201: the source ends after one of two key bytes (R224's last sentence). -/
theorem test_truncated_key_step :
    see (step (facing .dec [] [.eos] (busy false false .idle .key 0 1 0)))
      (fun t => (t.dec.phase, t.dec.status, t.dec.errphase, t.dec.expected, t.dec.actual)) = some (8, 5, 4, 2, 1) := by
  decide +kernel

/-- R211: a trailer that disagrees with the digest. -/
theorem test_mismatch_step :
    see (step (facing .dec [] [] (busy true true .idle .checksum 0 4 273)))
      (fun t => (t.dec.phase, t.dec.status, t.dec.errphase, t.dec.rklen)) = some (8, 6, 6, 0) := by decide +kernel

/-- R210: the digest agrees, and the results become valid (R213). -/
theorem test_match_step :
    see (step (facing .dec [] [] (busy true true .idle .checksum 0 4 274)))
      (fun t => (t.dec.phase, t.dec.status, t.dec.rklen, t.dec.rvlen, t.dec.rtag)) = some (7, 0, 2, 1, 5) := by decide +kernel

/-! ### Concrete states and operands that meet the hypotheses of the statements -/

theorem witness_DecodeOfEncode :
    WellFormed (.lenAssemble [0]) = true ∧ WellFormed (.lenAssemble [255, 0, 1, 2]) = true ∧ WellFormed .decode = true := by
  decide

theorem witness_EveryHeaderWordIsLegal : headerReady (busy true true .idle .header 0 2 0) = true := by decide

theorem witness_PackFieldsAreIndependent :
    ¬(14 ≤ 13 ∧ 13 ≤ 15) ∧ ¬(14 ≤ 16 ∧ 16 ≤ 15) ∧ (12 : Nat) ≠ 13 ∧ ¬(9 ≤ 8 ∧ 8 ≤ 12) ∧ ¬(9 ≤ 13 ∧ 13 ≤ 12) ∧ ¬(9 ≤ 8) := by
  decide

/-- The boundary lengths of R141, one in each clause and at both ends. -/
theorem witness_WidthOfPort :
    (0#64).toNat < 2 ^ 8 ∧ (255#64).toNat < 2 ^ 8 ∧ 2 ^ 8 ≤ (256#64).toNat ∧ (65535#64).toNat < 2 ^ 16 ∧
    2 ^ 16 ≤ (65536#64).toNat ∧ (16777215#64).toNat < 2 ^ 24 ∧ 2 ^ 24 ≤ (16777216#64).toNat ∧
    (4294967295#64).toNat < 2 ^ 32 ∧ 2 ^ 32 ≤ (4294967296#64).toNat := by decide

theorem witness_WidthClassPorts : ((0#3 = 0 ∨ 4 < (0#3).toNat) ∧ (5#3 = 0 ∨ 4 < (5#3).toNat)) ∧ 4 < (7#3).toNat := by decide

theorem witness_UnspecifiedPortOutputsAreWithheld : (5#3 = 0 ∨ 4 < (5#3).toNat) ∧ 2 ^ 32 ≤ (4294967296#64).toNat := by decide

theorem witness_LengthEmitPort : 0 < Width.one.toNat ∧ 3 < Width.four.toNat := by decide

theorem witness_LengthAssemblePort :
    (1 ≤ ([0] : List Byte).length ∧ ([0] : List Byte).length ≤ 4) ∧
    (1 ≤ ([255, 255, 255, 255] : List Byte).length ∧ ([255, 255, 255, 255] : List Byte).length ≤ 4) ∧
    ([] : List Byte).length = 0 ∧ 4 < ([0, 0, 0, 0, 0] : List Byte).length := by decide

theorem witness_LengthFieldLaws :
    widthOf ((255#32).setWidth 64) = some .one ∧ widthOf ((16777216#32).setWidth 64) = some .four ∧
    (65535#32).toNat < 256 ^ Width.two.toNat ∧ ([0, 5] : List Byte).length = Width.two.toNat ∧
    ([] : List Byte).length ≤ 3 ∧ ([1, 2, 3] : List Byte).length ≤ 3 := by decide

/-- One enabled and one disabled state for each condition of `enabled`. -/
theorem witness_EnabledOperationsComplete :
    enabled (.frameW1 0 0) (busy true true .idle .header 0 2 0) = true ∧
    enabled (.frameW1 0 0) (busy true true .idle .header 0 1 0) = false ∧
    enabled (.encode 0 0 0) State.reset = true ∧ enabled (.encode 0 0 0) (busy true true .done .idle 4 0 0) = false ∧
    enabled .decode State.reset = true ∧ enabled .decode (busy true true .idle .done 0 4 0) = false ∧
    enabled .encRetire (busy true true .done .idle 4 0 0) = true ∧ enabled .encRetire State.reset = false ∧
    enabled .decRetire (busy true true .idle .done 0 4 0) = true ∧ enabled .decRetire State.reset = false ∧
    enabled (.wcDec 0) State.reset = true := by decide

/-- A requester waiting with `r`. -/
def waiting (r : Request) (s : State) : State :=
  { s with requests := [r], turns := [.requester 0] }

/-- A decode request. -/
def decodeRequestOf (w : RequestWord) : Request where
  port := .decCmd
  word := w
  kbuf := []
  vbuf := []

/-- An encode request for the small record, with its buffers. -/
def encodeRequestOf : Request where
  port := .encCmd
  word := encCmdWord true 5 2 1
  kbuf := memOfBytes key
  vbuf := memOfBytes value

/-- Served, waiting, no request, nobody there, and a header word. -/
theorem witness_StepRunsTheDecodedOperation :
    phasesReachable (waiting (decodeRequestOf 1) State.reset) = true ∧
    phasesReachable (waiting (decodeRequestOf 1) (busy true true .idle .done 0 4 0)) = true ∧
    phasesReachable (facing .dec [] [] (busy true true .idle .header 0 2 0)) = true ∧
    (waiting (decodeRequestOf 1) State.reset).requests[0]? = some (decodeRequestOf 1) ∧
    decode (.request .decCmd (decodeRequestOf 1).word) = .ok .decodeTagged ∧
    enabled .decodeTagged (waiting (decodeRequestOf 1) State.reset) = true ∧
    enabled .decodeTagged (waiting (decodeRequestOf 1) (busy true true .idle .done 0 4 0)) = false ∧
    decode (.request .decCmd (decodeRequestOf 2).word) = .error (.bitsBeyondPort .decCmd) ∧
    (facing (.requester 0) [] [] State.reset).requests[0]? = none ∧
    (facing .dec [] [] (busy true true .idle .header 0 2 0)).turns = [.dec] ∧
    (busy true true .idle .header 0 2 0).dec.phase = Phase.header.code ∧
    (busy true true .idle .header 0 2 0).dec.idx = 2 := by decide

theorem witness_EncodeCommandsIssue :
    phasesReachable (waiting encodeRequestOf State.reset) = true ∧
    phasesReachable (waiting encodeRequestOf (busy true true .done .idle 4 0 0)) = true ∧
    (waiting encodeRequestOf State.reset).turns = [.requester 0] ∧
    (waiting encodeRequestOf State.reset).requests[0]? = some encodeRequestOf ∧
    State.reset.enc.phase = Phase.idle.code ∧ (busy true true .done .idle 4 0 0).enc.phase ≠ Phase.idle.code := by decide

theorem witness_DecodeCommandsIssue :
    State.reset.dec.phase = Phase.idle.code ∧ (busy true true .idle .header 0 0 0).dec.phase ≠ Phase.idle.code := by decide

/-- RETIRE in each terminal phase and outside. -/
theorem witness_RetireFreesTheUnit :
    (busy true true .done .done 4 4 0).enc.phase = Phase.done.code ∧ (busy true true .error .done 4 4 0).enc.phase = Phase.error.code ∧
    ¬(State.reset.enc.phase = Phase.done.code ∨ State.reset.enc.phase = Phase.error.code) ∧
    (busy true true .done .done 4 4 0).dec.phase = Phase.done.code ∧ (busy true true .done .error 4 4 0).dec.phase = Phase.error.code ∧
    (busy true true .done .eos 4 0 0).dec.phase = Phase.eos.code ∧
    ¬(State.reset.dec.phase = Phase.done.code ∨ State.reset.dec.phase = Phase.error.code ∨
      State.reset.dec.phase = Phase.eos.code) := by decide

theorem witness_FrameFormatsSetTheFields :
    (busy true true .idle .header 0 2 0).dec.phase = Phase.header.code ∧ (busy true true .idle .header 0 2 0).dec.idx = 2 := by
  decide

/-- The encoder in `VALIDATE` with the given lengths. -/
def validating (k v : BitVec 64) : State :=
  facing .enc [] [] { State.reset with enc := { EncState.reset with phase := 1, klen64 := k, vlen64 := v } }

/-- The boundary lengths of each clause: 511 and 512, 2^32 − 1, 2^32 and 2^32 + 1. -/
theorem witness_EncoderValidateStep :
    phasesReachable (validating 512 0) = true ∧ phasesReachable (validating 511 4294967297) = true ∧
    phasesReachable (validating 511 4294967296) = true ∧ phasesReachable (validating 511 4294967295) = true ∧
    (validating 0 0).turns = [.enc] ∧ (validating 0 0).enc.phase = Phase.validate.code ∧
    511 < (validating 512 0).enc.klen64.toNat ∧
    ((validating 511 4294967297).enc.klen64.toNat ≤ 511 ∧ 4294967296 < (validating 511 4294967297).enc.vlen64.toNat) ∧
    ((validating 511 4294967296).enc.klen64.toNat ≤ 511 ∧ (validating 511 4294967296).enc.vlen64.toNat = 4294967296) ∧
    ((validating 511 4294967295).enc.klen64.toNat ≤ 511 ∧ (validating 511 4294967295).enc.vlen64.toNat < 4294967296) := by
  decide

/-- The encoder in a phase with the next byte, and at the end of its field, and facing each answer. -/
abbrev encReady (p : Phase) (i : BitVec 32) (a : SinkAnswer) (s : State) : Prop :=
  phasesReachable s = true ∧ s.turns = [.enc] ∧ s.enc.phase = p.code ∧ s.enc.idx = i ∧ s.sinkAnswers = [a]

theorem witness_EncoderHeaderSteps :
    encReady .header 0 .ok (facing .enc [.ok] [] (busy true true .header .idle 0 0 0)) ∧ (0#32).toNat < 2 ∧
    encReady .header 1 .err (facing .enc [.err] [] (busy true true .header .idle 1 0 0)) ∧ (1#32).toNat < 2 ∧
    encReady .header 2 .ok (facing .enc [.ok] [] (busy true true .header .idle 2 0 0)) := by decide

theorem witness_EncoderLengthSteps :
    encReady .length 0 .ok (facing .enc [.ok] [] (busy true true .length .idle 0 0 0)) ∧
    (0#32).toNat < (busy true true .length .idle 0 0 0).enc.width.toNat ∧
    encReady .length 0 .err (facing .enc [.err] [] (busy true true .length .idle 0 0 0)) ∧
    encReady .length 1 .ok (facing .enc [.ok] [] (busy true true .length .idle 1 0 0)) ∧
    (1#32).toNat = (busy true true .length .idle 1 0 0).enc.width.toNat := by decide

theorem witness_EncoderKeySteps_ok :
    Inv (facing .enc [.ok] [] (busy true true .key .idle 1 0 0)) ∧
    encReady .key 1 .ok (facing .enc [.ok] [] (busy true true .key .idle 1 0 0)) ∧
    (1#32).toNat < (busy true true .key .idle 1 0 0).enc.klen.toNat :=
  ⟨facing_inv (busy_inv (by decide +kernel)) _ _ _, by decide⟩

theorem witness_EncoderKeySteps_err :
    Inv (facing .enc [.err] [] (busy true true .key .idle 0 0 0)) ∧
    encReady .key 0 .err (facing .enc [.err] [] (busy true true .key .idle 0 0 0)) ∧
    (0#32).toNat < (busy true true .key .idle 0 0 0).enc.klen.toNat :=
  ⟨facing_inv (busy_inv (by decide +kernel)) _ _ _, by decide⟩

theorem witness_EncoderKeySteps_advance :
    Inv (facing .enc [.ok] [] (busy true true .key .idle 2 0 0)) ∧
    encReady .key 2 .ok (facing .enc [.ok] [] (busy true true .key .idle 2 0 0)) ∧
    (2#32).toNat = (busy true true .key .idle 2 0 0).enc.klen.toNat :=
  ⟨facing_inv (busy_inv (by decide +kernel)) _ _ _, by decide⟩

theorem witness_EncoderValueSteps_ok :
    Inv (facing .enc [.ok] [] (busy true true .value .idle 0 0 0)) ∧
    encReady .value 0 .ok (facing .enc [.ok] [] (busy true true .value .idle 0 0 0)) ∧
    (0#32).toNat < (busy true true .value .idle 0 0 0).enc.vlen.toNat :=
  ⟨facing_inv (busy_inv (by decide +kernel)) _ _ _, by decide⟩

theorem witness_EncoderValueSteps_err :
    Inv (facing .enc [.err] [] (busy true true .value .idle 0 0 0)) ∧
    encReady .value 0 .err (facing .enc [.err] [] (busy true true .value .idle 0 0 0)) ∧
    (0#32).toNat < (busy true true .value .idle 0 0 0).enc.vlen.toNat :=
  ⟨facing_inv (busy_inv (by decide +kernel)) _ _ _, by decide⟩

theorem witness_EncoderValueSteps_trailer :
    Inv (facing .enc [.ok] [] (busy true true .value .idle 1 0 0)) ∧
    encReady .value 1 .ok (facing .enc [.ok] [] (busy true true .value .idle 1 0 0)) ∧
    (1#32).toNat = (busy true true .value .idle 1 0 0).enc.vlen.toNat ∧ (busy true true .value .idle 1 0 0).encHashEn = true :=
  ⟨facing_inv (busy_inv (by decide +kernel)) _ _ _, by decide⟩

theorem witness_EncoderValueSteps_done :
    Inv (facing .enc [.ok] [] (busy false true .value .idle 1 0 0)) ∧
    encReady .value 1 .ok (facing .enc [.ok] [] (busy false true .value .idle 1 0 0)) ∧
    (1#32).toNat = (busy false true .value .idle 1 0 0).enc.vlen.toNat ∧ (busy false true .value .idle 1 0 0).encHashEn = false :=
  ⟨facing_inv (busy_inv (by decide +kernel)) _ _ _, by decide⟩

theorem witness_EncoderChecksumSteps :
    encReady .checksum 3 .ok (facing .enc [.ok] [] (busy true true .checksum .idle 3 0 0)) ∧ (3#32).toNat < 4 ∧
    encReady .checksum 0 .err (facing .enc [.err] [] (busy true true .checksum .idle 0 0 0)) ∧ (0#32).toNat < 4 ∧
    encReady .checksum 4 .ok (facing .enc [.ok] [] (busy true true .checksum .idle 4 0 0)) := by decide

/-- The decoder in a phase, facing an answer. -/
abbrev decReady (p : Phase) (i : BitVec 32) (a : SourceAnswer) (s : State) : Prop :=
  phasesReachable s = true ∧ s.turns = [.dec] ∧ s.dec.phase = p.code ∧ s.dec.idx = i ∧ s.sourceAnswers = [a]

theorem witness_DecoderHeaderSteps :
    decReady .header 0 (.byte 64) (facing .dec [] [.byte 64] (busy true true .idle .header 0 0 0)) ∧
    decReady .header 1 (.byte 2) (facing .dec [] [.byte 2] (busy true true .idle .header 0 1 0)) ∧
    decReady .header 0 .eos (facing .dec [] [.eos] (busy true true .idle .header 0 0 0)) ∧
    decReady .header 1 .eos (facing .dec [] [.eos] (busy true true .idle .header 0 1 0)) ∧
    decReady .header 2 .eos (facing .dec [] [.eos] (busy true true .idle .header 0 2 0)) := by decide

theorem witness_DecoderLengthSteps :
    decReady .length 0 (.byte 1) (facing .dec [] [.byte 1] (busy true true .idle .length 0 0 0)) ∧
    (0#32).toNat < (busy true true .idle .length 0 0 0).dec.width.toNat ∧
    decReady .length 0 .eos (facing .dec [] [.eos] (busy true true .idle .length 0 0 0)) ∧
    decReady .length 1 .eos (facing .dec [] [.eos] (busy true true .idle .length 0 1 0)) ∧
    (1#32).toNat = (busy true true .idle .length 0 1 0).dec.width.toNat := by decide

theorem witness_DecoderKeySteps_byte :
    Inv (facing .dec [] [.byte 49] (busy true true .idle .key 0 1 0)) ∧
    decReady .key 1 (.byte 49) (facing .dec [] [.byte 49] (busy true true .idle .key 0 1 0)) ∧
    (1#32).toNat < (busy true true .idle .key 0 1 0).dec.klen.toNat :=
  ⟨facing_inv (busy_inv (by decide +kernel)) _ _ _, by decide⟩

theorem witness_DecoderKeySteps_eos :
    Inv (facing .dec [] [.eos] (busy true true .idle .key 0 0 0)) ∧
    decReady .key 0 .eos (facing .dec [] [.eos] (busy true true .idle .key 0 0 0)) ∧
    (0#32).toNat < (busy true true .idle .key 0 0 0).dec.klen.toNat :=
  ⟨facing_inv (busy_inv (by decide +kernel)) _ _ _, by decide⟩

theorem witness_DecoderKeySteps_advance :
    Inv (facing .dec [] [.eos] (busy true true .idle .key 0 2 0)) ∧
    decReady .key 2 .eos (facing .dec [] [.eos] (busy true true .idle .key 0 2 0)) ∧
    (2#32).toNat = (busy true true .idle .key 0 2 0).dec.klen.toNat :=
  ⟨facing_inv (busy_inv (by decide +kernel)) _ _ _, by decide⟩

theorem witness_DecoderValueSteps_byte :
    Inv (facing .dec [] [.byte 118] (busy true true .idle .value 0 0 0)) ∧
    decReady .value 0 (.byte 118) (facing .dec [] [.byte 118] (busy true true .idle .value 0 0 0)) ∧
    (0#32).toNat < (busy true true .idle .value 0 0 0).dec.vlen.toNat :=
  ⟨facing_inv (busy_inv (by decide +kernel)) _ _ _, by decide⟩

theorem witness_DecoderValueSteps_eos :
    Inv (facing .dec [] [.eos] (busy true true .idle .value 0 0 0)) ∧
    decReady .value 0 .eos (facing .dec [] [.eos] (busy true true .idle .value 0 0 0)) ∧
    (0#32).toNat < (busy true true .idle .value 0 0 0).dec.vlen.toNat :=
  ⟨facing_inv (busy_inv (by decide +kernel)) _ _ _, by decide⟩

theorem witness_DecoderValueSteps_done :
    Inv (facing .dec [] [.eos] (busy true false .idle .value 0 1 0)) ∧
    decReady .value 1 .eos (facing .dec [] [.eos] (busy true false .idle .value 0 1 0)) ∧
    (1#32).toNat = (busy true false .idle .value 0 1 0).dec.vlen.toNat ∧ (busy true false .idle .value 0 1 0).dec.ck = false :=
  ⟨facing_inv (busy_inv (by decide +kernel)) _ _ _, by decide⟩

theorem witness_DecoderValueSteps_trailer :
    Inv (facing .dec [] [.eos] (busy true true .idle .value 0 1 0)) ∧
    decReady .value 1 .eos (facing .dec [] [.eos] (busy true true .idle .value 0 1 0)) ∧
    (1#32).toNat = (busy true true .idle .value 0 1 0).dec.vlen.toNat ∧ (busy true true .idle .value 0 1 0).dec.ck = true :=
  ⟨facing_inv (busy_inv (by decide +kernel)) _ _ _, by decide⟩

theorem witness_DecoderTrailerSteps :
    decReady .checksum 0 (.byte 1) (facing .dec [] [.byte 1] (busy true true .idle .checksum 0 0 0)) ∧ (0#32).toNat < 4 ∧
    (busy true true .idle .checksum 0 0 0).decHashEn = true ∧
    decReady .checksum 3 (.byte 1) (facing .dec [] [.byte 1] (busy false true .idle .checksum 0 3 0)) ∧ (3#32).toNat < 4 ∧
    (busy false true .idle .checksum 0 3 0).decHashEn = false ∧
    decReady .checksum 3 .eos (facing .dec [] [.eos] (busy true true .idle .checksum 0 3 0)) := by decide

/-- Agreeing, not verifying, and differing. -/
theorem witness_DecoderChecksumAdvance :
    (Inv (facing .dec [] [.eos] (busy true true .idle .checksum 0 4 274)) ∧
      decReady .checksum 4 .eos (facing .dec [] [.eos] (busy true true .idle .checksum 0 4 274)) ∧
      HashFn.sum32.dig (memBytes (memOfBytes key) 2 ++ memBytes (memOfBytes value) 1) = 274) ∧
    (Inv (facing .dec [] [.eos] (busy false true .idle .checksum 0 4 0)) ∧
      decReady .checksum 4 .eos (facing .dec [] [.eos] (busy false true .idle .checksum 0 4 0)) ∧
      (busy false true .idle .checksum 0 4 0).decHashEn = false) ∧
    (Inv (facing .dec [] [.eos] (busy true true .idle .checksum 0 4 273)) ∧
      decReady .checksum 4 .eos (facing .dec [] [.eos] (busy true true .idle .checksum 0 4 273)) ∧
      HashFn.sum32.dig (memBytes (memOfBytes key) 2 ++ memBytes (memOfBytes value) 1) ≠ 273) :=
  ⟨⟨facing_inv (busy_inv (by decide +kernel)) _ _ _, by decide⟩, ⟨facing_inv (busy_inv (by decide +kernel)) _ _ _, by decide⟩,
    ⟨facing_inv (busy_inv (by decide +kernel)) _ _ _, by decide⟩⟩

/-- A refused last byte of the trailer and a failing first byte of the header. -/
theorem witness_StreamFailureEndsTheCommand :
    (Inv (facing .enc [.err] [] (busy true true .checksum .idle 3 0 0)) ∧
      encReady .checksum 3 .err (facing .enc [.err] [] (busy true true .checksum .idle 3 0 0)) ∧
      Phase.checksum.transfers = true ∧ (3#32).toNat < encFieldLength (busy true true .checksum .idle 3 0 0).enc .checksum) ∧
    (decReady .header 0 .err (facing .dec [] [.err] (busy true true .idle .header 0 0 0)) ∧
      Phase.header.transfers = true ∧ (0#32).toNat < decFieldLength (busy true true .idle .header 0 0 0).dec .header) :=
  ⟨⟨facing_inv (busy_inv (by decide +kernel)) _ _ _, by decide⟩, by decide⟩

theorem witness_UnitsWaitAndRest :
    (Inv (facing .enc [] [] (busy true true .value .value 0 0 0)) ∧ Phase.value.transfers = true ∧
      (facing .enc [] [] (busy true true .value .value 0 0 0)).turns = [.enc] ∧
      (busy true true .value .value 0 0 0).enc.phase = Phase.value.code ∧
      (0#32).toNat < encFieldLength (busy true true .value .value 0 0 0).enc .value) ∧
    (Inv (facing .dec [] [] (busy true true .value .value 0 0 0)) ∧
      (facing .dec [] [] (busy true true .value .value 0 0 0)).turns = [.dec] ∧
      (busy true true .value .value 0 0 0).dec.phase = Phase.value.code ∧
      (0#32).toNat < decFieldLength (busy true true .value .value 0 0 0).dec .value) ∧
    phasesReachable (facing .enc [] [] State.reset) = true ∧ phasesReachable (facing .dec [] [] State.reset) = true ∧
    (facing .enc [] [] State.reset).turns = [.enc] ∧ State.reset.enc.phase = Phase.idle.code ∧
    (facing .dec [] [] State.reset).turns = [.dec] ∧ State.reset.dec.phase = Phase.idle.code :=
  ⟨⟨facing_inv (busy_inv (by decide +kernel)) _ _ _, by decide⟩, ⟨facing_inv (busy_inv (by decide +kernel)) _ _ _, by decide⟩,
    by decide⟩

theorem witness_UnreachablePhasesAreRefused :
    (9 ≤ (9#4).toNat ∧ ¬(9#4 = 1 ∨ 10 ≤ (9#4).toNat)) ∧ 9 ≤ (15#4).toNat ∧ (8#4).toNat ≤ 8 ∧ (1#4 = 1 ∨ 10 ≤ (1#4).toNat) ∧
    (10#4 = 1 ∨ 10 ≤ (10#4).toNat) ∧ ¬(0#4 = 1 ∨ 10 ≤ (0#4).toNat) ∧ Inv (busy true true .idle .idle 0 0 0) :=
  ⟨by decide, by decide, by decide, by decide, by decide, by decide, busy_inv (by decide +kernel)⟩

/-- R40, U14: with one unit's phase unreachable no agent has a step, not the other unit, a requester or reset. -/
theorem test_unreachable_phase_stops_every_agent :
    ([.enc, .dec, .requester 0, .reset] : List Agent).all (fun a =>
      (see (step { facing a [.ok] [.eos] State.reset with enc := { EncState.reset with phase := 9 } }) (fun t => t.enc.phase)).isNone &&
      (see (step { facing a [.ok] [.eos] State.reset with dec := { DecState.reset with phase := 1 } }) (fun t => t.dec.phase)).isNone)
      = true := by decide +kernel

theorem witness_HardwareResetStep :
    phasesReachable (facing .reset [] [] (busy true true .key .value 1 0 0)) = true ∧
    (facing .reset [] [] (busy true true .key .value 1 0 0)).turns = [.reset] := by decide

/-- A state that keeps the invariant and steps. -/
theorem witness_StepKeepsInvariant :
    Inv (facing .enc [.ok] [] (busy true true .key .value 1 0 0)) ∧
    (see (step (facing .enc [.ok] [] (busy true true .key .value 1 0 0))) (fun t => t.enc.idx)).isSome = true :=
  ⟨facing_inv (busy_inv (by decide +kernel)) _ _ _, by decide +kernel⟩

theorem witness_InvariantStatesStepSafely : Inv (busy true true .checksum .checksum 3 3 0) := busy_inv (by decide +kernel)

/-- A step that pushes a byte: the sink grows in the encoder's turn. -/
theorem witness_SinkGrowsAndStrapsStay :
    see (step (facing .enc [.ok] [] (busy true true .header .idle 1 0 0))) (fun t => t.sink) = some [2] := by decide +kernel

/-- Each agent's turn has a next state somewhere. -/
theorem witness_AgentsWriteOnlyTheirOwn :
    (see (step (facing .enc [.ok] [] (busy true true .value .idle 0 0 0))) (fun t => t.enc.idx) = some 1) ∧
    (see (step (facing .dec [] [.byte 7] (busy true true .idle .value 0 0 0))) (fun t => t.dec.idx) = some 1) ∧
    (see (step (waiting encodeRequestOf State.reset)) (fun t => t.enc.phase) = some 1) := by decide +kernel

/-- Two states that agree on one unit and differ elsewhere. -/
theorem witness_UnitsSeeOnlyTheirOwn :
    phasesReachable (facing .enc [.ok] [] (busy true false .key .value 1 0 9)) = true ∧
    phasesReachable (facing .dec [] [.eos] (busy true true .idle .length 0 0 0)) = true ∧
    (facing .enc [.ok] [] (busy true true .key .idle 1 0 0)).enc = (facing .enc [.ok] [] (busy true false .key .value 1 0 9)).enc ∧
    (facing .enc [.ok] [] (busy true true .key .idle 1 0 0)).dec ≠ (facing .enc [.ok] [] (busy true false .key .value 1 0 9)).dec ∧
    (see (step (facing .enc [.ok] [] (busy true true .key .idle 1 0 0))) (fun t => t.enc.idx)).isSome = true ∧
    (facing .dec [] [.eos] (busy true true .key .length 1 0 0)).dec = (facing .dec [] [.eos] (busy true true .idle .length 0 0 0)).dec ∧
    (see (step (facing .dec [] [.eos] (busy true true .key .length 1 0 0))) (fun t => t.dec.idx)).isSome = true := by
  decide +kernel

/-- Both orders of two turns have a next state. -/
theorem witness_UnitTurnsCommute :
    (see (runSteps 2 { facing .enc [.ok] [.byte 7] (busy true true .key .value 1 0 0) with turns := [.enc, .dec] })
      (fun t => (t.sink, t.dec.idx)) = some ([0x31], 1)) ∧
    (see (runSteps 2 { facing .enc [.ok] [.byte 7] (busy true true .key .value 1 0 0) with turns := [.dec, .enc] })
      (fun t => (t.sink, t.dec.idx)) = some ([0x31], 1)) := by decide +kernel

/-- A phase that changes, in each unit. -/
theorem witness_ControlTransfers :
    see (step (facing .enc [] [] (busy true true .key .idle 2 0 0))) (fun t => t.enc.phase) = some Phase.value.code ∧
    Phase.value.code ≠ Phase.key.code ∧
    see (step (facing .dec [] [.eos] (busy true true .idle .header 0 0 0))) (fun t => t.dec.phase) = some Phase.eos.code ∧
    Phase.eos.code ≠ Phase.header.code := by decide +kernel

theorem witness_FrameLayout : key.length ≤ 511 ∧ value.length ≤ 4294967295 := by decide

theorem witness_RejectedEncodeWritesNothing :
    phasesReachable State.reset = true ∧
    State.reset.enc.phase = Phase.idle.code ∧
    validation 512 0 = .error ⟨.keyTooLong, .validate, 511, 512⟩ ∧
    validation 511 4294967297 = .error ⟨.valueTooLong, .validate, 4294967296, 4294967297⟩ ∧
    validation 511 4294967296 = .error ⟨.outOfRange, .validate, 4294967295, 4294967296⟩ := by decide

/-- An idle machine with a record in its operand buffers and a sink that accepts everything: for the encode commands, the step count
and the round trip. -/
theorem witness_EncodeCommandPushesItsFrame :
    Inv (facing .enc (List.replicate 13 .ok) [] (busy true true .idle .idle 0 0 0)) ∧
    (busy true true .idle .idle 0 0 0).enc.phase = Phase.idle.code ∧ validation 2 1 = .ok .one ∧
    frameLength true .one 2 1 + 6 ≤ 16 ∧
    List.replicate 13 SinkAnswer.ok = List.replicate (frameLength true .one 2 1) .ok ++ List.replicate 3 .ok :=
  ⟨facing_inv (busy_inv (by decide +kernel)) _ _ _, by decide⟩

/-- A byte in each field of a frame of 10 bytes. -/
theorem witness_PushFrameOutcomes :
    frameLength true .one key.length value.length = 10 ∧ 0 < 2 ∧ (2 ≤ 2 ∧ 2 < 2 + Width.one.toNat) ∧
    (2 + Width.one.toNat ≤ 4 ∧ 4 < 2 + Width.one.toNat + key.length) ∧
    (2 + Width.one.toNat + key.length ≤ 5 ∧ 5 < 2 + Width.one.toNat + key.length + value.length) ∧
    2 + Width.one.toNat + key.length + value.length ≤ 9 := by decide

theorem witness_DecodeCommandAgreesWithItsDescription :
    Inv (facing .dec [] [.byte 64, .eos] (busy true true .idle .idle 0 0 0)) ∧
    (busy true true .idle .idle 0 0 0).dec.phase = Phase.idle.code ∧
    ([.byte 64, .eos] : List SourceAnswer).length + 5 ≤ 7 :=
  ⟨facing_inv (busy_inv (by decide +kernel)) _ _ _, by decide⟩

/-- The decode of a frame that ends well, and of an empty source (R191's corner cases). -/
theorem witness_DecodeConsumesOneFrame :
    decodeTaggedWhole false .sum32 [.byte 0x40, .byte 0, .byte 0, .eos] = .ok [] [] 0 [.eos] ∧
    decodeTaggedWhole false .sum32 [.eos] = .failed ⟨.endOfStream, .header, 0, 0⟩ [] := by decide

theorem witness_EncodeIsTaggedWithZero :
    State.reset.enc.phase = Phase.idle.code ∧
    see (exec (.encodeTagged 0 2 1) State.reset) (fun u => see (runSteps 1 (withTurns 1 .enc [] u)) (fun t => t.enc.phase)) =
      some (some 2) := by decide +kernel

theorem witness_DecodeDropsOnlyTheTag :
    State.reset.dec.phase = Phase.idle.code ∧
    see (exec .decodeTagged State.reset) (fun u => see (runSteps 1 (withTurns 1 .dec [] u)) (fun t => t.dec.phase)) =
      some (some 2) := by decide +kernel

theorem witness_DecodeOfAFrame :
    key.length ≤ 511 ∧ widthOf (BitVec.ofNat 64 value.length) = some .one ∧ value.length < 2 ^ 64 := by decide

theorem witness_RecordSurvivesEncodeThenDecode :
    Inv (facing .enc (List.replicate 13 .ok) [] (busy true true .idle .idle 0 0 0)) ∧
    key = memBytes (busy true true .idle .idle 0 0 0).kbuf (2#64).toNat ∧
    value = memBytes (busy true true .idle .idle 0 0 0).vbuf (1#64).toNat ∧
    (∀ a ∈ List.replicate 13 SinkAnswer.ok, a = SinkAnswer.ok) ∧ 2 + 1 + 10 ≤ (List.replicate 13 SinkAnswer.ok).length :=
  ⟨facing_inv (busy_inv (by decide +kernel)) _ _ _, by decide⟩

theorem witness_HostReadsOnlyValidResults :
    (busy true true .idle .done 0 4 274).dec.phase = Phase.done.code ∧ 1 < (busy true true .idle .done 0 4 274).dec.rklen.toNat ∧
    0 < (busy true true .idle .done 0 4 274).dec.rvlen.toNat ∧
    ¬((busy true true .idle .done 0 4 274).dec.phase = Phase.done.code ∧ 2 < (busy true true .idle .done 0 4 274).dec.rklen.toNat) ∧
    ¬(State.reset.dec.phase = Phase.done.code ∧ 0 < State.reset.dec.rvlen.toNat) := by decide

end Sys2Proof.Tests
end

section
/-! Whose turn it is, and what a requester's served operation can be. -/

namespace Sys2Proof.Machine

/-! ### Turns -/

/-- Where it is an agent's turn, a step is that agent's move, provided both phases are reachable. -/
theorem step_next_iff_agentTurn {s t : State} {a : Agent} {ts : List Agent} (ht : s.turns = a :: ts) :
    step s = .next t ↔ phasesReachable s = true ∧ agentTurn a { s with turns := ts } = .next t := by
  rw [step_next_iff]
  simp only [takeTurn, ht]

theorem encPhaseReachable_iff {s : State} : encPhaseReachable s = true ↔ s.enc.phase.toNat ≤ 8 := by
  simp [encPhaseReachable]

theorem decPhaseReachable_iff {s : State} : decPhaseReachable s = true ↔ s.dec.phase ≠ 1 ∧ s.dec.phase.toNat ≤ 9 := by
  simp [decPhaseReachable, Phase.code]

theorem step_of_enc_unreachable {s : State} (h : encPhaseReachable s = false) : step s = .refused .encPhaseUnreachable := by
  simp [step, nextTurn, h]

theorem step_of_dec_unreachable {s : State} (he : encPhaseReachable s = true) (hd : decPhaseReachable s = false) :
    step s = .refused .decPhaseUnreachable := by
  simp [step, nextTurn, he, hd]

/-! ### The header word -/

/-- The two width-class bits of a header word, as bits (R91). -/
theorem widthClass_eq_bits (h : BitVec 16) :
    h.extractLsb' 14 2 = BitVec.ofBool (h.getLsbD 15) ++ BitVec.ofBool (h.getLsbD 14) := by
  have bits : ∀ (w : BitVec 2), w = BitVec.ofBool (w.getLsbD 1) ++ BitVec.ofBool (w.getLsbD 0) := by decide
  rw [bits (h.extractLsb' 14 2)]
  simp

/-- To execute the decoded header word is to take the fields that `unpack` gives (R111, R132, R196). -/
theorem exec_decodeHeader (h : BitVec 16) (s : State) :
    exec (decodeHeader h) s = takeHeader (unpack h).width (unpack h).ck (unpack h).tag (unpack h).klen s := by
  simp only [unpack, widthClass_eq_bits, decodeHeader]
  cases h.getLsbD 15 <;> cases h.getLsbD 14 <;> cases h.getLsbD 13 <;> rfl

/-- Executing the header word it holds is the decoder's own `HEADER` advance, so its turn is its step (R196). -/
theorem decTurn_eq_decStep (s : State) : decTurn s = decStep s := by
  unfold decTurn
  split
  · next hr =>
    obtain ⟨hp, hi⟩ := (headerReady_iff s).mp hr
    rw [exec_decodeHeader, takeHeader, if_pos hr]
    simp [decStep, hp, decField, hi, decHeaderAdvance]
  · rfl

theorem decTurn_move {s t : State} (h : decTurn s = .next t) : DecMove s t :=
  decStep_move (decTurn_eq_decStep s ▸ h)

/-! ### Requests -/

/-- The operation that a word on a port stands for is one of that port (R116), and its operands are in their domain. -/
theorem decodeRequest_ok {p : Port} {w : RequestWord} {i : Instr} (h : decodeRequest p w = .ok i) :
    (∃ w', encode i = .request p w') ∧ WellFormed i = true := by
  unfold decodeRequest at h
  split at h
  · cases h
  · cases p with
    | encCmd =>
      cases h
      unfold decodeEncCmd
      split <;> exact ⟨⟨_, rfl⟩, rfl⟩
    | decCmd =>
      cases h
      unfold decodeDecCmd
      split <;> exact ⟨⟨_, rfl⟩, rfl⟩
    | encRetire => cases h; exact ⟨⟨_, rfl⟩, rfl⟩
    | decRetire => cases h; exact ⟨⟨_, rfl⟩, rfl⟩
    | hdrPack => cases h; exact ⟨⟨_, rfl⟩, rfl⟩
    | hdrUnpack => cases h; exact ⟨⟨_, rfl⟩, rfl⟩
    | widthOf => cases h; exact ⟨⟨_, rfl⟩, rfl⟩
    | wcEnc => cases h; exact ⟨⟨_, rfl⟩, rfl⟩
    | wcDec => cases h; exact ⟨⟨_, rfl⟩, rfl⟩
    | lenEmit =>
      replace h : decodeLenEmit w = .ok i := h
      unfold decodeLenEmit at h
      split at h <;> cases h
      exact ⟨⟨_, rfl⟩, rfl⟩
    | lenAssemble =>
      replace h : decodeLenAssemble w = .ok i := h
      unfold decodeLenAssemble at h
      split at h
      · cases h
      · next count _ =>
        split at h <;> cases h
        refine ⟨⟨_, rfl⟩, ?_⟩
        have hlo := count.toNat_pos
        have hhi := count.toNat_le_four
        simp [WellFormed, lenAssembleOperand, requestBytes, hlo, hhi]

/-- The operations with a combinational port of their own (R116). -/
def combinational : Instr → Bool
  | .hdrPack _ _ _ _ => true
  | .hdrUnpack _ => true
  | .widthOf _ => true
  | .wcEnc _ => true
  | .wcDec _ => true
  | .lenEmit _ _ => true
  | .lenAssemble _ => true
  | _ => false

/-- A combinational operation completes in every state and drives outputs only (R130, R140). -/
theorem exec_combinational {i : Instr} (hc : combinational i = true) (hw : WellFormed i = true) (s : State) :
    ∃ p k, exec i s = .next { s with ports := p, freeCount := k } := by
  cases i with
  | hdrPack width c t k =>
    simp only [exec, execHdrPack]
    split <;> exact ⟨_, _, rfl⟩
  | hdrUnpack h => exact ⟨_, _, rfl⟩
  | widthOf l =>
    simp only [exec, execWidthOf]
    split <;> exact ⟨_, _, rfl⟩
  | wcEnc width =>
    simp only [exec, execWcEnc]
    split <;> exact ⟨_, _, rfl⟩
  | wcDec wc => exact ⟨_, _, rfl⟩
  | lenEmit width l => exact ⟨_, _, rfl⟩
  | lenAssemble bytes =>
    replace hw : lenAssembleOperand bytes = true := hw
    simp only [exec, execLenAssemble, if_pos hw]
    exact ⟨_, _, rfl⟩
  | _ => cases hc

/-- What serving the request `r` can do, one case for each kind of port. -/
inductive ServeMove (n : Nat) (r : Request) (s : State) : State → Prop where
  /-- ENC.ISSUE, with the operand buffers of the request (R160, R114). -/
  | encIssues (op : Bool) (tag : BitVec 4) (klen vlen : BitVec 64) (hport : r.port = .encCmd)
      (hp : s.enc.phase = Phase.idle.code) : ServeMove n r s (encLatch op tag klen vlen (accepted n r s))
  /-- DEC.ISSUE (R190). -/
  | decIssues (op : Bool) (hport : r.port = .decCmd) (hp : s.dec.phase = Phase.idle.code) :
      ServeMove n r s (decLatch op (accepted n r s))
  /-- ENC.RETIRE (R181). -/
  | encRetires (hport : r.port = .encRetire) (hp : s.enc.phase = Phase.done.code ∨ s.enc.phase = Phase.error.code) :
      ServeMove n r s (encFree (accepted n r s))
  /-- DEC.RETIRE (R219). -/
  | decRetires (hport : r.port = .decRetire)
      (hp : s.dec.phase = Phase.done.code ∨ s.dec.phase = Phase.error.code ∨ s.dec.phase = Phase.eos.code) :
      ServeMove n r s (decFree (accepted n r s))
  /-- A combinational port (R130, R140). -/
  | ports (hport : r.port ≠ .encCmd) (p : PortOutputs) (k : Nat) :
      ServeMove n r s { accepted n r s with ports := p, freeCount := k }

/-- Serving a request does one of the moves of `ServeMove`: no port carries a header word. -/
theorem serve_move {n : Nat} {r : Request} {i : Instr} {s t : State} (hd : decode (.request r.port r.word) = .ok i)
    (hx : exec i (accepted n r s) = .next t) : ServeMove n r s t := by
  obtain ⟨⟨w, he⟩, hw⟩ := decodeRequest_ok hd
  cases hc : combinational i with
  | true =>
    obtain ⟨p, k, hn⟩ := exec_combinational hc hw (accepted n r s)
    cases hn.symm.trans hx
    refine .ports (fun hport => ?_) p k
    rw [hport] at he
    cases i with
    | encodeTagged | encode => cases hc
    | _ => cases he
  | false =>
    cases i with
    | encodeTagged tag klen vlen =>
      obtain ⟨hp, rfl⟩ := encIssue_next hx
      exact .encIssues true tag klen vlen (Encoded.request.inj he).1.symm hp
    | encode tag klen vlen =>
      obtain ⟨hp, rfl⟩ := encIssue_next hx
      exact .encIssues false tag klen vlen (Encoded.request.inj he).1.symm hp
    | decodeTagged =>
      obtain ⟨hp, rfl⟩ := decIssue_next hx
      exact .decIssues true (Encoded.request.inj he).1.symm hp
    | decode =>
      obtain ⟨hp, rfl⟩ := decIssue_next hx
      exact .decIssues false (Encoded.request.inj he).1.symm hp
    | encRetire =>
      obtain ⟨hp, rfl⟩ := execEncRetire_next hx
      exact .encRetires (Encoded.request.inj he).1.symm hp
    | decRetire =>
      obtain ⟨hp, rfl⟩ := execDecRetire_next hx
      exact .decRetires (Encoded.request.inj he).1.symm hp
    | frameW1 | frameW1C | frameW2 | frameW2C | frameW3 | frameW3C | frameW4 | frameW4C => cases he
    | _ => cases hc

end Sys2Proof.Machine
end

section
/-! Each agent writes only what R43 lists for it. -/

namespace Sys2Proof.Machine

/-! ### What a turn leaves alone (R43) -/

/-- The encoder's turn writes its own registers, its command registers excepted, and the sink. -/
theorem encMove_frame {s t : State} (hm : EncMove s t) :
    t = { s with enc := t.enc, sink := t.sink, sinkAnswers := t.sinkAnswers } ∧
      t.enc.op = s.enc.op ∧ t.enc.tag = s.enc.tag ∧ t.enc.klen64 = s.enc.klen64 ∧ t.enc.vlen64 = s.enc.vlen64 := by
  cases hm with
  | validates hp =>
    obtain ⟨-, h⟩ | ⟨-, -, h⟩ | ⟨-, -, h⟩ | ⟨-, -, w, -, h⟩ := encValidate_cases s <;> rw [h] <;>
      exact ⟨rfl, rfl, rfl, rfl, rfl⟩
  | valueEnds hp hi =>
    obtain ⟨-, h⟩ | ⟨-, h⟩ := encValueAdvance_cases s <;> rw [h] <;> exact ⟨rfl, rfl, rfl, rfl, rfl⟩
  | _ => exact ⟨rfl, rfl, rfl, rfl, rfl⟩

/-- The decoder's turn writes its own registers but `OP`, the result buffers and the source. -/
theorem decMove_frame {s t : State} (hm : DecMove s t) :
    t = { s with dec := t.dec, rkbuf := t.rkbuf, rvbuf := t.rvbuf, sourceAnswers := t.sourceAnswers } ∧
      t.dec.op = s.dec.op := by
  cases hm with
  | takes p b rest hp ht hi ha => cases p <;> exact ⟨rfl, rfl⟩
  | ends p rest hp ht hi ha =>
    obtain ⟨-, -, h⟩ | ⟨-, h⟩ :=
      eosRaise_cases p (BitVec.ofNat 64 (decFieldLength s.dec p)) { s with sourceAnswers := rest } <;>
      rw [h] <;> exact ⟨rfl, rfl⟩
  | valueEnds hp hi => obtain ⟨-, h⟩ | ⟨-, h⟩ := decValueAdvance_cases s <;> rw [h] <;> exact ⟨rfl, rfl⟩
  | checks hp hi => obtain ⟨-, h⟩ | ⟨-, -, h⟩ := decChecksumAdvance_cases s <;> rw [h] <;> exact ⟨rfl, rfl⟩
  | _ => exact ⟨rfl, rfl⟩

/-- A requester's turn writes no working register of the encoder, no accumulator, no stream and no result buffer. -/
theorem requesterMove_frame {n : Nat} {s t : State} (hm : RequesterMove n s t) :
    t = { s with
      enc := { t.enc with
        klen := s.enc.klen, vlen := s.enc.vlen, width := s.enc.width, hdr := s.enc.hdr, dig := s.enc.dig, acc := s.enc.acc }
      dec := { t.dec with acc := s.dec.acc }
      kbuf := t.kbuf
      vbuf := t.vbuf
      requests := t.requests
      ports := t.ports
      freeCount := t.freeCount } := by
  cases hm with
  | absent hn => rfl
  | waits r i hn hd he => rfl
  | runs r i _ hn hd he hx => cases serve_move hd hx <;> rfl

/-- Settles O42: each agent's move is one of the listed cases, and none of them writes more. -/
theorem agentsWriteOnlyTheirOwn : Obligations.AgentsWriteOnlyTheirOwn := by
  intro s t ts h
  refine ⟨fun ht => ?_, fun ht => ?_, fun n ht => ?_⟩
  · exact encMove_frame (encTurn_move ((step_next_iff_agentTurn ht).mp h).2)
  · exact decMove_frame (decTurn_move ((step_next_iff_agentTurn ht).mp h).2)
  · exact requesterMove_frame (requesterTurn_move ((step_next_iff_agentTurn ht).mp h).2)

end Sys2Proof.Machine
end
section
/-! Every step keeps the invariant (R40). -/

namespace Sys2Proof.Machine

/-! ### The encoder -/

/-- An accumulator that has taken no byte holds `h_init`, hash or no hash. -/
theorem init_eq_fold_nil (en : Bool) (h : HashFn) : h.init = bif en then h.fold [] else h.init := by
  cases en <;> rfl

/-- One more byte through a strapped accumulator. -/
theorem hashed_append {en : Bool} {h : HashFn} {acc : Nat} {bytes : List Byte} (b : Byte)
    (ha : acc = bif en then h.fold bytes else h.init) :
    (bif en then h.update acc b else acc) = bif en then h.fold (bytes ++ [b]) else h.init := by
  subst ha
  cases en
  · rfl
  · simp

/-- Outside the fields of a frame the encoder's command has transferred no key or value byte that still counts. -/
theorem encTransferred_eq_nil (s : State) {p : Phase} (htr : p.transfers = false) : encTransferred s p = [] := by
  cases p with
  | key | value | checksum => cases htr
  | _ => rfl

/-- The encoder's invariant outside the fields of a frame: nothing is latched or hashed. -/
theorem encInv_of_not_transfers {t : State} (p : Phase) (hp : t.enc.phase = p.code) (hne : p ≠ .eos)
    (htr : p.transfers = false) (hidx : p.terminal = false → t.enc.idx = 0) (hacc : t.enc.acc = t.encHash.init)
    (hclear : p = .validate ∨ p = .done →
      t.enc.status = Status.ok.code ∧ t.enc.errphase = 0 ∧ t.enc.expected = 0 ∧ t.enc.actual = 0)
    (hcontext : encContext t.enc) (hterminal : p = .error → t.enc.status ≠ Status.ok.code) : EncInv t := by
  refine encInv_of_phase p hp hne ?_ ?_ ?_ ?_ ?_ hcontext hterminal
  · intro h; rw [hidx h]; exact Nat.zero_le _
  · intro h; cases htr.symm.trans h
  · rintro rfl; cases htr
  · rw [encTransferred_eq_nil t htr, ← init_eq_fold_nil]; exact hacc
  · rintro (h | h | h)
    · exact hclear (.inl h)
    · cases htr.symm.trans h
    · exact hclear (.inr h)

/-- The encoder's invariant from one field of a frame to the next byte or field: the latched registers and the status stay. -/
theorem encInv_of_transfers {s t : State} (h : EncInv s) {p q : Phase} (hp : s.enc.phase = p.code)
    (htp : p.transfers = true) (htq : q.transfers = true) {i d : BitVec 32} {a : Nat}
    (he : t.enc = { s.enc with phase := q.code, idx := i, acc := a, dig := d }) (hh : t.encHashEn = s.encHashEn)
    (hidx : i.toNat ≤ encFieldLength s.enc q)
    (hdigest : q = .checksum → t.encHashEn = true ∧
      t.enc.dig = t.encHash.dig (memBytes t.kbuf t.enc.klen.toNat ++ memBytes t.vbuf t.enc.vlen.toNat))
    (hacc : t.enc.acc = bif t.encHashEn then t.encHash.fold (encTransferred t q) else t.encHash.init) : EncInv t := by
  have hclear := h.clear p hp (.inr (.inl htp))
  refine encInv_of_phase q (by rw [he]) ?_ ?_ ?_ hdigest hacc ?_ (.inl ?_) ?_
  · rintro rfl; cases htq
  · intro _; rw [he]; cases q <;> exact hidx
  · intro _; rw [he, hh]; exact h.latched p hp htp
  · intro _; rw [he]; exact hclear
  · rw [he]; exact hclear
  · rintro rfl; cases htq

/-- A failure of the encoder with its context (R262). -/
theorem encRaise_inv {st : Status} {ph : Phase} {e a : BitVec 64} {s : State} (hst : st ≠ .ok)
    (hcontext : encContext (encRaise st ph e a s).enc) : EncInv (encRaise st ph e a s) :=
  encInv_of_not_transfers .error rfl (by decide) rfl (fun h => nomatch h) rfl (by simp) hcontext
    (fun _ => by simpa using hst)

theorem encComplete_inv (s : State) : EncInv (encComplete s) :=
  encInv_of_not_transfers .done rfl (by decide) rfl (fun h => nomatch h) rfl (fun _ => ⟨rfl, rfl, rfl, rfl⟩)
    (.inl ⟨rfl, rfl, rfl, rfl⟩) (by simp)

/-- The context of a refused byte: its index in the field it is of (R178). -/
theorem encContext_ioFailure {p : Phase} (ht : p.transfers = true) {s u : State} (hu : u.enc = s.enc)
    (hi : s.enc.idx.toNat < encFieldLength s.enc p) :
    encContext (encRaise .ioFailure p (BitVec.ofNat 64 (encFieldLength s.enc p)) (zext64 s.enc.idx) u).enc := by
  have hn := ofNat_encFieldLength s.enc p
  refine .inr (.inr (.inr (.inr ⟨rfl, ?_, p, ht, rfl, ?_⟩)))
  · rw [encRaise_enc_actual, encRaise_enc_expected, hn, zext64_toNat (by decide)]
    exact hi
  · rw [encRaise_enc_expected, hn, ← hu]
    cases p <;> rfl

/-- `VALIDATE` keeps the invariant: a rejected command reports the length it was given, an accepted one latches it. -/
theorem encValidate_inv {s : State} (h : EncInv s) (hp : s.enc.phase = Phase.validate.code) : EncInv (encValidate s) := by
  obtain ⟨hk, hv⟩ | ⟨hk, hl, hv⟩ | ⟨hk, hl, hv⟩ | ⟨hk, hl, w, hw, hv⟩ := encValidate_cases s <;> rw [hv]
  · exact encRaise_inv (by decide) (.inr (.inl ⟨rfl, rfl, rfl, rfl, hk⟩))
  · exact encRaise_inv (by decide) (.inr (.inr (.inl ⟨rfl, rfl, rfl, rfl, hl⟩)))
  · exact encRaise_inv (by decide) (.inr (.inr (.inr (.inl ⟨rfl, rfl, rfl, BitVec.eq_of_toNat_eq hl⟩))))
  · have hclear := h.clear .validate hp (.inl rfl)
    exact encInv_of_phase .header rfl (by decide) (fun _ => Nat.zero_le _)
      (fun _ => ⟨hk, hl, rfl, rfl, w, hw, rfl, rfl⟩) (fun hc => nomatch hc) (h.accumulated .validate hp) (fun _ => hclear)
      (.inl hclear) (fun hc => nomatch hc)

/-- An accepted push keeps the invariant: the byte counted is the byte hashed. -/
theorem encPushed_inv {s : State} (h : EncInv s) {p : Phase} (hp : s.enc.phase = p.code) (ht : p.transfers = true)
    (hi : s.enc.idx.toNat < encFieldLength s.enc p) (rest : List SinkAnswer) :
    EncInv (encPushed (encNextAcc s p) (encNextByte s p) rest s) := by
  have hsucc : (s.enc.idx + 1).toNat = s.enc.idx.toNat + 1 := idx_succ_toNat hi (encFieldLength_lt s.enc p)
  have hacc := h.accumulated p hp
  refine encInv_of_transfers h hp ht ht (by rw [← hp]; rfl) rfl (by omega) ?_ ?_
  · rintro rfl
    exact h.digest hp
  · cases p with
    | key =>
      have hnext : memBytes s.kbuf (s.enc.idx + 1).toNat = memBytes s.kbuf s.enc.idx.toNat ++ [encNextByte s .key] := by
        rw [hsucc, memBytes_succ]; rfl
      rw [encTransferred, encPushed_enc_idx, encPushed_kbuf, hnext]
      exact hashed_append _ hacc
    | value =>
      have hnext : memBytes s.vbuf (s.enc.idx + 1).toNat = memBytes s.vbuf s.enc.idx.toNat ++ [encNextByte s .value] := by
        rw [hsucc, memBytes_succ]; rfl
      rw [encTransferred, encPushed_enc_idx, encPushed_vbuf, hnext, ← List.append_assoc]
      exact hashed_append _ hacc
    | _ => exact hacc

/-- The advances of `HEADER`, `LENGTH` and `KEY` keep the invariant: a complete key is the key. -/
theorem encAdvance_inv {s : State} (h : EncInv s) {p q : Phase} (hp : s.enc.phase = p.code)
    (hq : (p = .header ∧ q = .length) ∨ (p = .length ∧ q = .key) ∨ (p = .key ∧ q = .value))
    (hi : s.enc.idx.toNat = encFieldLength s.enc p) : EncInv (encAdvance q s) := by
  have hsame : encTransferred (encAdvance q s) q = encTransferred s p ∧ p.transfers = true ∧ q.transfers = true ∧
      q ≠ .checksum := by
    obtain ⟨rfl, rfl⟩ | ⟨rfl, rfl⟩ | ⟨rfl, rfl⟩ := hq
    · exact ⟨rfl, rfl, rfl, by decide⟩
    · exact ⟨rfl, rfl, rfl, by decide⟩
    · replace hi : s.enc.idx.toNat = s.enc.klen.toNat := hi
      exact ⟨by simp [encTransferred, hi], rfl, rfl, by decide⟩
  obtain ⟨hsame, htp, htq, hne⟩ := hsame
  refine encInv_of_transfers h hp htp htq rfl rfl (Nat.zero_le _) (fun hc => absurd hc hne) ?_
  rw [hsame]
  exact h.accumulated p hp

/-- The `VALUE` advance keeps the invariant: the digest latched is that of key and value (R174, R236). -/
theorem encValueAdvance_inv {s : State} (h : EncInv s) (hp : s.enc.phase = Phase.value.code)
    (hi : s.enc.idx.toNat = s.enc.vlen.toNat) : EncInv (encValueAdvance s) := by
  obtain ⟨hen, hv⟩ | ⟨-, hv⟩ := encValueAdvance_cases s <;> rw [hv]
  · have hacc : s.enc.acc = s.encHash.fold (memBytes s.kbuf s.enc.klen.toNat ++ memBytes s.vbuf s.enc.vlen.toNat) := by
      simpa [hen, encTransferred, hi] using h.accumulated .value hp
    refine encInv_of_transfers h hp rfl rfl rfl rfl (Nat.zero_le _) (fun _ => ⟨hen, ?_⟩) ?_
    · exact (congrArg s.encHash.final hacc).trans (HashFn.final_fold _ _)
    · simpa [hen, encTransferred] using hacc
  · exact encComplete_inv s

/-- Every move of the encoder keeps its invariant. -/
theorem encMove_inv {s t : State} (h : EncInv s) (hm : EncMove s t) : EncInv t := by
  cases hm with
  | rests p hp hr => exact h
  | validates hp => exact encValidate_inv h hp
  | waits p hp ht hi ha => exact h
  | pushes p rest hp ht hi ha => exact encPushed_inv h hp ht hi rest
  | fails p rest hp ht hi ha => exact encRaise_inv (by decide) (encContext_ioFailure ht rfl hi)
  | advances p q hp hq hi => exact encAdvance_inv h hp hq hi
  | valueEnds hp hi => exact encValueAdvance_inv h hp hi
  | completes hp hi => exact encComplete_inv s

/-! ### The decoder -/

/-- Outside the fields of a frame the decoder's command has received no key or value byte that still counts. -/
theorem decTransferred_eq_nil (s : State) {p : Phase} (htr : p.transfers = false) : decTransferred s p = [] := by
  cases p with
  | key | value | checksum => cases htr
  | _ => rfl

/-- The decoder's invariant outside the fields of a frame: nothing is hashed. -/
theorem decInv_of_not_transfers {t : State} (p : Phase) (hp : t.dec.phase = p.code) (hne : p ≠ .validate)
    (htr : p.transfers = false) (hidx : p.terminal = false → t.dec.idx = 0) (hacc : t.dec.acc = t.decHash.init)
    (hclear : p = .done →
      t.dec.status = Status.ok.code ∧ t.dec.errphase = 0 ∧ t.dec.expected = 0 ∧ t.dec.actual = 0)
    (hcontext : decContext t.dec) (heos : p = .eos → t.dec.status = Status.endOfStream.code)
    (herror : p = .error → t.dec.status ≠ Status.ok.code ∧ t.dec.status ≠ Status.endOfStream.code)
    (hempty : p = .error ∨ p = .eos → t.dec.rklen = 0 ∧ t.dec.rvlen = 0 ∧ t.dec.rtag = 0)
    (hresult : p = .done →
      t.dec.rklen = t.dec.klen ∧ t.dec.rvlen = t.dec.vlen ∧ t.dec.rtag = bif t.dec.op then t.dec.tag else 0) : DecInv t := by
  have hbefore : p.afterHeader = false := by
    cases p with
    | length | key | value | checksum => cases htr
    | _ => rfl
  refine decInv_of_phase p hp hne ?_ ?_ ?_ ?_ ?_ hcontext heos herror ?_ hresult
  · intro h; rw [hidx h]; exact Nat.zero_le _
  · intro h; cases hbefore.symm.trans h
  · rintro rfl; cases htr
  · rw [decTransferred_eq_nil t htr, ← init_eq_fold_nil]; exact hacc
  · rintro (h | h | h)
    · exact absurd h hne
    · cases htr.symm.trans h
    · exact hclear h
  · rintro (h | h)
    · cases htr.symm.trans h
    · exact hempty h

/-- The decoder's invariant from one field of a frame to the next byte or field: command, results and status stay. -/
theorem decInv_of_transfers {s t : State} (h : DecInv s) {p q : Phase} (hp : s.dec.phase = p.code)
    (htp : p.transfers = true) (htq : q.transfers = true) {hdr : BitVec 16} {width : BitVec 3} {ck : Bool}
    {tag : BitVec 4} {klen : BitVec 9} {vlen digrx idx : BitVec 32} {acc : Nat}
    (he : t.dec = { s.dec with
      hdr := hdr, width := width, ck := ck, tag := tag, klen := klen, vlen := vlen, digrx := digrx, idx := idx, acc := acc
      phase := q.code })
    (hidx : t.dec.idx.toNat ≤ decFieldLength t.dec q)
    (hlatched : q.afterHeader = true →
      t.dec.width = (unpack t.dec.hdr).width.bits ∧ t.dec.ck = (unpack t.dec.hdr).ck ∧
      t.dec.tag = (unpack t.dec.hdr).tag ∧ t.dec.klen = (unpack t.dec.hdr).klen)
    (hflagged : q = .checksum → t.dec.ck = true)
    (hacc : t.dec.acc = bif verifies t then t.decHash.fold (decTransferred t q) else t.decHash.init) : DecInv t := by
  have hclear := h.clear p hp (.inr (.inl htp))
  refine decInv_of_phase q (by rw [he]) ?_ (fun _ => hidx) hlatched hflagged hacc ?_ (.inl ?_) ?_ ?_ ?_ ?_
  · rintro rfl; cases htq
  · intro _; rw [he]; exact hclear
  · rw [he]; exact hclear
  · rintro rfl; cases htq
  · rintro rfl; cases htq
  · intro _; rw [he]; exact h.results.1 p hp (.inl htp)
  · rintro rfl; cases htq

/-- A failure of the decoder in a field of a frame, with its context (R263, R214): nothing has been returned. -/
theorem decRaise_inv {st : Status} {ph : Phase} {e a : BitVec 64} {s : State} (h : DecInv s) {p : Phase}
    (hp : s.dec.phase = p.code) (htp : p.transfers = true) (hst : st ≠ .ok)
    (hcontext : decContext (decRaise st ph e a s).dec) : DecInv (decRaise st ph e a s) := by
  have hempty := h.results.1 p hp (.inl htp)
  by_cases heos : st = .endOfStream
  · subst heos
    exact decInv_of_not_transfers .eos rfl (by decide) rfl (fun hc => nomatch hc) rfl (fun hc => nomatch hc) hcontext
      (fun _ => rfl) (fun hc => nomatch hc) (fun _ => hempty) (fun hc => nomatch hc)
  · have hphase : decFailurePhase st = .error := by
      cases st with
      | endOfStream => exact absurd rfl heos
      | _ => rfl
    exact decInv_of_not_transfers .error (congrArg Phase.code hphase) (by decide) rfl (fun hc => nomatch hc) rfl
      (fun hc => nomatch hc) hcontext (fun hc => nomatch hc) (fun _ => by simp [hst, heos]) (fun _ => hempty)
      (fun hc => nomatch hc)

theorem decComplete_inv (s : State) : DecInv (decComplete s) :=
  decInv_of_not_transfers .done rfl (by decide) rfl (fun hc => nomatch hc) rfl (fun _ => ⟨rfl, rfl, rfl, rfl⟩)
    (.inl ⟨rfl, rfl, rfl, rfl⟩) (fun hc => nomatch hc) (fun hc => nomatch hc)
    (fun hc => hc.elim (fun h => nomatch h) (fun h => nomatch h)) (fun _ => ⟨rfl, rfl, rfl⟩)

/-- The context of a byte that the source did not give: its index in the field it is of (R195, R212). -/
theorem decContext_missing_byte {st : Status} (hst : st = .truncatedStream ∨ st = .ioFailure) {p : Phase}
    (ht : p.transfers = true) {s u : State} (hu : u.dec = s.dec) (hi : s.dec.idx.toNat < decFieldLength s.dec p) :
    decContext (decRaise st p (BitVec.ofNat 64 (decFieldLength s.dec p)) (zext64 s.dec.idx) u).dec := by
  have hn := ofNat_decFieldLength s.dec p
  refine .inr (.inr (.inr ⟨hst.imp (congrArg Status.code) (congrArg Status.code), ?_, p, ht, rfl, ?_⟩))
  · rw [decRaise_dec_actual, decRaise_dec_expected, hn, zext64_toNat (by decide)]
    exact hi
  · rw [decRaise_dec_expected, hn, ← hu]
    cases p <;> rfl

/-- The end of the source keeps the invariant, at a clean boundary and inside a frame (R194, R195). -/
theorem eosRaise_inv {s : State} (h : DecInv s) {p : Phase} (hp : s.dec.phase = p.code) (ht : p.transfers = true)
    (hi : s.dec.idx.toNat < decFieldLength s.dec p) : DecInv (eosRaise p (BitVec.ofNat 64 (decFieldLength s.dec p)) s) := by
  obtain ⟨-, -, he⟩ | ⟨-, he⟩ := eosRaise_cases p (BitVec.ofNat 64 (decFieldLength s.dec p)) s <;> rw [he]
  · exact decRaise_inv h hp ht (by decide) (.inr (.inl ⟨rfl, rfl, rfl, rfl⟩))
  · exact decRaise_inv h hp ht (by decide) (decContext_missing_byte (.inl rfl) ht rfl hi)

/-- A received byte keeps the invariant: the byte counted is the byte stored and hashed. -/
theorem decTakeByte_inv {s : State} (h : DecInv s) (hk : Memory.wf s.rkbuf) (hv : Memory.wf s.rvbuf) {p : Phase}
    (hp : s.dec.phase = p.code) (ht : p.transfers = true) (hi : s.dec.idx.toNat < decFieldLength s.dec p) (b : Byte) :
    DecInv (decTakeByte p b s) := by
  have hsucc : (s.dec.idx + 1).toNat = s.dec.idx.toNat + 1 := idx_succ_toNat hi (decFieldLength_lt s.dec p)
  have hidx : (s.dec.idx + 1).toNat ≤ decFieldLength s.dec p := by omega
  have hlatched := h.latched p hp
  have hflagged : p = .checksum → s.dec.ck = true := fun hc => h.flagged (hc ▸ hp)
  have hacc := h.accumulated p hp
  cases p with
  | header => exact decInv_of_transfers h hp ht ht (by rw [← hp]; rfl) hidx (fun hc => nomatch hc) hflagged hacc
  | length | checksum => exact decInv_of_transfers h hp ht ht (by rw [← hp]; rfl) hidx hlatched hflagged hacc
  | key =>
    refine decInv_of_transfers h hp ht ht (by rw [← hp]; rfl) hidx hlatched hflagged ?_
    have hnext : decTransferred (decTakeByte .key b s) .key = decTransferred s .key ++ [b] := by
      change memBytes (memWrite s.rkbuf s.dec.idx.toNat b) (s.dec.idx + 1).toNat = _
      rw [hsucc, memBytes_memWrite_next hk]; rfl
    rw [hnext]
    exact hashed_append b hacc
  | value =>
    refine decInv_of_transfers h hp ht ht (by rw [← hp]; rfl) hidx hlatched hflagged ?_
    have hnext : decTransferred (decTakeByte .value b s) .value = decTransferred s .value ++ [b] := by
      change memBytes s.rkbuf _ ++ memBytes (memWrite s.rvbuf s.dec.idx.toNat b) (s.dec.idx + 1).toNat = _
      rw [hsucc, memBytes_memWrite_next hv, ← List.append_assoc]; rfl
    rw [hnext]
    exact hashed_append b hacc
  | _ => cases ht

/-- The `HEADER` advance keeps the invariant: it latches the fields of the header word, and nothing is hashed yet (R196). -/
theorem decHeaderAdvance_inv {s : State} (h : DecInv s) (hp : s.dec.phase = Phase.header.code) :
    DecInv (decHeaderAdvance s) := by
  refine decInv_of_transfers h hp rfl (q := .length) rfl rfl (Nat.zero_le _) (fun _ => ⟨rfl, rfl, rfl, rfl⟩)
    (fun hc => nomatch hc) ?_
  have hacc : s.dec.acc = s.decHash.init := (h.accumulated .header hp).trans (init_eq_fold_nil _ _).symm
  exact hacc.trans (init_eq_fold_nil _ _)

/-- The advances of `LENGTH` and `KEY` keep the invariant: a complete key is the key. -/
theorem decAdvance_inv {s : State} (h : DecInv s) {p q : Phase} (hp : s.dec.phase = p.code)
    (hq : (p = .length ∧ q = .key) ∨ (p = .key ∧ q = .value)) (hi : s.dec.idx.toNat = decFieldLength s.dec p) :
    DecInv (decAdvance q s) := by
  have hacc := h.accumulated p hp
  obtain ⟨rfl, rfl⟩ | ⟨rfl, rfl⟩ := hq
  · exact decInv_of_transfers h hp rfl (q := .key) rfl rfl (Nat.zero_le _) (fun _ => h.latched _ hp rfl)
      (fun hc => nomatch hc) hacc
  · replace hi : s.dec.idx.toNat = s.dec.klen.toNat := hi
    refine decInv_of_transfers h hp rfl (q := .value) rfl rfl (Nat.zero_le _) (fun _ => h.latched _ hp rfl)
      (fun hc => nomatch hc) ?_
    have hkey : decTransferred (decAdvance .value s) .value = decTransferred s .key := by simp [decTransferred, hi]
    rw [hkey]
    exact hacc

/-- The `VALUE` advance keeps the invariant: a trailer follows only where the frame's flag is set (R205). -/
theorem decValueAdvance_inv {s : State} (h : DecInv s) (hp : s.dec.phase = Phase.value.code)
    (hi : s.dec.idx.toNat = s.dec.vlen.toNat) : DecInv (decValueAdvance s) := by
  obtain ⟨hck, hv⟩ | ⟨-, hv⟩ := decValueAdvance_cases s <;> rw [hv]
  · have hacc := h.accumulated .value hp
    rw [decTransferred, hi] at hacc
    exact decInv_of_transfers h hp rfl (q := .checksum) rfl rfl (Nat.zero_le _) (fun _ => h.latched _ hp rfl)
      (fun _ => hck) hacc
  · exact decComplete_inv s

/-- The `CHECKSUM` advance keeps the invariant (R209 to R211). -/
theorem decChecksumAdvance_inv {s : State} (h : DecInv s) (hp : s.dec.phase = Phase.checksum.code) :
    DecInv (decChecksumAdvance s) := by
  obtain ⟨-, hc⟩ | ⟨-, -, hc⟩ := decChecksumAdvance_cases s <;> rw [hc]
  · exact decComplete_inv s
  · exact decRaise_inv h hp rfl (by decide) (.inr (.inr (.inl ⟨rfl, rfl, rfl, rfl⟩)))

/-- Every move of the decoder keeps its invariant. -/
theorem decMove_inv {s t : State} (h : DecInv s) (hk : Memory.wf s.rkbuf) (hv : Memory.wf s.rvbuf) (hm : DecMove s t) :
    DecInv t := by
  have answered : ∀ rest, DecInv { s with sourceAnswers := rest } := fun _ => decInv_congr h rfl rfl rfl rfl rfl
  cases hm with
  | rests p hp hr => exact h
  | waits p hp ht hi ha => exact h
  | takes p b rest hp ht hi ha => exact decTakeByte_inv (answered rest) hk hv hp ht hi b
  | ends p rest hp ht hi ha => exact eosRaise_inv (answered rest) hp ht hi
  | fails p rest hp ht hi ha =>
    exact decRaise_inv (answered rest) hp ht (by decide) (decContext_missing_byte (.inr rfl) ht rfl hi)
  | takesHeader hr => exact decHeaderAdvance_inv h ((headerReady_iff s).mp hr).1
  | advances p q hp hq hi => exact decAdvance_inv h hp hq hi
  | valueEnds hp hi => exact decValueAdvance_inv h hp hi
  | checks hp hi => exact decChecksumAdvance_inv h hp

/-- Every move of the decoder keeps the result buffers in canonical form. -/
theorem decMove_buffers_wf {s t : State} (hk : Memory.wf s.rkbuf) (hv : Memory.wf s.rvbuf) (hm : DecMove s t) :
    Memory.wf t.rkbuf ∧ Memory.wf t.rvbuf := by
  cases hm with
  | takes p b rest hp ht hi ha =>
    cases p with
    | key => exact ⟨memWrite_wf hk _ b, hv⟩
    | value => exact ⟨hk, memWrite_wf hv _ b⟩
    | _ => exact ⟨hk, hv⟩
  | ends p rest hp ht hi ha =>
    obtain ⟨-, -, h⟩ | ⟨-, h⟩ :=
      eosRaise_cases p (BitVec.ofNat 64 (decFieldLength s.dec p)) { s with sourceAnswers := rest } <;>
      rw [h] <;> exact ⟨hk, hv⟩
  | valueEnds hp hi => obtain ⟨-, h⟩ | ⟨-, h⟩ := decValueAdvance_cases s <;> rw [h] <;> exact ⟨hk, hv⟩
  | checks hp hi => obtain ⟨-, h⟩ | ⟨-, -, h⟩ := decChecksumAdvance_cases s <;> rw [h] <;> exact ⟨hk, hv⟩
  | _ => exact ⟨hk, hv⟩

/-! ### Requests and reset -/

/-- ENC.ISSUE from `IDLE`, whatever operand buffers come with it: none of their bytes is hashed yet (R160). -/
theorem encLatch_inv {s : State} (hacc : s.enc.acc = s.encHash.init) (op : Bool) (tag : BitVec 4) (klen vlen : BitVec 64) :
    EncInv (encLatch op tag klen vlen s) :=
  encInv_of_not_transfers .validate rfl (by decide) rfl (fun _ => rfl) hacc (fun _ => ⟨rfl, rfl, rfl, rfl⟩)
    (.inl ⟨rfl, rfl, rfl, rfl⟩) (fun hc => nomatch hc)

/-- Outside the fields of a frame the encoder's accumulator is `h_init` (R234). -/
theorem encInv_acc_eq_init {s : State} (h : EncInv s) {p : Phase} (hp : s.enc.phase = p.code) (htr : p.transfers = false) :
    s.enc.acc = s.encHash.init := by
  rw [h.accumulated p hp, encTransferred_eq_nil s htr, ← init_eq_fold_nil]

/-- Outside the fields of a frame the decoder's accumulator is `h_init` (R234). -/
theorem decInv_acc_eq_init {s : State} (h : DecInv s) {p : Phase} (hp : s.dec.phase = p.code) (htr : p.transfers = false) :
    s.dec.acc = s.decHash.init := by
  rw [h.accumulated p hp, decTransferred_eq_nil s htr, ← init_eq_fold_nil]

/-- ENC.RETIRE keeps the status and its context (R180, R181). -/
theorem encFree_inv {s : State} (h : EncInv s) (hp : s.enc.phase = Phase.done.code ∨ s.enc.phase = Phase.error.code) :
    EncInv (encFree s) := by
  have hacc : s.enc.acc = s.encHash.init :=
    hp.elim (fun hp => encInv_acc_eq_init h hp rfl) (fun hp => encInv_acc_eq_init h hp rfl)
  exact encInv_of_not_transfers .idle rfl (by decide) rfl (fun _ => rfl) hacc
    (fun hc => hc.elim (fun hc => nomatch hc) (fun hc => nomatch hc)) h.context (fun hc => nomatch hc)

/-- DEC.ISSUE from `IDLE` clears what the last command left (R190). -/
theorem decLatch_inv {s : State} (hacc : s.dec.acc = s.decHash.init) (op : Bool) : DecInv (decLatch op s) :=
  decInv_of_phase .header rfl (by decide) (fun _ => Nat.zero_le _) (fun hc => nomatch hc) (fun hc => nomatch hc)
    (hacc.trans (init_eq_fold_nil _ _)) (fun _ => ⟨rfl, rfl, rfl, rfl⟩) (.inl ⟨rfl, rfl, rfl, rfl⟩) (fun hc => nomatch hc)
    (fun hc => nomatch hc) (fun _ => ⟨rfl, rfl, rfl⟩) (fun hc => nomatch hc)

/-- DEC.RETIRE keeps the status and its context (R215, R219). -/
theorem decFree_inv {s : State} (h : DecInv s)
    (hp : s.dec.phase = Phase.done.code ∨ s.dec.phase = Phase.error.code ∨ s.dec.phase = Phase.eos.code) :
    DecInv (decFree s) := by
  have hacc : s.dec.acc = s.decHash.init := by
    obtain hp | hp | hp := hp <;> exact decInv_acc_eq_init h hp rfl
  exact decInv_of_not_transfers .idle rfl (by decide) rfl (fun _ => rfl) hacc (fun hc => nomatch hc) h.context
    (fun hc => nomatch hc) (fun hc => nomatch hc) (fun hc => hc.elim (fun hc => nomatch hc) (fun hc => nomatch hc))
    (fun hc => nomatch hc)

/-- A served request leaves the queue, and only an encoder command exchanges operand buffers, for canonical ones. -/
theorem accepted_buffers {n : Nat} {r : Request} {s : State} (h : buffersCanonical s) (hr : r ∈ s.requests) :
    buffersCanonical (accepted n r s) := by
  obtain ⟨hk, hv, hrk, hrv, hq⟩ := h
  obtain ⟨hrk', hrv'⟩ := hq r hr
  refine ⟨?_, ?_, hrk, hrv, fun q hmem => hq q (List.mem_of_mem_eraseIdx hmem)⟩
  · rw [accepted_kbuf]; split
    · exact hrk'
    · exact hk
  · rw [accepted_vbuf]; split
    · exact hrv'
    · exact hv

/-- Serving a request that is no encoder command does not touch what the encoder's invariant speaks of. -/
theorem accepted_encInv {n : Nat} {r : Request} {s : State} (h : EncInv s) (hport : r.port ≠ .encCmd) :
    EncInv (accepted n r s) :=
  encInv_congr h rfl rfl rfl (by rw [accepted_kbuf, if_neg hport]) (by rw [accepted_vbuf, if_neg hport])

theorem accepted_decInv {n : Nat} {r : Request} {s : State} (h : DecInv s) : DecInv (accepted n r s) :=
  decInv_congr h rfl rfl rfl rfl rfl

/-- Serving a waiting request keeps the invariant. -/
theorem serveMove_inv {n : Nat} {r : Request} {s t : State} (h : Inv s) (hr : r ∈ s.requests) (hm : ServeMove n r s t) :
    Inv t := by
  have hbuf : buffersCanonical (accepted n r s) := accepted_buffers h.buffers hr
  have hdec : DecInv (accepted n r s) := accepted_decInv h.dec
  cases hm with
  | encIssues op tag klen vlen hport hp =>
    have hacc : s.enc.acc = s.encHash.init := encInv_acc_eq_init h.enc (p := .idle) hp rfl
    exact ⟨encLatch_inv (s := accepted n r s) hacc op tag klen vlen, decInv_congr hdec rfl rfl rfl rfl rfl, hbuf⟩
  | decIssues op hport hp =>
    have henc : EncInv (accepted n r s) := accepted_encInv h.enc (by rw [hport]; decide)
    have hacc : s.dec.acc = s.decHash.init := decInv_acc_eq_init h.dec (p := .idle) hp rfl
    exact ⟨encInv_congr henc rfl rfl rfl rfl rfl, decLatch_inv (s := accepted n r s) hacc op, hbuf⟩
  | encRetires hport hp =>
    have henc : EncInv (accepted n r s) := accepted_encInv h.enc (by rw [hport]; decide)
    exact ⟨encFree_inv henc hp, decInv_congr hdec rfl rfl rfl rfl rfl, hbuf⟩
  | decRetires hport hp =>
    have henc : EncInv (accepted n r s) := accepted_encInv h.enc (by rw [hport]; decide)
    exact ⟨encInv_congr henc rfl rfl rfl rfl rfl, decFree_inv hdec hp, hbuf⟩
  | ports hport p k =>
    have henc : EncInv (accepted n r s) := accepted_encInv h.enc hport
    exact ⟨encInv_congr henc rfl rfl rfl rfl rfl, decInv_congr hdec rfl rfl rfl rfl rfl, hbuf⟩

/-- Hardware reset establishes the invariant of both units, from any state (R41). -/
theorem hwReset_encInv (s : State) : EncInv (hwReset s) :=
  encInv_of_not_transfers .idle rfl (by decide) rfl (fun _ => rfl) rfl
    (fun hc => hc.elim (fun hc => nomatch hc) (fun hc => nomatch hc)) (.inl ⟨rfl, rfl, rfl, rfl⟩) (fun hc => nomatch hc)

theorem hwReset_decInv (s : State) : DecInv (hwReset s) :=
  decInv_of_not_transfers .idle rfl (by decide) rfl (fun _ => rfl) rfl (fun hc => nomatch hc)
    (.inl ⟨rfl, rfl, rfl, rfl⟩) (fun hc => nomatch hc) (fun hc => nomatch hc)
    (fun hc => hc.elim (fun hc => nomatch hc) (fun hc => nomatch hc)) (fun hc => nomatch hc)

theorem hwReset_inv {s : State} (h : buffersCanonical s) : Inv (hwReset s) :=
  ⟨hwReset_encInv s, hwReset_decInv s, h⟩

/-! ### Steps -/

/-- The invariant does not depend on whose turn it is. -/
theorem inv_turns {s : State} (h : Inv s) (ts : List Agent) : Inv { s with turns := ts } :=
  ⟨encInv_congr h.enc rfl rfl rfl rfl rfl, decInv_congr h.dec rfl rfl rfl rfl rfl, h.buffers⟩

/-- An encoder's move keeps the invariant: it writes nothing that the decoder's half and the buffers depend on. -/
theorem encMove_keeps_inv {s t : State} (h : Inv s) (hm : EncMove s t) : Inv t := by
  obtain ⟨hf, -⟩ := encMove_frame hm
  have hbuf : buffersCanonical t := by rw [hf]; exact h.buffers
  have hdec : DecInv t := by
    rw [hf]; exact decInv_congr h.dec rfl rfl rfl rfl rfl
  exact ⟨encMove_inv h.enc hm, hdec, hbuf⟩

/-- A decoder's move keeps the invariant. -/
theorem decMove_keeps_inv {s t : State} (h : Inv s) (hm : DecMove s t) : Inv t := by
  obtain ⟨hk, hv, hrk, hrv, hq⟩ := h.buffers
  obtain ⟨hf, -⟩ := decMove_frame hm
  obtain ⟨hrk', hrv'⟩ := decMove_buffers_wf hrk hrv hm
  have henc : EncInv t := by
    rw [hf]; exact encInv_congr h.enc rfl rfl rfl rfl rfl
  have hbuf : buffersCanonical t := by
    rw [hf]; exact ⟨hk, hv, hrk', hrv', hq⟩
  exact ⟨henc, decMove_inv h.dec hrk hrv hm, hbuf⟩

/-- A requester's move keeps the invariant. -/
theorem requesterMove_keeps_inv {n : Nat} {s t : State} (h : Inv s) (hm : RequesterMove n s t) : Inv t := by
  cases hm with
  | absent hn => exact h
  | waits r i hn hd he => exact h
  | runs r i _ hn hd he hx => exact serveMove_inv h (List.mem_of_getElem? hn) (serve_move hd hx)

/-- Settles O39: whichever agent moves, its moves keep the invariant. -/
theorem stepKeepsInvariant : Obligations.StepKeepsInvariant := by
  intro s t h hs
  cases step_move hs with
  | still ht => exact h
  | enc rest _ ht hm => exact encMove_keeps_inv (inv_turns h rest) hm
  | dec rest _ ht hr hm => exact decMove_keeps_inv (inv_turns h rest) hm
  | header rest _ ht hr hx =>
    have hturn : decTurn { s with turns := rest } = .next t := by rw [decTurn, if_pos hr]; exact hx
    exact decMove_keeps_inv (inv_turns h rest) (decTurn_move hturn)
  | requester n rest _ ht hm => exact requesterMove_keeps_inv (inv_turns h rest) hm
  | reset rest ht => exact hwReset_inv (inv_turns h rest).buffers

end Sys2Proof.Machine
end

section
/-! Which states have a step: every state that keeps the invariant, and none with an unreachable phase code. -/

namespace Sys2Proof.Machine

/-! ### Unreachable phases -/

/-- Settles O36: `nextTurn` tests the encoder's code first and the decoder's second. -/
theorem unreachablePhasesAreRefused : Obligations.UnreachablePhasesAreRefused := by
  intro s
  have henc : 9 ≤ s.enc.phase.toNat → encPhaseReachable s = false := fun h =>
    Bool.eq_false_iff.mpr fun hr => by have := encPhaseReachable_iff.mp hr; omega
  have hdec : s.dec.phase = 1 ∨ 10 ≤ s.dec.phase.toNat → decPhaseReachable s = false := fun h =>
    Bool.eq_false_iff.mpr fun hr => by
      obtain ⟨hne, hle⟩ := decPhaseReachable_iff.mp hr
      exact h.elim hne (by omega)
  refine ⟨fun he _ => ?_, fun he hd => ?_, fun he _ => .inl ?_, ?_, inv_phasesReachable⟩
  · exact step_of_enc_unreachable (henc he)
  · exact step_of_dec_unreachable (encPhaseReachable_iff.mpr he) (hdec hd)
  · exact step_of_enc_unreachable (henc he)
  · rw [phasesReachable_iff, encPhaseReachable_iff, decPhaseReachable_iff]

/-! ### Steps from states that keep the invariant -/

theorem encField_completes {n : Nat} {b a : Host.Outcome State Fault Refusal} {s : State} (hi : s.enc.idx.toNat ≤ n)
    (hb : s.enc.idx.toNat < n → ∃ t, b = .next t) (ha : ∃ t, a = .next t) : ∃ t, encField n b a s = .next t := by
  unfold encField
  by_cases hlt : s.enc.idx.toNat < n
  · rw [if_pos hlt]; exact hb hlt
  · rw [if_neg hlt, if_pos (by omega)]; exact ha

/-- The encoder's turn completes: `IDX` is within its field, and the latched lengths within those of the command. -/
theorem encTurn_completes {s : State} (h : EncInv s) : ∃ t, encTurn s = .next t := by
  obtain ⟨p, hne, hp⟩ := h.phase
  unfold encTurn
  rw [hp, Phase.ofCode_code]
  cases p with
  | header => exact encField_completes (h.idx .header hp rfl) (fun _ => ⟨_, rfl⟩) ⟨_, rfl⟩
  | length => exact encField_completes (h.idx .length hp rfl) (fun _ => ⟨_, rfl⟩) ⟨_, rfl⟩
  | key =>
    obtain ⟨-, -, hk, -, -⟩ := h.latched .key hp rfl
    refine encField_completes (h.idx .key hp rfl) (fun hlt => ⟨_, if_pos ?_⟩) ⟨_, rfl⟩
    rw [hk, BitVec.toNat_setWidth] at hlt
    exact Nat.lt_of_lt_of_le hlt (Nat.mod_le _ _)
  | value =>
    obtain ⟨-, -, -, hv, -⟩ := h.latched .value hp rfl
    refine encField_completes (h.idx .value hp rfl) (fun hlt => ⟨_, if_pos ?_⟩) ⟨_, rfl⟩
    rw [hv, BitVec.toNat_setWidth] at hlt
    exact Nat.lt_of_lt_of_le hlt (Nat.mod_le _ _)
  | checksum => exact encField_completes (h.idx .checksum hp rfl) (fun _ => ⟨_, rfl⟩) ⟨_, rfl⟩
  | eos => exact absurd rfl hne
  | idle | validate | done | error => exact ⟨_, rfl⟩

theorem decField_completes {n : Nat} {b a s : State} (hi : s.dec.idx.toNat ≤ n) : ∃ t, decField n b a s = .next t := by
  unfold decField
  by_cases hlt : s.dec.idx.toNat < n
  · exact ⟨b, if_pos hlt⟩
  · exact ⟨a, by rw [if_neg hlt, if_pos (by omega)]⟩

/-- The decoder's turn completes: `IDX` is within its field. -/
theorem decTurn_completes {s : State} (h : DecInv s) : ∃ t, decTurn s = .next t := by
  obtain ⟨p, hne, hp⟩ := h.phase
  rw [decTurn_eq_decStep]
  unfold decStep
  rw [hp, Phase.ofCode_code]
  cases p with
  | header => exact decField_completes (h.idx .header hp rfl)
  | length => exact decField_completes (h.idx .length hp rfl)
  | key => exact decField_completes (h.idx .key hp rfl)
  | value => exact decField_completes (h.idx .value hp rfl)
  | checksum => exact decField_completes (h.idx .checksum hp rfl)
  | validate => exact absurd rfl hne
  | idle | done | error | eos => exact ⟨_, rfl⟩

/-- An enabled operation with operands in their domain completes. -/
theorem exec_completes {i : Instr} {s : State} (hw : WellFormed i = true) (he : enabled i s = true) :
    ∃ t, exec i s = .next t := by
  cases hc : combinational i with
  | true =>
    obtain ⟨p, k, hn⟩ := exec_combinational hc hw s
    exact ⟨_, hn⟩
  | false =>
    cases i with
    | frameW1 | frameW1C | frameW2 | frameW2C | frameW3 | frameW3C | frameW4 | frameW4C => exact ⟨_, if_pos he⟩
    | encodeTagged | encode | decodeTagged | decode => exact ⟨_, if_neg (by simpa [enabled] using he)⟩
    | encRetire | decRetire => exact ⟨_, if_pos he⟩
    | _ => cases hc

/-- Taking a request off the queue enables nothing and disables nothing. -/
theorem enabled_accepted (i : Instr) (n : Nat) (r : Request) (s : State) : enabled i (accepted n r s) = enabled i s := by
  cases i <;> rfl

/-- A requester's turn stops at a word that is no request of its port and at nothing else. -/
theorem requesterTurn_completes_or_undecodable (n : Nat) (s : State) :
    (∃ t, requesterTurn n s = .next t) ∨ ∃ e, requesterTurn n s = .refused (.undecodable e) := by
  unfold requesterTurn
  split
  · exact .inl ⟨s, rfl⟩
  · next r hn =>
    unfold serve
    split
    · next e hd => exact .inr ⟨e, rfl⟩
    · next i hd =>
      obtain ⟨-, hw⟩ := decodeRequest_ok hd
      by_cases he : enabled i s = true
      · rw [if_pos he]
        exact .inl (exec_completes hw ((enabled_accepted i n r s).trans he))
      · exact .inl ⟨s, if_neg he⟩

/-- Settles O40: each agent's turn completes, but for a requester's with a word that is no request. -/
theorem invariantStatesStepSafely : Obligations.InvariantStatesStepSafely := by
  intro s h
  unfold StepSafe
  rw [step_of_reachable (inv_phasesReachable h)]
  unfold takeTurn
  split
  · exact .inl ⟨s, rfl⟩
  · next a ts ht =>
    have hturn := inv_turns h ts
    cases a with
    | enc => exact .inl (encTurn_completes hturn.enc)
    | dec => exact .inl (decTurn_completes hturn.dec)
    | requester n => exact requesterTurn_completes_or_undecodable n _
    | reset => exact .inl ⟨_, rfl⟩

end Sys2Proof.Machine
end
section
/-! A unit's turn depends on its own registers, strap, hash, buffers and stream only (R43): it commutes with exchanging
everything else. -/

namespace Sys2Proof.Machine

/-- An outcome with its next state, if there is one, changed by `f`. -/
def mapNext (f : State → State) : Host.Outcome State Fault Refusal → Host.Outcome State Fault Refusal
  | .next t => .next (f t)
  | .fault r => .fault r
  | .refused r => .refused r

/-! ### The encoder -/

/-- The state that is `s` to the encoder and `o` to everybody else. -/
def encView (o s : State) : State :=
  { o with
    enc := s.enc
    encHashEn := s.encHashEn
    encHash := s.encHash
    kbuf := s.kbuf
    vbuf := s.vbuf
    sink := s.sink
    sinkAnswers := s.sinkAnswers }

/-- Where strap, hash and operands agree, a view differs from `o` in what an encoder's turn writes. -/
theorem encView_of_agree {o s : State} (hh : o.encHashEn = s.encHashEn) (hf : o.encHash = s.encHash)
    (hk : o.kbuf = s.kbuf) (hv : o.vbuf = s.vbuf) :
    encView o s = { o with enc := s.enc, sink := s.sink, sinkAnswers := s.sinkAnswers } := by
  simp only [encView, ← hh, ← hf, ← hk, ← hv]

@[simp] theorem encView_enc (o s : State) : (encView o s).enc = s.enc := rfl
@[simp] theorem encView_encHashEn (o s : State) : (encView o s).encHashEn = s.encHashEn := rfl
@[simp] theorem encView_sinkAnswers (o s : State) : (encView o s).sinkAnswers = s.sinkAnswers := rfl

theorem encPush_encView (ph : Phase) (n : BitVec 64) (acc : Nat) (b : Byte) (o s : State) :
    encPush ph n acc b (encView o s) = encView o (encPush ph n acc b s) := by
  unfold encPush
  rw [encView_sinkAnswers]
  cases s.sinkAnswers with
  | nil => rfl
  | cons a rest => cases a <;> rfl

theorem encValidate_encView (o s : State) : encValidate (encView o s) = encView o (encValidate s) := by
  unfold encValidate
  rw [encView_enc]
  by_cases hk : 511 < s.enc.klen64.toNat
  · simp only [if_pos hk]; rfl
  · by_cases hv : 4294967296 < s.enc.vlen64.toNat
    · simp only [if_neg hk, if_pos hv]; rfl
    · simp only [if_neg hk, if_neg hv]
      cases widthOf s.enc.vlen64 <;> rfl

theorem encValueAdvance_encView (o s : State) : encValueAdvance (encView o s) = encView o (encValueAdvance s) := by
  unfold encValueAdvance
  rw [encView_encHashEn]
  cases s.encHashEn <;> rfl

theorem encField_encView {n : Nat} {b b' a a' : Host.Outcome State Fault Refusal} {o s : State}
    (hb : b' = mapNext (encView o) b) (ha : a' = mapNext (encView o) a) :
    encField n b' a' (encView o s) = mapNext (encView o) (encField n b a s) := by
  subst hb ha
  unfold encField
  rw [encView_enc]
  split
  · rfl
  · split <;> rfl

theorem encKeyByte_encView (o s : State) : encKeyByte (encView o s) = mapNext (encView o) (encKeyByte s) := by
  unfold encKeyByte
  rw [encView_enc]
  split
  · exact congrArg Host.Outcome.next (encPush_encView ..)
  · rfl

theorem encValueByte_encView (o s : State) : encValueByte (encView o s) = mapNext (encView o) (encValueByte s) := by
  unfold encValueByte
  rw [encView_enc]
  split
  · exact congrArg Host.Outcome.next (encPush_encView ..)
  · rfl

/-- The encoder's turn is the same whatever stands outside its view. -/
theorem encTurn_encView (o s : State) : encTurn (encView o s) = mapNext (encView o) (encTurn s) := by
  unfold encTurn
  rw [encView_enc]
  cases Phase.ofCode s.enc.phase with
  | none => rfl
  | some p =>
    cases p with
    | validate => exact congrArg Host.Outcome.next (encValidate_encView o s)
    | header | length | checksum => exact encField_encView (congrArg Host.Outcome.next (encPush_encView ..)) rfl
    | key => exact encField_encView (encKeyByte_encView o s) rfl
    | value =>
      exact encField_encView (encValueByte_encView o s) (congrArg Host.Outcome.next (encValueAdvance_encView o s))
    | idle | done | error | eos => rfl

/-- A state that agrees with another on the encoder's view is that view in its own surroundings (R43). -/
theorem encTurn_of_agree {o s t : State} (he : o.enc = s.enc) (hh : o.encHashEn = s.encHashEn) (hf : o.encHash = s.encHash)
    (hk : o.kbuf = s.kbuf) (hv : o.vbuf = s.vbuf) (hsink : o.sink = s.sink) (hans : o.sinkAnswers = s.sinkAnswers)
    (hs : encTurn s = .next t) :
    encTurn o = .next { o with enc := t.enc, sink := t.sink, sinkAnswers := t.sinkAnswers } := by
  obtain ⟨hframe, -⟩ := encMove_frame (encTurn_move hs)
  have hview : encView o s = o := by rw [encView_of_agree hh hf hk hv, ← he, ← hsink, ← hans]
  have hh' : o.encHashEn = t.encHashEn := hh.trans (congrArg State.encHashEn hframe).symm
  have hf' : o.encHash = t.encHash := hf.trans (congrArg State.encHash hframe).symm
  have hk' : o.kbuf = t.kbuf := hk.trans (congrArg State.kbuf hframe).symm
  have hv' : o.vbuf = t.vbuf := hv.trans (congrArg State.vbuf hframe).symm
  calc encTurn o
    _ = encTurn (encView o s) := by rw [hview]
    _ = .next (encView o t) := by rw [encTurn_encView, hs]; rfl
    _ = _ := congrArg Host.Outcome.next (encView_of_agree hh' hf' hk' hv')

/-! ### The decoder -/

/-- The state that is `s` to the decoder and `o` to everybody else. -/
def decView (o s : State) : State :=
  { o with
    dec := s.dec
    decHashEn := s.decHashEn
    decHash := s.decHash
    rkbuf := s.rkbuf
    rvbuf := s.rvbuf
    sourceAnswers := s.sourceAnswers }

/-- Where strap and hash agree, a view differs from `o` in what a decoder's turn writes. -/
theorem decView_of_agree {o s : State} (hh : o.decHashEn = s.decHashEn) (hf : o.decHash = s.decHash) :
    decView o s = { o with dec := s.dec, rkbuf := s.rkbuf, rvbuf := s.rvbuf, sourceAnswers := s.sourceAnswers } := by
  simp only [decView, ← hh, ← hf]

@[simp] theorem decView_dec (o s : State) : (decView o s).dec = s.dec := rfl
@[simp] theorem decView_decHashEn (o s : State) : (decView o s).decHashEn = s.decHashEn := rfl
@[simp] theorem decView_decHash (o s : State) : (decView o s).decHash = s.decHash := rfl
@[simp] theorem decView_sourceAnswers (o s : State) : (decView o s).sourceAnswers = s.sourceAnswers := rfl

theorem eosRaise_decView (ph : Phase) (n : BitVec 64) (o s : State) :
    eosRaise ph n (decView o s) = decView o (eosRaise ph n s) := by
  unfold eosRaise
  rw [decView_dec]
  split <;> rfl

theorem decPull_decView {ph : Phase} {n : BitVec 64} {take : Byte → State → State} {o s : State}
    (htake : ∀ b u, take b (decView o u) = decView o (take b u)) :
    decPull ph n take (decView o s) = decView o (decPull ph n take s) := by
  unfold decPull
  rw [decView_sourceAnswers]
  cases s.sourceAnswers with
  | nil => rfl
  | cons a rest =>
    cases a with
    | byte b => exact htake b { s with sourceAnswers := rest }
    | eos => exact eosRaise_decView ph n o { s with sourceAnswers := rest }
    | err => rfl

theorem decValueAdvance_decView (o s : State) : decValueAdvance (decView o s) = decView o (decValueAdvance s) := by
  unfold decValueAdvance
  rw [decView_dec]
  cases s.dec.ck <;> rfl

theorem decChecksumAdvance_decView (o s : State) :
    decChecksumAdvance (decView o s) = decView o (decChecksumAdvance s) := by
  unfold decChecksumAdvance
  rw [decView_decHashEn, decView_decHash, decView_dec]
  cases s.decHashEn with
  | false => rfl
  | true =>
    by_cases hd : s.decHash.final s.dec.acc = s.dec.digrx
    · simp only [if_pos hd]; rfl
    · simp only [if_neg hd]; rfl

theorem decField_decView {n : Nat} {b b' a a' o s : State} (hb : b' = decView o b) (ha : a' = decView o a) :
    decField n b' a' (decView o s) = mapNext (decView o) (decField n b a s) := by
  subst hb ha
  unfold decField
  rw [decView_dec]
  split
  · rfl
  · split <;> rfl

/-- The decoder's turn is the same whatever stands outside its view. -/
theorem decTurn_decView (o s : State) : decTurn (decView o s) = mapNext (decView o) (decTurn s) := by
  rw [decTurn_eq_decStep, decTurn_eq_decStep]
  unfold decStep
  rw [decView_dec]
  cases Phase.ofCode s.dec.phase with
  | none => rfl
  | some p =>
    cases p with
    | header | length | key => exact decField_decView (decPull_decView fun _ _ => rfl) rfl
    | value => exact decField_decView (decPull_decView fun _ _ => rfl) (decValueAdvance_decView o s)
    | checksum => exact decField_decView (decPull_decView fun _ _ => rfl) (decChecksumAdvance_decView o s)
    | idle | validate | done | error | eos => rfl

/-- A state that agrees with another on the decoder's view is that view in its own surroundings (R43). -/
theorem decTurn_of_agree {o s t : State} (hd : o.dec = s.dec) (hh : o.decHashEn = s.decHashEn) (hf : o.decHash = s.decHash)
    (hrk : o.rkbuf = s.rkbuf) (hrv : o.rvbuf = s.rvbuf) (hans : o.sourceAnswers = s.sourceAnswers)
    (hs : decTurn s = .next t) :
    decTurn o = .next { o with dec := t.dec, rkbuf := t.rkbuf, rvbuf := t.rvbuf, sourceAnswers := t.sourceAnswers } := by
  obtain ⟨hframe, -⟩ := decMove_frame (decTurn_move hs)
  have hview : decView o s = o := by rw [decView_of_agree hh hf, ← hd, ← hrk, ← hrv, ← hans]
  have hh' : o.decHashEn = t.decHashEn := hh.trans (congrArg State.decHashEn hframe).symm
  have hf' : o.decHash = t.decHash := hf.trans (congrArg State.decHash hframe).symm
  calc decTurn o
    _ = decTurn (decView o s) := by rw [hview]
    _ = .next (decView o t) := by rw [decTurn_decView, hs]; rfl
    _ = _ := congrArg Host.Outcome.next (decView_of_agree hh' hf')

/-- Settles O43: each unit's turn is determined by what that unit sees. -/
theorem unitsSeeOnlyTheirOwn : Obligations.UnitsSeeOnlyTheirOwn := by
  intro s s' t ts ts' hr h
  refine ⟨fun ht ht' he hh hf hk hv hsink hans => ?_, fun ht ht' hd hh hf hrk hrv hans => ?_⟩
  · have hs : encTurn { s with turns := ts } = .next t := ((step_next_iff_agentTurn ht).mp h).2
    exact (step_next_iff_agentTurn ht').mpr
      ⟨hr, encTurn_of_agree (o := { s' with turns := ts' }) (s := { s with turns := ts }) he hh hf hk hv hsink hans hs⟩
  · have hs : decTurn { s with turns := ts } = .next t := ((step_next_iff_agentTurn ht).mp h).2
    exact (step_next_iff_agentTurn ht').mpr
      ⟨hr, decTurn_of_agree (o := { s' with turns := ts' }) (s := { s with turns := ts }) hd hh hf hrk hrv hans hs⟩

end Sys2Proof.Machine
end
section
/-! Reset, and what the host reads. -/

namespace Sys2Proof.Machine

/-- Settles O37: reset is an agent whose turn is `hwReset`, which leaves the result buffers as they are (log entry 9). -/
theorem hardwareResetStep : Obligations.HardwareResetStep := by
  intro s ts hr ht
  exact ⟨s.rkbuf, s.rvbuf, (step_next_iff_agentTurn ht).mpr ⟨hr, rfl⟩⟩

/-- Settles O38: a reset state is its own reset, and reset establishes the invariant where the buffers are canonical. -/
theorem resetStateIsAfterReset : Obligations.ResetStateIsAfterReset := by
  refine ⟨fun encEn decEn encH decH => ?_, false, false, .injected 0, .injected 0, rfl⟩
  have hfix : hwReset (State.resetOf encEn decEn encH decH) = State.resetOf encEn decEn encH decH := rfl
  have hbuf : buffersCanonical (State.resetOf encEn decEn encH decH) :=
    ⟨nil_wf, nil_wf, nil_wf, nil_wf, fun _ hr => nomatch hr⟩
  exact ⟨hfix, hfix ▸ hwReset_inv hbuf⟩

theorem cfgValue_toNat (hashEn : Bool) : (cfgValue hashEn).toNat = hashEn.toNat := by
  cases hashEn <;> rfl

/-- Bit vectors side by side, as numbers. -/
theorem append_toNat {m n : Nat} (x : BitVec m) (y : BitVec n) : (x ++ y).toNat = x.toNat * 2 ^ n + y.toNat := by
  rw [BitVec.toNat_append, ← Nat.shiftLeft_add_eq_or_of_lt y.isLt, Nat.shiftLeft_eq]

/-- The fields of a status register side by side: bit 3 is 0. -/
theorem statusValue_toNat (errphase : BitVec 4) (code : BitVec 3) :
    (statusValue errphase code).toNat = errphase.toNat * 16 + code.toNat := by
  rw [statusValue, append_toNat, append_toNat, BitVec.toNat_ofNat]
  omega

/-- Settles O58: each register is read zero-extended, so its number is that of the field. -/
theorem hostReadsRegisters : Obligations.HostReadsRegisters := by
  intro s
  refine ⟨?_, ?_, ?_, ?_, ?_, ?_, rfl, rfl, rfl, rfl, ?_, ?_, ?_⟩
  · exact (zext64_toNat (by decide) _).trans (cfgValue_toNat _)
  · exact (zext64_toNat (by decide) _).trans (cfgValue_toNat _)
  · exact zext64_toNat (by decide) _
  · exact zext64_toNat (by decide) _
  · exact (zext64_toNat (by decide) _).trans (statusValue_toNat _ _)
  · exact (zext64_toNat (by decide) _).trans (statusValue_toNat _ _)
  · exact zext64_toNat (by decide) _
  · exact zext64_toNat (by decide) _
  · exact zext64_toNat (by decide) _

/-- The byte at an index of the first `n` bytes of a buffer is the byte read there. -/
theorem memBytes_getElem? (m : Memory) {n i : Nat} (h : i < n) : (memBytes m n)[i]? = some (memRead m i) := by
  rw [memBytes, List.getElem?_map, List.getElem?_range h, Option.map_some]

/-- Settles O59: the guard of a result read is the condition under which the byte is valid. -/
theorem hostReadsOnlyValidResults : Obligations.HostReadsOnlyValidResults := by
  intro s i
  refine ⟨fun hp hi => ⟨_, if_pos ⟨hp, hi⟩, memBytes_getElem? s.rkbuf hi⟩,
    fun hp hi => ⟨_, if_pos ⟨hp, hi⟩, memBytes_getElem? s.rvbuf hi⟩, fun h => if_neg h, fun h => if_neg h⟩

end Sys2Proof.Machine
end

section
/-! What a step runs, when a unit's turn changes nothing, and what no step writes. -/

namespace Sys2Proof.Machine

/-- Where it is an agent's turn and both phases are reachable, a step is that agent's turn, with whatever outcome. -/
theorem step_eq_agentTurn {s : State} {a : Agent} {ts : List Agent} (hr : phasesReachable s = true)
    (ht : s.turns = a :: ts) : step s = agentTurn a { s with turns := ts } := by
  rw [step_of_reachable hr, takeTurn, ht]

/-! ### What a step runs -/

/-- The turn of a waiting requester serves its request. -/
theorem step_of_waiting {s : State} {n : Nat} {r : Request} {ts : List Agent} (hr : phasesReachable s = true)
    (ht : s.turns = .requester n :: ts) (hn : s.requests[n]? = some r) : step s = serve n r { s with turns := ts } := by
  rw [step_eq_agentTurn hr ht]
  simp only [agentTurn, requesterTurn, hn]

/-- Whose turn it is enables nothing and disables nothing. -/
theorem enabled_turns (i : Instr) (s : State) (ts : List Agent) : enabled i { s with turns := ts } = enabled i s := by
  cases i <;> rfl

/-- Settles O17: the three outcomes of `serve`, the turn of a place where nobody waits, and the decoder's turn with a complete
header. -/
theorem stepRunsTheDecodedOperation : Obligations.StepRunsTheDecodedOperation := by
  refine ⟨fun s ts n r hr ht hn => ⟨fun i hd he => ?_, fun i hd he => ?_, fun e hd => ?_⟩,
    fun s ts n hr ht hn => ?_, fun s ts hr ht hp hi => ?_⟩
  · rw [step_of_waiting hr ht hn, serve, hd]
    exact if_pos ((enabled_turns i s ts).trans he)
  · rw [step_of_waiting hr ht hn, serve, hd]
    exact if_neg (by simp [enabled_turns, he])
  · rw [step_of_waiting hr ht hn, serve, hd]
  · rw [step_eq_agentTurn hr ht]
    simp only [agentTurn, requesterTurn, hn]
  · rw [step_eq_agentTurn hr ht]
    exact if_pos ((headerReady_iff _).mpr ⟨hp, hi⟩)

/-! ### Waiting and resting (R68, R180, R215) -/

/-- An encoder's move whose push is not answered changes nothing: below the end of its field it has no other. -/
theorem encMove_of_unanswered {s t : State} {p : Phase} (hm : EncMove s t) (hp : s.enc.phase = p.code)
    (ht : p.transfers = true) (hi : s.enc.idx.toNat < encFieldLength s.enc p) (ha : s.sinkAnswers = []) : t = s := by
  have only : ∀ {q : Phase}, s.enc.phase = q.code → p = q := fun hq => Phase.code_injective (hp.symm.trans hq)
  cases hm with
  | rests | waits => rfl
  | validates hq => cases only hq; cases ht
  | pushes _ rest _ _ _ ha' | fails _ rest _ _ _ ha' => rw [ha] at ha'; cases ha'
  | advances q _ hq _ hi' => cases only hq; omega
  | valueEnds hq hi' | completes hq hi' => cases only hq; simp only [encFieldLength] at hi; omega

/-- A decoder's move whose pull is not answered changes nothing. -/
theorem decMove_of_unanswered {s t : State} {p : Phase} (hm : DecMove s t) (hp : s.dec.phase = p.code)
    (hi : s.dec.idx.toNat < decFieldLength s.dec p) (ha : s.sourceAnswers = []) : t = s := by
  have only : ∀ {q : Phase}, s.dec.phase = q.code → p = q := fun hq => Phase.code_injective (hp.symm.trans hq)
  cases hm with
  | rests | waits => rfl
  | takes _ _ _ _ _ _ ha' | ends _ _ _ _ _ ha' | fails _ _ _ _ _ ha' => rw [ha] at ha'; cases ha'
  | takesHeader hr =>
    obtain ⟨hq, hi'⟩ := (headerReady_iff s).mp hr
    cases only hq
    rw [hi'] at hi
    cases Nat.lt_irrefl _ hi
  | advances q _ hq _ hi' => cases only hq; omega
  | valueEnds hq hi' | checks hq hi' => cases only hq; simp only [decFieldLength] at hi; omega

/-- In `IDLE`, `DONE` and `ERROR` the encoder's turn changes nothing. -/
theorem encTurn_of_resting {s : State}
    (h : s.enc.phase = Phase.idle.code ∨ s.enc.phase = Phase.done.code ∨ s.enc.phase = Phase.error.code) :
    encTurn s = .next s := by
  obtain h | h | h := h <;> simp [encTurn, h]

/-- In `IDLE`, `DONE`, `ERROR` and `EOS` the decoder's turn changes nothing. -/
theorem decTurn_of_resting {s : State}
    (h : s.dec.phase = Phase.idle.code ∨ s.dec.phase = Phase.done.code ∨ s.dec.phase = Phase.error.code ∨
      s.dec.phase = Phase.eos.code) : decTurn s = .next s := by
  rw [decTurn_eq_decStep]
  obtain h | h | h | h := h <;> simp [decStep, h]

/-- Settles O35: from a state that keeps the invariant a unit's turn completes, and while its transaction is not answered only by
waiting. -/
theorem unitsWaitAndRest : Obligations.UnitsWaitAndRest := by
  refine ⟨fun s ts p hinv htr => ⟨fun ht hp hi ha => ?_, fun ht hp hi ha => ?_⟩,
    fun s ts hr => ⟨fun ht h => ?_, fun ht h => ?_⟩⟩
  · rw [step_eq_agentTurn (inv_phasesReachable hinv) ht]
    obtain ⟨t, hn⟩ := encTurn_completes (inv_turns hinv ts).enc
    cases encMove_of_unanswered (encTurn_move hn) hp htr hi ha
    exact hn
  · rw [step_eq_agentTurn (inv_phasesReachable hinv) ht]
    obtain ⟨t, hn⟩ := decTurn_completes (inv_turns hinv ts).dec
    cases decMove_of_unanswered (decTurn_move hn) hp hi ha
    exact hn
  · rw [step_eq_agentTurn hr ht]
    exact encTurn_of_resting (s := { s with turns := ts }) h
  · rw [step_eq_agentTurn hr ht]
    exact decTurn_of_resting (s := { s with turns := ts }) h

/-! ### The sink log and the straps (R64, R291) -/

/-- An encoder's move adds to the sink log the byte of an accepted push, and nothing in every other case. -/
theorem encMove_sink {s t : State} (hm : EncMove s t) : t.sink = s.sink ∨ ∃ b, t.sink = s.sink ++ [b] := by
  cases hm with
  | pushes p => exact .inr ⟨encNextByte s p, rfl⟩
  | validates =>
    obtain ⟨-, h⟩ | ⟨-, -, h⟩ | ⟨-, -, h⟩ | ⟨-, -, w, -, h⟩ := encValidate_cases s <;> rw [h] <;> exact .inl rfl
  | valueEnds => obtain ⟨-, h⟩ | ⟨-, h⟩ := encValueAdvance_cases s <;> rw [h] <;> exact .inl rfl
  | _ => exact .inl rfl

/-- A decoder's move leaves the sink log, the straps and the hash functions alone. -/
theorem decMove_sink_straps {s t : State} (hm : DecMove s t) :
    t.sink = s.sink ∧ t.encHashEn = s.encHashEn ∧ t.decHashEn = s.decHashEn ∧ t.encHash = s.encHash ∧
      t.decHash = s.decHash := by
  obtain ⟨hf, -⟩ := decMove_frame hm
  rw [hf]
  exact ⟨rfl, rfl, rfl, rfl, rfl⟩

/-- Settles O41: only the encoder's frame has the sink in it, and no agent's has a strap or a hash function. -/
theorem sinkGrowsAndStrapsStay : Obligations.SinkGrowsAndStrapsStay := by
  intro s t h
  cases step_move h with
  | still | reset => exact ⟨.inl rfl, rfl, rfl, rfl, rfl⟩
  | enc rest _ ht hm =>
    have hsink := encMove_sink hm
    obtain ⟨hf, -⟩ := encMove_frame hm
    refine ⟨hsink.imp_right fun hb => ⟨hb, by rw [ht]; rfl⟩, ?_⟩
    rw [hf]
    exact ⟨rfl, rfl, rfl, rfl⟩
  | dec rest _ ht hr hm =>
    obtain ⟨hsink, hstraps⟩ := decMove_sink_straps hm
    exact ⟨.inl hsink, hstraps⟩
  | header rest _ ht hr hx =>
    have hturn : decTurn { s with turns := rest } = .next t := (if_pos hr).trans hx
    obtain ⟨hsink, hstraps⟩ := decMove_sink_straps (decTurn_move hturn)
    exact ⟨.inl hsink, hstraps⟩
  | requester n rest _ ht hm =>
    rw [requesterMove_frame hm]
    exact ⟨.inl rfl, rfl, rfl, rfl, rfl⟩

end Sys2Proof.Machine
end

section
/-! The two units' turns commute (R81). -/

namespace Sys2Proof.Machine

/-! ### Reachable phases stay reachable (R40 (a)) -/

/-- A move of the encoder leads to a phase it can hold. -/
theorem encMove_phaseReachable {s t : State} (hm : EncMove s t) (h : encPhaseReachable s = true) :
    encPhaseReachable t = true := by
  cases hm with
  | rests | waits | pushes => exact h
  | validates =>
    obtain ⟨-, h⟩ | ⟨-, -, h⟩ | ⟨-, -, h⟩ | ⟨-, -, w, -, h⟩ := encValidate_cases s <;> rw [h] <;> rfl
  | fails | completes => rfl
  | advances p q _ hq => obtain ⟨-, rfl⟩ | ⟨-, rfl⟩ | ⟨-, rfl⟩ := hq <;> rfl
  | valueEnds => obtain ⟨-, h⟩ | ⟨-, h⟩ := encValueAdvance_cases s <;> rw [h] <;> rfl

/-- A failure of the decoder leads to `EOS` or to `ERROR`. -/
theorem decRaise_phaseReachable (st : Status) (p : Phase) (e a : BitVec 64) (s : State) :
    decPhaseReachable (decRaise st p e a s) = true := by
  cases st <;> rfl

/-- A move of the decoder leads to a phase it can hold. -/
theorem decMove_phaseReachable {s t : State} (hm : DecMove s t) (h : decPhaseReachable s = true) :
    decPhaseReachable t = true := by
  cases hm with
  | rests | waits => exact h
  | takes p => cases p <;> exact h
  | ends p rest =>
    obtain ⟨-, -, h⟩ | ⟨-, h⟩ :=
      eosRaise_cases p (BitVec.ofNat 64 (decFieldLength s.dec p)) { s with sourceAnswers := rest } <;>
      rw [h] <;> exact decRaise_phaseReachable ..
  | fails | takesHeader => rfl
  | advances p q _ hq => obtain ⟨-, rfl⟩ | ⟨-, rfl⟩ := hq <;> rfl
  | valueEnds => obtain ⟨-, h⟩ | ⟨-, h⟩ := decValueAdvance_cases s <;> rw [h] <;> rfl
  | checks => obtain ⟨-, h⟩ | ⟨-, -, h⟩ := decChecksumAdvance_cases s <;> rw [h] <;> rfl

/-! ### Commutation -/

/-- An encoder's turn before a decoder's can be taken after it: neither writes what the other sees (R43). -/
theorem encTurn_after_decTurn {s a u : State} (he : encTurn s = .next a) (hd : decTurn a = .next u) :
    ∃ d, decTurn s = .next d ∧ encTurn d = .next u := by
  obtain ⟨hfe, -⟩ := encMove_frame (encTurn_move he)
  obtain ⟨hfd, -⟩ := decMove_frame (decTurn_move hd)
  have hd' := decTurn_of_agree (o := s) (s := a) (by rw [hfe]) (by rw [hfe]) (by rw [hfe]) (by rw [hfe]) (by rw [hfe])
    (by rw [hfe]) hd
  refine ⟨_, hd', Eq.trans (encTurn_of_agree (s := s) rfl rfl rfl rfl rfl rfl rfl he) ?_⟩
  rw [hfd, hfe]

/-- A decoder's turn before an encoder's can be taken after it. -/
theorem decTurn_after_encTurn {s d u : State} (hd : decTurn s = .next d) (he : encTurn d = .next u) :
    ∃ a, encTurn s = .next a ∧ decTurn a = .next u := by
  obtain ⟨hfd, -⟩ := decMove_frame (decTurn_move hd)
  obtain ⟨hfe, -⟩ := encMove_frame (encTurn_move he)
  have he' := encTurn_of_agree (o := s) (s := d) (by rw [hfd]) (by rw [hfd]) (by rw [hfd]) (by rw [hfd]) (by rw [hfd])
    (by rw [hfd]) (by rw [hfd]) he
  refine ⟨_, he', Eq.trans (decTurn_of_agree (s := s) rfl rfl rfl rfl rfl rfl hd) ?_⟩
  rw [hfe, hfd]

/-- A run of one step more: the first step has a next state, and the rest of the run starts there. -/
theorem runSteps_succ_next {n : Nat} {s u : State} :
    runSteps (n + 1) s = .next u ↔ ∃ t, step s = .next t ∧ runSteps n t = .next u := by
  simp only [runSteps, Host.Core.run]
  change _ ↔ ∃ t, Sys2Proof.core.step s = .next t ∧ _
  cases Sys2Proof.core.step s with
  | next t => simp only [Host.Outcome.next.injEq, exists_eq_left']
  | fault r | refused r => simp only [reduceCtorEq, false_and, exists_false]

theorem runSteps_one_next {s u : State} : runSteps 1 s = .next u ↔ step s = .next u := by
  rw [runSteps_succ_next]
  constructor
  · rintro ⟨t, hs, hr⟩; cases hr; exact hs
  · intro hs; exact ⟨u, hs, rfl⟩

/-- An agent that does not see whose turn it is, and leads from reachable phases to reachable ones. -/
structure TurnsBlind (a : Agent) : Prop where
  blind : ∀ {s t : State} (ts : List Agent), agentTurn a s = .next t →
    agentTurn a { s with turns := ts } = .next { t with turns := ts }
  reachable : ∀ {s t : State}, agentTurn a s = .next t → phasesReachable s = true → phasesReachable t = true

/-- Such an agent does not write the list of turns either. -/
theorem TurnsBlind.turns {a : Agent} (ha : TurnsBlind a) {s t : State} (h : agentTurn a s = .next t) :
    t.turns = s.turns := by
  have heq : t = { t with turns := s.turns } := Host.Outcome.next.inj (h.symm.trans (ha.blind s.turns h))
  rw [heq]

theorem enc_turnsBlind : TurnsBlind .enc where
  blind {s t} ts h := by
    obtain ⟨hf, -⟩ := encMove_frame (encTurn_move h)
    refine Eq.trans (encTurn_of_agree (s := s) rfl rfl rfl rfl rfl rfl rfl h) ?_
    rw [hf]
  reachable {s t} h hr := by
    obtain ⟨he, hd⟩ := phasesReachable_iff.mp hr
    obtain ⟨hf, -⟩ := encMove_frame (encTurn_move h)
    have hd' : decPhaseReachable t = true := by rw [hf]; exact hd
    exact phasesReachable_iff.mpr ⟨encMove_phaseReachable (encTurn_move h) he, hd'⟩

theorem dec_turnsBlind : TurnsBlind .dec where
  blind {s t} ts h := by
    obtain ⟨hf, -⟩ := decMove_frame (decTurn_move h)
    refine Eq.trans (decTurn_of_agree (s := s) rfl rfl rfl rfl rfl rfl h) ?_
    rw [hf]
  reachable {s t} h hr := by
    obtain ⟨he, hd⟩ := phasesReachable_iff.mp hr
    obtain ⟨hf, -⟩ := decMove_frame (decTurn_move h)
    have he' : encPhaseReachable t = true := by rw [hf]; exact he
    exact phasesReachable_iff.mpr ⟨he', decMove_phaseReachable (decTurn_move h) hd⟩

/-- A run of two turns, the first of them such an agent's, is the one turn after the other with both already off the list. -/
theorem runSteps_two_turns {a b : Agent} (ha : TurnsBlind a) {s u : State} {ts : List Agent} :
    runSteps 2 { s with turns := a :: b :: ts } = .next u ↔
      phasesReachable s = true ∧ ∃ t, agentTurn a { s with turns := ts } = .next t ∧ agentTurn b t = .next u := by
  rw [runSteps_succ_next]
  constructor
  · rintro ⟨t, hs, hr⟩
    obtain ⟨hreach, hfirst⟩ := (step_next_iff_agentTurn rfl).mp hs
    obtain ⟨-, hsecond⟩ := (step_next_iff_agentTurn (ha.turns hfirst)).mp (runSteps_one_next.mp hr)
    have hfirst' := ha.blind ts hfirst
    exact ⟨hreach, { t with turns := ts }, hfirst', hsecond⟩
  · rintro ⟨hreach, t, hfirst, hsecond⟩
    have hback : { t with turns := ts } = t := by
      have hts : t.turns = ts := ha.turns hfirst
      rw [← hts]
    have hfirst' := ha.blind (b :: ts) hfirst
    have hreach' : phasesReachable t = true := ha.reachable hfirst hreach
    refine ⟨{ t with turns := b :: ts }, (step_next_iff_agentTurn rfl).mpr ⟨hreach, hfirst'⟩, ?_⟩
    exact runSteps_one_next.mpr ((step_next_iff_agentTurn rfl).mpr ⟨hreach', hback.symm ▸ hsecond⟩)

/-- Settles O44: each of the two turns can be taken before the other. -/
theorem unitTurnsCommute : Obligations.UnitTurnsCommute := by
  intro s u ts
  rw [runSteps_two_turns enc_turnsBlind, runSteps_two_turns dec_turnsBlind]
  refine and_congr_right fun _ => ⟨?_, ?_⟩
  · rintro ⟨a, he, hd⟩; exact encTurn_after_decTurn he hd
  · rintro ⟨d, hd, he⟩; exact decTurn_after_encTurn hd he

end Sys2Proof.Machine
end

section
/-! What a decode consumes (R69, R216). -/

namespace Sys2Proof.Machine

/-! ### Pulling a field -/

theorem cons_eq_got {b : Byte} {r : TakeOutcome} {bytes : List Byte} {rest : List SourceAnswer} :
    r.cons b = .got bytes rest ↔ ∃ more, bytes = b :: more ∧ r = .got more rest := by
  cases r <;> simp [TakeOutcome.cons, eq_comm]

theorem cons_eq_failed {b : Byte} {r : TakeOutcome} {f : Failure} {rest : List SourceAnswer} :
    r.cons b = .failed f rest ↔ r = .failed f rest := by
  cases r <;> simp [TakeOutcome.cons]

/-- A pull that succeeds has taken the bytes it gives, one for each that was left to pull. -/
theorem takeLeft_got {ph : Phase} {n left : Nat} {answers rest : List SourceAnswer} {bytes : List Byte}
    (h : takeLeft ph n left answers = .got bytes rest) : answers = bytes.map .byte ++ rest ∧ bytes.length = left := by
  induction left generalizing answers bytes with
  | zero => cases h; exact ⟨rfl, rfl⟩
  | succ left ih =>
    cases answers with
    | nil => cases h
    | cons a answers =>
      cases a with
      | byte b =>
        obtain ⟨more, rfl, hmore⟩ := cons_eq_got.mp h
        obtain ⟨hans, hlen⟩ := ih hmore
        exact ⟨by rw [hans]; rfl, by rw [List.length_cons, hlen]⟩
      | eos | err => cases h

/-- Taking a field takes exactly its bytes. -/
theorem takeField_got {ph : Phase} {n : Nat} {answers rest : List SourceAnswer} {bytes : List Byte}
    (h : takeField ph n answers = .got bytes rest) : answers = bytes.map .byte ++ rest ∧ bytes.length = n :=
  takeLeft_got h

/-- `EndOfStream` is the status of an `Eos` answer to the first pull of a header and of nothing else (R254). -/
theorem eosFailure_endOfStream {ph : Phase} {n i : Nat} (h : (eosFailure ph n i).status = .endOfStream) :
    ph = .header ∧ i = 0 := by
  unfold eosFailure at h
  split at h
  · next hc => exact hc
  · cases h

theorem takeLeft_endOfStream {ph : Phase} {n left : Nat} {answers rest : List SourceAnswer} {f : Failure}
    (hle : left ≤ n) (h : takeLeft ph n left answers = .failed f rest) (hf : f.status = .endOfStream) :
    ph = .header ∧ left = n ∧ answers = .eos :: rest := by
  induction left generalizing answers with
  | zero => cases h
  | succ left ih =>
    cases answers with
    | nil => cases h
    | cons a answers =>
      cases a with
      | byte b =>
        obtain ⟨-, hfirst, -⟩ := ih (by omega) (cons_eq_failed.mp h)
        omega
      | eos =>
        cases h
        obtain ⟨hph, hi⟩ := eosFailure_endOfStream hf
        exact ⟨hph, by omega, rfl⟩
      | err => cases h; cases hf

/-- Taking a field ends with `EndOfStream` only in a header, with nothing taken. -/
theorem takeField_endOfStream {ph : Phase} {n : Nat} {answers rest : List SourceAnswer} {f : Failure}
    (h : takeField ph n answers = .failed f rest) (hf : f.status = .endOfStream) :
    ph = .header ∧ answers = .eos :: rest := by
  obtain ⟨hph, -, hans⟩ := takeLeft_endOfStream (Nat.le_refl n) h hf
  exact ⟨hph, hans⟩

/-! ### Going on with the next field -/

theorem andThen_eq_ok {r : TakeOutcome} {k : List Byte → List SourceAnswer → DecodeOutcome} {key value : List Byte}
    {tag : BitVec 4} {rest : List SourceAnswer} :
    r.andThen k = .ok key value tag rest ↔ ∃ bytes more, r = .got bytes more ∧ k bytes more = .ok key value tag rest := by
  cases r <;> simp [TakeOutcome.andThen]

theorem andThen_eq_failed {r : TakeOutcome} {k : List Byte → List SourceAnswer → DecodeOutcome} {f : Failure}
    {rest : List SourceAnswer} :
    r.andThen k = .failed f rest ↔
      r = .failed f rest ∨ ∃ bytes more, r = .got bytes more ∧ k bytes more = .failed f rest := by
  cases r <;> simp [TakeOutcome.andThen]

/-! ### The trailer and the header -/

/-- A trailer that is accepted has taken four bytes and changes nothing of the record. -/
theorem decodeTrailer_ok {hashEn : Bool} {h : HashFn} {key value key' value' : List Byte} {tag tag' : BitVec 4}
    {answers rest : List SourceAnswer} (ht : decodeTrailer hashEn h key value tag answers = .ok key' value' tag' rest) :
    key' = key ∧ value' = value ∧ tag' = tag ∧
      ∃ d : List Byte, d.length = 4 ∧ answers = d.map .byte ++ rest := by
  obtain ⟨d, more, hd, hk⟩ := andThen_eq_ok.mp ht
  obtain ⟨hans, hlen⟩ := takeField_got hd
  have hall : DecodeOutcome.ok key value tag more = .ok key' value' tag' rest := by
    split at hk
    · exact hk
    · split at hk
      · exact hk
      · cases hk
  cases hall
  exact ⟨rfl, rfl, rfl, d, hlen, hans⟩

theorem decodeTrailer_not_endOfStream {hashEn : Bool} {h : HashFn} {key value : List Byte} {tag : BitVec 4}
    {answers rest : List SourceAnswer} {f : Failure} (ht : decodeTrailer hashEn h key value tag answers = .failed f rest) :
    f.status ≠ .endOfStream := by
  intro hf
  obtain hd | ⟨d, more, -, hk⟩ := andThen_eq_failed.mp ht
  · obtain ⟨hph, -⟩ := takeField_endOfStream hd hf
    cases hph
  · split at hk
    · cases hk
    · split at hk <;> cases hk
      cases hf

/-- Two bytes assembled are the word that has the first above the second (R93, R193). -/
theorem lenAssemble_pair (x y : Byte) : (lenAssemble [x, y]).setWidth 16 = x ++ y := by
  refine BitVec.eq_of_getLsbD_eq fun i hi => ?_
  rw [BitVec.getLsbD_append]
  by_cases h8 : i < 8
  · simp [lenAssemble, shiftIn, hi, h8]
  · have hy : y.getLsbD i = false := BitVec.getLsbD_of_ge y i (by omega)
    simp [lenAssemble, shiftIn, hi, h8, hy]

/-- The two wire bytes of a header word are the bytes it was assembled from. -/
theorem headerBytes_lenAssemble {hb : List Byte} (h : hb.length = 2) :
    headerBytes ((lenAssemble hb).setWidth 16) = hb := by
  obtain ⟨x, y, rfl⟩ := List.length_eq_two.mp h
  have hx : (x ++ y).extractLsb' 8 8 = x := BitVec.extractLsb'_append_eq_left
  have hy : (x ++ y).extractLsb' 0 8 = y := BitVec.extractLsb'_append_eq_right
  rw [lenAssemble_pair, headerBytes, hx, hy]

/-! ### The whole decode -/

/-- A decode that gives a record has taken the fields of one frame, in the frame's order (R191). -/
theorem decodeTaggedWhole_ok {hashEn : Bool} {h : HashFn} {answers rest : List SourceAnswer} {key value : List Byte}
    {tag : BitVec 4} (hd : decodeTaggedWhole hashEn h answers = .ok key value tag rest) :
    ∃ (hdr : BitVec 16) (bytes : List Byte),
      answers = (headerBytes hdr ++ bytes).map .byte ++ rest ∧
      bytes.length = (unpack hdr).width.toNat + key.length + value.length + 4 * (unpack hdr).ck.toNat ∧
      key.length = (unpack hdr).klen.toNat ∧ tag = (unpack hdr).tag := by
  obtain ⟨hb, afterHeader, hheader, htoLength⟩ := andThen_eq_ok.mp hd
  obtain ⟨lb, afterLength, hlength, htoKey⟩ := andThen_eq_ok.mp htoLength
  obtain ⟨kb, afterKey, hkey, htoValue⟩ := andThen_eq_ok.mp htoKey
  obtain ⟨vb, afterValue, hvalue, hend⟩ := andThen_eq_ok.mp htoValue
  clear hd htoLength htoKey htoValue
  obtain ⟨rfl, hbl⟩ := takeField_got hheader
  obtain ⟨rfl, lbl⟩ := takeField_got hlength
  obtain ⟨rfl, kbl⟩ := takeField_got hkey
  obtain ⟨rfl, -⟩ := takeField_got hvalue
  have hbytes := headerBytes_lenAssemble hbl
  generalize (lenAssemble hb).setWidth 16 = hdr at *
  cases hck : (unpack hdr).ck with
  | true =>
    rw [hck, if_pos rfl] at hend
    obtain ⟨rfl, rfl, rfl, d, hdl, rfl⟩ := decodeTrailer_ok hend
    exact ⟨hdr, lb ++ key ++ value ++ d, by simp [hbytes], by simp [hck, lbl, hdl, Nat.add_assoc], kbl, rfl⟩
  | false =>
    rw [hck, if_neg Bool.false_ne_true] at hend
    cases hend
    exact ⟨hdr, lb ++ key ++ value, by simp [hbytes], by simp [hck, lbl, Nat.add_assoc], kbl, rfl⟩

/-- A decode that ends with `EndOfStream` has met it at its first pull: every later field reports another status (R255). -/
theorem decodeTaggedWhole_endOfStream {hashEn : Bool} {h : HashFn} {answers rest : List SourceAnswer} {f : Failure}
    (hd : decodeTaggedWhole hashEn h answers = .failed f rest) (hf : f.status = .endOfStream) : answers = .eos :: rest := by
  have later : ∀ {ph : Phase} {n : Nat} {more rest : List SourceAnswer},
      takeField ph n more = .failed f rest → ph = .header := fun ht => (takeField_endOfStream ht hf).1
  obtain hheader | ⟨hb, afterHeader, -, hd⟩ := andThen_eq_failed.mp hd
  · exact (takeField_endOfStream hheader hf).2
  obtain hlength | ⟨lb, afterLength, -, hd⟩ := andThen_eq_failed.mp hd
  · cases later hlength
  obtain hkey | ⟨kb, afterKey, -, hd⟩ := andThen_eq_failed.mp hd
  · cases later hkey
  obtain hvalue | ⟨vb, afterValue, -, hd⟩ := andThen_eq_failed.mp hd
  · cases later hvalue
  split at hd
  · exact absurd hf (decodeTrailer_not_endOfStream hd)
  · cases hd

/-- Settles O53: each field takes its own bytes, and only the header's first pull can end with `EndOfStream`. -/
theorem decodeConsumesOneFrame : Obligations.DecodeConsumesOneFrame := by
  intro hashEn h answers
  split
  · next key value tag rest hd => exact decodeTaggedWhole_ok hd
  · next f rest hd => exact decodeTaggedWhole_endOfStream hd
  · trivial

end Sys2Proof.Machine
end

section
/-! The header word: its fields, its operation and `pack` (R91 to R111). -/

namespace Sys2Proof.Machine

/-! ### The header word and its fields -/

/-- A word is its bits from `n` on above the `n` bits below them. -/
theorem high_append_low (m n : Nat) (h : BitVec (m + n)) : h.extractLsb' n m ++ h.extractLsb' 0 n = h :=
  (BitVec.extractLsb'_append_extractLsb'_eq_extractLsb' (Nat.zero_add n).symm).trans BitVec.extractLsb'_eq_self

theorem headerWord_format (format : BitVec 3) (tag : BitVec 4) (klen : BitVec 9) :
    (headerWord format tag klen).extractLsb' 13 3 = format :=
  (BitVec.extractLsb'_append_eq_of_le (by decide)).trans BitVec.extractLsb'_append_eq_left

theorem headerWord_tag (format : BitVec 3) (tag : BitVec 4) (klen : BitVec 9) :
    (headerWord format tag klen).extractLsb' 9 4 = tag :=
  (BitVec.extractLsb'_append_eq_of_le (by decide)).trans BitVec.extractLsb'_append_eq_right

theorem headerWord_klen (format : BitVec 3) (tag : BitVec 4) (klen : BitVec 9) :
    (headerWord format tag klen).extractLsb' 0 9 = klen :=
  BitVec.extractLsb'_append_eq_right

/-- A header word is its three fields side by side. -/
theorem headerWord_fields (h : BitVec 16) :
    headerWord (h.extractLsb' 13 3) (h.extractLsb' 9 4) (h.extractLsb' 0 9) = h := by
  have hhigh : h.extractLsb' 13 3 ++ h.extractLsb' 9 4 = h.extractLsb' 9 7 :=
    BitVec.extractLsb'_append_extractLsb'_eq_extractLsb' rfl
  rw [headerWord, hhigh]
  exact high_append_low 7 9 h

/-- The three selecting bits of a header word, as bits (R101 to R108). -/
theorem format_eq_bits (h : BitVec 16) :
    h.extractLsb' 13 3 = BitVec.ofBool (h.getLsbD 15) ++ BitVec.ofBool (h.getLsbD 14) ++ BitVec.ofBool (h.getLsbD 13) := by
  have bits : ∀ f : BitVec 3,
      f = BitVec.ofBool (f.getLsbD 2) ++ BitVec.ofBool (f.getLsbD 1) ++ BitVec.ofBool (f.getLsbD 0) := by decide
  rw [bits (h.extractLsb' 13 3)]
  simp

/-- The operation of a header word encodes to that word (R111). -/
theorem encode_decodeHeader (h : BitVec 16) : encode (decodeHeader h) = .header h := by
  have hw : encode (decodeHeader h) =
      .header (headerWord (h.extractLsb' 13 3) (h.extractLsb' 9 4) (h.extractLsb' 0 9)) := by
    simp only [format_eq_bits, decodeHeader]
    cases h.getLsbD 15 <;> cases h.getLsbD 14 <;> cases h.getLsbD 13 <;> rfl
  rw [hw, headerWord_fields]

/-- Above its operands a header word has its selecting bits. -/
theorem headerWord_bit (format : BitVec 3) (tag : BitVec 4) (klen : BitVec 9) (i : Nat) :
    (headerWord format tag klen).getLsbD (13 + i) = format.getLsbD i := by
  rw [headerWord, BitVec.getLsbD_append, if_neg (by omega), BitVec.getLsbD_append, if_neg (by omega)]
  congr 1
  omega

/-! ### pack and unpack -/

theorem wcDec_wcEnc (w : Width) : wcDec (wcEnc w) = w := by
  cases w <;> rfl

theorem wcEnc_wcDec (wc : BitVec 2) : wcEnc (wcDec wc) = wc := by
  revert wc
  decide

/-- Packing puts the width class above the trailer flag, and both select the format (R91, R131). -/
theorem pack_eq_headerWord (w : Width) (c : Bool) (t : BitVec 4) (k : BitVec 9) :
    pack w c t k = headerWord (wcEnc w ++ BitVec.ofBool c) t k := rfl

theorem pack_unpack (h : BitVec 16) : pack (unpack h).width (unpack h).ck (unpack h).tag (unpack h).klen = h := by
  rw [pack_eq_headerWord]
  simp only [unpack, wcEnc_wcDec, widthClass_eq_bits, ← format_eq_bits]
  exact headerWord_fields h

theorem unpack_pack (w : Width) (c : Bool) (t : BitVec 4) (k : BitVec 9) :
    unpack (pack w c t k) = { width := w, ck := c, tag := t, klen := k } := by
  have hwc : (pack w c t k).extractLsb' 14 2 = wcEnc w :=
    (BitVec.extractLsb'_append_eq_of_le (by decide)).trans
      ((BitVec.extractLsb'_append_eq_of_le (by decide)).trans BitVec.extractLsb'_append_eq_left)
  have hc : (pack w c t k).getLsbD 13 = c := by
    rw [pack_eq_headerWord, headerWord_bit _ t k 0, BitVec.getLsbD_append, if_pos (by decide), BitVec.getLsbD_ofBool]
    simp
  rw [unpack, hwc, hc, wcDec_wcEnc, pack_eq_headerWord, headerWord_tag, headerWord_klen]

end Sys2Proof.Machine
end

section
/-! The encoder is an inverse of the decoder: the request words of each port (R114 to R117). -/

namespace Sys2Proof.Machine

/-! ### The command words -/

/-- The command word of the encoder, read back (R114): its top bit selects the operation. -/
theorem decodeEncCmd_encCmdWord (op : Bool) (tag : BitVec 4) (klen vlen : BitVec 64) :
    decodeEncCmd (encCmdWord op tag klen vlen) = if op then .encodeTagged tag klen vlen else .encode tag klen vlen := by
  have hop : (encCmdWord op tag klen vlen).getLsbD 132 = op := by
    rw [encCmdWord, BitVec.getLsbD_append, if_neg (by decide), BitVec.getLsbD_append, if_neg (by decide),
      BitVec.getLsbD_append, if_neg (by decide)]
    simp
  have htag : (encCmdWord op tag klen vlen).extractLsb' 128 4 = tag :=
    (BitVec.extractLsb'_append_eq_of_le (by decide)).trans
      ((BitVec.extractLsb'_append_eq_of_le (by decide)).trans BitVec.extractLsb'_append_eq_right)
  have hklen : (encCmdWord op tag klen vlen).extractLsb' 64 64 = klen :=
    (BitVec.extractLsb'_append_eq_of_le (by decide)).trans BitVec.extractLsb'_append_eq_right
  have hvlen : (encCmdWord op tag klen vlen).extractLsb' 0 64 = vlen := BitVec.extractLsb'_append_eq_right
  rw [decodeEncCmd, hop, htag, hklen, hvlen]

/-! ### Ports narrower than a request word -/

/-- The low bits of a request word are the value that was put there. -/
theorem lowField_setWidth {n : Nat} (hn : n ≤ 133) (v : BitVec n) : (v.setWidth 133 : RequestWord).extractLsb' 0 n = v :=
  (BitVec.extractLsb'_setWidth_of_le (by omega)).trans BitVec.extractLsb'_eq_self

theorem decode_encode_hdrPack (width : BitVec 3) (c : Bool) (t : BitVec 4) (k : BitVec 9) :
    decode (encode (.hdrPack width c t k)) = .ok (.hdrPack width c t k) := by
  have hc : ((width ++ BitVec.ofBool c ++ t ++ k).setWidth 133 : RequestWord).getLsbD 13 = c := by
    simp only [BitVec.getLsbD_setWidth, BitVec.getLsbD_append]
    simp
  refine (if_neg (not_not_intro (Laws.EncodeFits.hdrPack width c t k))).trans ?_
  simp (disch := decide) only [hc, BitVec.extractLsb'_setWidth_of_le, BitVec.extractLsb'_append_eq_right,
    BitVec.extractLsb'_append_eq_of_le, BitVec.extractLsb'_eq_self, Nat.reduceSub]

theorem decode_encode_lenEmit (width : Width) (l : BitVec 32) :
    decode (encode (.lenEmit width l)) = .ok (.lenEmit width l) := by
  refine (if_neg (not_not_intro (Laws.EncodeFits.lenEmit width l))).trans ?_
  simp (disch := decide) only [decodeLenEmit, BitVec.extractLsb'_setWidth_of_le, BitVec.extractLsb'_append_eq_left,
    BitVec.extractLsb'_append_eq_right, Width.ofBits_bits]

/-! ### LEN.ASSEMBLE -/

/-- Shifting a byte in, as numbers. -/
theorem shiftIn_toNat (l : BitVec 32) (b : Byte) : (shiftIn l b).toNat = l.toNat * 256 % 4294967296 + b.toNat := by
  have hlow : b.toNat < 2 ^ 8 := b.isLt
  have hb : (b.setWidth 32).toNat = b.toNat := by
    rw [BitVec.toNat_setWidth]
    omega
  have hmod : (l.toNat <<< 8) % 2 ^ 32 = (l.toNat % 2 ^ 24) <<< 8 := by
    rw [Nat.shiftLeft_eq, Nat.shiftLeft_eq]
    omega
  rw [shiftIn, BitVec.toNat_or, BitVec.toNat_shiftLeft, hb, hmod, ← Nat.shiftLeft_add_eq_or_of_lt hlow, Nat.shiftLeft_eq]
  omega

theorem requestPlaces_cons (b : Byte) (bytes : List Byte) : requestPlaces (b :: bytes) = shiftIn (requestPlaces bytes) b :=
  rfl

/-- The byte places of a request have no bit above its bytes. -/
theorem requestPlaces_toNat_lt (bytes : List Byte) : (requestPlaces bytes).toNat < 256 ^ bytes.length := by
  induction bytes with
  | nil => decide
  | cons b bytes ih =>
    have hb := b.isLt
    have hle := Nat.mod_le ((requestPlaces bytes).toNat * 256) 4294967296
    rw [requestPlaces_cons, shiftIn_toNat, List.length_cons, Nat.pow_succ]
    omega

/-- The byte shifted in is the lowest. -/
theorem shiftIn_low (l : BitVec 32) (b : Byte) : (shiftIn l b).extractLsb' 0 8 = b := by
  apply BitVec.eq_of_toNat_eq
  rw [BitVec.extractLsb'_toNat, shiftIn_toNat]
  omega

/-- With room for another byte, the bytes before it stand above it. -/
theorem shiftIn_high {l : BitVec 32} (b : Byte) (hl : l.toNat < 16777216) : shiftIn l b >>> 8 = l := by
  apply BitVec.eq_of_toNat_eq
  rw [BitVec.toNat_ushiftRight, shiftIn_toNat, Nat.shiftRight_eq_div_pow]
  omega

/-- Reading byte places takes the lowest first. -/
theorem requestBytes_succ (n : Nat) (w : BitVec 32) :
    requestBytes (n + 1) w = w.extractLsb' 0 8 :: requestBytes n (w >>> 8) := by
  simp only [requestBytes, List.range_succ_eq_map, List.map_cons, List.map_map]
  congr 1
  refine List.map_congr_left fun i _ => BitVec.eq_of_toNat_eq ?_
  simp only [Function.comp_apply, BitVec.extractLsb'_toNat, BitVec.toNat_ushiftRight]
  rw [← Nat.shiftRight_add, Nat.mul_succ, Nat.add_comm 8]

/-- Up to four bytes are read back from their places. -/
theorem requestBytes_requestPlaces {bytes : List Byte} (hle : bytes.length ≤ 4) :
    requestBytes bytes.length (requestPlaces bytes) = bytes := by
  induction bytes with
  | nil => rfl
  | cons b bytes ih =>
    rw [List.length_cons] at hle
    have hpow : 256 ^ bytes.length ≤ 256 ^ 3 := Nat.pow_le_pow_right (by decide) (by omega)
    have hroom : (requestPlaces bytes).toNat < 16777216 := Nat.lt_of_lt_of_le (requestPlaces_toNat_lt bytes) hpow
    rw [List.length_cons, requestBytes_succ, requestPlaces_cons, shiftIn_low, shiftIn_high b hroom, ih (by omega)]

/-- One to four is the number of bytes of a width (R12). -/
theorem exists_width_toNat {n : Nat} (hlo : 1 ≤ n) (hhi : n ≤ 4) : ∃ w : Width, w.toNat = n := by
  match n, hlo, hhi with
  | 1, _, _ => exact ⟨.one, rfl⟩
  | 2, _, _ => exact ⟨.two, rfl⟩
  | 3, _, _ => exact ⟨.three, rfl⟩
  | 4, _, _ => exact ⟨.four, rfl⟩

/-- The count field of one to four bytes is that number as a width. -/
theorem countBits_eq_bits {bytes : List Byte} (hw : lenAssembleOperand bytes = true) :
    ∃ count : Width, countBits bytes = count.bits ∧ count.toNat = bytes.length := by
  obtain ⟨hlo, hhi⟩ : 1 ≤ bytes.length ∧ bytes.length ≤ 4 := by simpa [lenAssembleOperand] using hw
  obtain ⟨count, hcount⟩ := exists_width_toNat hlo hhi
  refine ⟨count, ?_, hcount⟩
  rw [countBits, ← hcount, ← Width.bits_toNat, BitVec.ofNat_toNat, BitVec.setWidth_eq]

theorem decode_encode_lenAssemble {bytes : List Byte} (hw : lenAssembleOperand bytes = true) :
    decode (encode (.lenAssemble bytes)) = .ok (.lenAssemble bytes) := by
  obtain ⟨count, hbits, hcount⟩ := countBits_eq_bits hw
  have hlen : bytes.length ≤ 4 := hcount ▸ count.toNat_le_four
  have hunused : requestPlaces bytes >>> (8 * bytes.length) = 0#32 := by
    apply BitVec.eq_of_toNat_eq
    rw [BitVec.toNat_ushiftRight, Nat.shiftRight_eq_div_pow, Nat.pow_mul]
    exact Nat.div_eq_of_lt (requestPlaces_toNat_lt bytes)
  refine (if_neg (not_not_intro (Laws.EncodeFits.lenAssemble bytes))).trans ?_
  simp (disch := decide) only [decodeLenAssemble, BitVec.extractLsb'_setWidth_of_le, BitVec.extractLsb'_append_eq_left,
    BitVec.extractLsb'_append_eq_right, hbits, Width.ofBits_bits, Width.bits_toNat, hcount, hunused,
    requestBytes_requestPlaces hlen, if_true]

/-! ### Every operation -/

/-- Settles O1: on every port the decoder reads back the fields that the encoder put side by side. -/
theorem decodeOfEncode : Obligations.DecodeOfEncode := by
  intro i hw
  cases i with
  | frameW1 tag klen | frameW1C tag klen | frameW2 tag klen | frameW2C tag klen | frameW3 tag klen | frameW3C tag klen
  | frameW4 tag klen | frameW4C tag klen =>
    have h13 (f : BitVec 3) : (headerWord f tag klen).getLsbD 13 = f.getLsbD 0 := headerWord_bit f tag klen 0
    have h14 (f : BitVec 3) : (headerWord f tag klen).getLsbD 14 = f.getLsbD 1 := headerWord_bit f tag klen 1
    have h15 (f : BitVec 3) : (headerWord f tag klen).getLsbD 15 = f.getLsbD 2 := headerWord_bit f tag klen 2
    simp only [encode, decode, decodeHeader, headerWord_tag, headerWord_klen, h13, h14, h15]
    rfl
  | encodeTagged tag klen vlen =>
    refine (if_neg (not_not_intro (Laws.EncodeFits.encodeTagged tag klen vlen))).trans ?_
    exact congrArg Except.ok (decodeEncCmd_encCmdWord true tag klen vlen)
  | encode tag klen vlen =>
    refine (if_neg (not_not_intro (Laws.EncodeFits.encode tag klen vlen))).trans ?_
    exact congrArg Except.ok (decodeEncCmd_encCmdWord false tag klen vlen)
  | decodeTagged => rfl
  | decode => rfl
  | encRetire => rfl
  | decRetire => rfl
  | hdrPack width c t k => exact decode_encode_hdrPack width c t k
  | hdrUnpack h =>
    refine (if_neg (not_not_intro (Laws.EncodeFits.hdrUnpack h))).trans ?_
    rw [lowField_setWidth (by decide)]
  | widthOf l =>
    refine (if_neg (not_not_intro (Laws.EncodeFits.widthOf l))).trans ?_
    rw [lowField_setWidth (by decide)]
  | wcEnc width =>
    refine (if_neg (not_not_intro (Laws.EncodeFits.wcEnc width))).trans ?_
    rw [lowField_setWidth (by decide)]
  | wcDec wc =>
    refine (if_neg (not_not_intro (Laws.EncodeFits.wcDec wc))).trans ?_
    rw [lowField_setWidth (by decide)]
  | lenEmit width l => exact decode_encode_lenEmit width l
  | lenAssemble bytes => exact decode_encode_lenAssemble hw

end Sys2Proof.Machine
end

section
/-! What a header word stands for: an operation, a match value, a number. -/

namespace Sys2Proof.Machine

/-! ### Every word is legal (R111) -/

/-- With a complete header the `HEADER` advance completes (R196). -/
theorem takeHeader_of_ready {s : State} (hr : headerReady s = true) (w : Width) (ck : Bool) (tag : BitVec 4)
    (klen : BitVec 9) : takeHeader w ck tag klen s = .next (headerTaken w ck tag klen s) :=
  if_pos hr

/-- Settles O2: the tuple of a word is what `unpack` reads, and a complete header can be taken whatever the fields are. -/
theorem everyHeaderWordIsLegal : Obligations.EveryHeaderWordIsLegal := by
  intro h
  refine ⟨rfl, encode_decodeHeader h, ⟨unpack h, pack_unpack h, fun f hf => ?_⟩, fun s hr => ?_⟩
  · rw [← hf, unpack_pack]
  · rw [exec_decodeHeader]
    exact ⟨_, takeHeader_of_ready hr _ _ _ _⟩

/-! ### Mask and match -/

/-- A header word decodes to an operation exactly when it is that operation's word. -/
theorem decodeHeader_eq_iff {h : BitVec 16} {i : Instr} (hw : WellFormed i = true) :
    decodeHeader h = i ↔ encode i = .header h := by
  constructor
  · rintro rfl
    exact encode_decodeHeader h
  · intro hi
    have hd := decodeOfEncode i hw
    rw [hi] at hd
    exact Except.ok.inj hd

/-- The mask leaves the selecting bits (R101 to R108). -/
theorem and_formatMask (h : BitVec 16) : h &&& 0xE000#16 = h.extractLsb' 13 3 ++ 0#13 := by
  have hsplit : (h.extractLsb' 13 3 ++ h.extractLsb' 0 13 : BitVec 16) = h := high_append_low 3 13 h
  have hmask : 0xE000#16 = BitVec.allOnes 3 ++ 0#13 := by decide
  calc h &&& 0xE000#16
    _ = (h.extractLsb' 13 3 ++ h.extractLsb' 0 13) &&& (BitVec.allOnes 3 ++ 0#13) := by rw [hsplit, hmask]
    _ = (h.extractLsb' 13 3 &&& BitVec.allOnes 3) ++ (h.extractLsb' 0 13 &&& 0#13) := BitVec.and_append
    _ = h.extractLsb' 13 3 ++ 0#13 := by rw [BitVec.and_allOnes, BitVec.and_zero]

/-- The words that match a format under the mask are those that decode to it. -/
theorem and_formatMask_eq_iff {h : BitVec 16} (format : BitVec 3) {i : Instr} (hw : WellFormed i = true)
    (hi : encode i = .header (headerWord format (h.extractLsb' 9 4) (h.extractLsb' 0 9))) :
    h &&& 0xE000#16 = format ++ 0#13 ↔ decodeHeader h = i := by
  have hformat : h.extractLsb' 13 3 = format ↔ headerWord format (h.extractLsb' 9 4) (h.extractLsb' 0 9) = h := by
    constructor
    · rintro rfl
      exact headerWord_fields h
    · intro hh
      rw [← hh, headerWord_format]
  have happend : h.extractLsb' 13 3 ++ 0#13 = format ++ 0#13 ↔ h.extractLsb' 13 3 = format := by
    refine ⟨fun ha => ?_, fun ha => by rw [ha]⟩
    have hleft := congrArg (BitVec.extractLsb' 13 3) ha
    rwa [BitVec.extractLsb'_append_eq_left, BitVec.extractLsb'_append_eq_left] at hleft
  rw [decodeHeader_eq_iff hw, hi, Encoded.header.injEq, ← hformat, ← happend, ← and_formatMask]

/-- Settles O3: the match value of a format is its selecting bits above thirteen zero bits. -/
theorem frameFormatsByMaskAndMatch : Obligations.FrameFormatsByMaskAndMatch := by
  intro h
  exact ⟨and_formatMask_eq_iff 0b010#3 rfl rfl, and_formatMask_eq_iff 0b011#3 rfl rfl,
    and_formatMask_eq_iff 0b100#3 rfl rfl, and_formatMask_eq_iff 0b101#3 rfl rfl,
    and_formatMask_eq_iff 0b110#3 rfl rfl, and_formatMask_eq_iff 0b111#3 rfl rfl,
    and_formatMask_eq_iff 0b000#3 rfl rfl, and_formatMask_eq_iff 0b001#3 rfl rfl⟩

/-! ### Numbers -/

/-- A header word as a number (R92). -/
theorem pack_toNat (w : Width) (c : Bool) (t : BitVec 4) (k : BitVec 9) :
    (pack w c t k).toNat = (wcEnc w).toNat * 16384 + c.toNat * 8192 + t.toNat * 512 + k.toNat := by
  rw [pack, append_toNat, append_toNat, append_toNat, BitVec.toNat_ofBool]
  omega

/-- Settles O4: the fields of a word are the digits of its number, because `pack` puts together what `unpack` reads. -/
theorem headerWordAsNumber : Obligations.HeaderWordAsNumber := by
  refine ⟨fun w c t k => ⟨pack_toNat w c t k, ?_, ?_, ?_⟩, fun h => ?_, fun h rest => ⟨?_, ?_⟩⟩
  · exact Nat.le_of_lt_succ (wcEnc w).isLt
  · exact Nat.le_of_lt_succ t.isLt
  · exact Nat.le_of_lt_succ k.isLt
  · have hnum := pack_toNat (unpack h).width (unpack h).ck (unpack h).tag (unpack h).klen
    rw [pack_unpack] at hnum
    have hc := Bool.toNat_lt (unpack h).ck
    have ht := (unpack h).tag.isLt
    have hk := (unpack h).klen.isLt
    omega
  · have hh := h.isLt
    have hhigh : h.toNat / 2 ^ 8 % 2 ^ 8 = h.toNat / 256 := by omega
    have hlow : h.toNat / 2 ^ 0 % 2 ^ 8 = h.toNat % 256 := by omega
    simp only [headerBytes, List.map_cons, List.map_nil, BitVec.extractLsb'_toNat, Nat.shiftRight_eq_div_pow,
      hhigh, hlow]
  · have hpair : (h.extractLsb' 8 8 ++ h.extractLsb' 0 8 : BitVec 16) = h := high_append_low 8 8 h
    simp only [headerBytes, List.cons_append, List.nil_append, decodeHeaderBytes, hpair]

end Sys2Proof.Machine
end

section
/-! The frame: its layout, and the formats of its header. -/

namespace Sys2Proof.Machine

/-! ### The parts of a frame -/

theorem lenEmit_length (w : Width) (l : BitVec 32) : (lenEmit w l).length = w.toNat := by
  simp [lenEmit]

/-- The trailer of a frame: the digest where the encoder has a hash (R110). -/
def frameTrailer (hashEn : Bool) (h : HashFn) (data : List Byte) : List Byte :=
  bif hashEn then digestBytes (h.dig data) else []

theorem frameTrailer_length (hashEn : Bool) (h : HashFn) (data : List Byte) :
    (frameTrailer hashEn h data).length = 4 * hashEn.toNat := by
  cases hashEn <;> rfl

/-- A frame is its parts in the order of the wire (R100). -/
theorem frameOf_eq_parts (hashEn : Bool) (h : HashFn) (tag : BitVec 4) (w : Width) (key value : List Byte) :
    frameOf hashEn h tag w key value =
      headerBytes (pack w hashEn tag (BitVec.ofNat 9 key.length)) ++
        (lenEmit w (BitVec.ofNat 32 value.length) ++ (key ++ (value ++ frameTrailer hashEn h (key ++ value)))) := by
  cases hashEn <;> simp [frameOf, frameTrailer]

theorem frameOf_length (hashEn : Bool) (h : HashFn) (tag : BitVec 4) (w : Width) (key value : List Byte) :
    (frameOf hashEn h tag w key value).length = 2 + w.toNat + key.length + value.length + 4 * hashEn.toNat := by
  simp only [frameOf_eq_parts, List.length_append, lenEmit_length, frameTrailer_length, headerBytes,
    List.length_cons, List.length_nil]
  omega

/-- Settles O47: each part begins where the parts before it end. -/
theorem frameLayout : Obligations.FrameLayout := by
  intro hashEn h tag w key value
  have hlen := frameOf_length hashEn h tag w key value
  have hheader : (frameOf hashEn h tag w key value).drop 2 =
      lenEmit w (BitVec.ofNat 32 value.length) ++ (key ++ (value ++ frameTrailer hashEn h (key ++ value))) := by
    rw [frameOf_eq_parts]
    exact List.drop_left' rfl
  have hlength : (frameOf hashEn h tag w key value).drop (2 + w.toNat) =
      key ++ (value ++ frameTrailer hashEn h (key ++ value)) := by
    rw [← List.drop_drop, hheader, List.drop_left' (lenEmit_length w _)]
  have hkey : (frameOf hashEn h tag w key value).drop (2 + w.toNat + key.length) =
      value ++ frameTrailer hashEn h (key ++ value) := by
    rw [← List.drop_drop, hlength, List.drop_left]
  refine ⟨hlen, ?_, ?_, ?_, ?_, ?_, fun hk hv => ?_⟩
  · rw [frameOf_eq_parts]
    exact List.take_left' rfl
  · rw [hheader, List.take_left' (lenEmit_length w _)]
  · rw [hlength, List.take_left]
  · rw [hkey, List.take_left]
  · rw [← List.drop_drop, hkey, List.drop_left, frameTrailer]
  · have hlo := w.toNat_pos
    have hhi := w.toNat_le_four
    have hc := Bool.toNat_lt hashEn
    omega

/-! ### The frame formats (R101 to R108) -/

/-- Settles O21: each format takes a header with its width and trailer flag. -/
theorem frameFormatsSetTheFields : Obligations.FrameFormatsSetTheFields := by
  intro s tag klen hp hi
  have hr := (headerReady_iff s).mpr ⟨hp, hi⟩
  exact ⟨takeHeader_of_ready hr .one false tag klen, takeHeader_of_ready hr .one true tag klen,
    takeHeader_of_ready hr .two false tag klen, takeHeader_of_ready hr .two true tag klen,
    takeHeader_of_ready hr .three false tag klen, takeHeader_of_ready hr .three true tag klen,
    takeHeader_of_ready hr .four false tag klen, takeHeader_of_ready hr .four true tag klen⟩

end Sys2Proof.Machine
end

section
/-! The header codec: `pack` bit by bit, and words written out from the tables (R131 to R136). -/

namespace Sys2Proof.Machine

/-! ### Round trip (R134) -/

/-- Settles O6: `unpack` is the two-sided inverse of `pack` on tuples. -/
theorem packUnpackRoundTrip : Obligations.PackUnpackRoundTrip := by
  have hinv : Function.LeftInverse unpack fun f : HeaderFields => pack f.width f.ck f.tag f.klen :=
    fun f => unpack_pack f.width f.ck f.tag f.klen
  exact ⟨unpack_pack, pack_unpack, Function.bijective_iff_has_inverse.mpr ⟨unpack, hinv, pack_unpack⟩⟩

/-! ### The bits of a packed word (R135) -/

/-- The field in which each bit of a packed word stands (R131). -/
theorem pack_getLsbD (w : Width) (c : Bool) (t : BitVec 4) (k : BitVec 9) (i : Nat) :
    (pack w c t k).getLsbD i =
      if i < 9 then k.getLsbD i
      else if i < 13 then t.getLsbD (i - 9)
      else if i < 14 then c
      else (wcEnc w).getLsbD (i - 14) := by
  have htag : i - 9 < 4 ↔ i < 13 := by omega
  have hck : i - 9 - 4 < 1 ↔ i < 14 := by omega
  have hwc : i - 9 - 4 - 1 = i - 14 := by omega
  simp only [pack, BitVec.getLsbD_append, BitVec.getLsbD_ofBool, htag, hck, hwc]
  split_ifs
  · rfl
  · rfl
  · rw [decide_eq_true (by omega), Bool.true_and]
  · rfl

/-- Bit `i` of a header word's first wire byte is bit `8 + i` of the word (R93). -/
theorem headerByte_zero_getLsbD (h : BitVec 16) {i : Nat} (hi : i < 8) :
    (headerByte h 0).getLsbD i = h.getLsbD (8 + i) := by
  rw [headerByte, if_pos rfl, BitVec.getLsbD_extractLsb', decide_eq_true hi, Bool.true_and]

/-- Settles O7: a bit of a packed word is a bit of one field, the one whose place it has. -/
theorem packFieldsAreIndependent : Obligations.PackFieldsAreIndependent := by
  intro w w' c c' t t' k k' i
  refine ⟨fun hi => ?_, fun hi => ?_, fun hi => ?_, fun hi => ?_, ?_, ?_⟩
  · by_cases hlow : i < 14
    · simp only [pack_getLsbD, if_pos hlow]
    · rw [BitVec.getLsbD_of_ge _ i (by omega), BitVec.getLsbD_of_ge _ i (by omega)]
  · by_cases hlow : i < 13
    · simp only [pack_getLsbD, if_pos hlow]
    · have hhigh : ¬ i < 14 := by omega
      simp only [pack_getLsbD, if_neg hhigh]
  · by_cases hlow : i < 9
    · simp only [pack_getLsbD, if_pos hlow]
    · have hhigh : ¬ i < 13 := by omega
      simp only [pack_getLsbD, if_neg hhigh]
  · have hhigh : ¬ i < 9 := by omega
    simp only [pack_getLsbD, if_neg hhigh]
  · rw [headerByte_zero_getLsbD _ (by decide), pack_getLsbD]
    rfl
  · rw [headerByte_zero_getLsbD _ (by decide), pack_getLsbD]
    rfl

/-! ### Words written out (R114, R115, R136) -/

/-- The word of a well-formed operation decodes to it. -/
theorem decode_of_encode_eq {i : Instr} {e : Encoded} (hw : WellFormed i = true) (he : encode i = e) :
    decode e = .ok i := by
  rw [← he]
  exact decodeOfEncode i hw

/-- A request word with a bit above its port's wires is rejected (log entry 7). -/
theorem decode_of_bitsBeyondPort {p : Port} {w : RequestWord} (hw : w >>> p.bits ≠ 0#133) :
    decode (.request p w) = .error (.bitsBeyondPort p) :=
  if_pos hw

/-- Settles O5: each sample is the word of its operation, and the last sets a bit above the one wire of its port. -/
theorem sampleWordsDecode : Obligations.SampleWordsDecode :=
  ⟨decode_of_encode_eq rfl (by decide), decode_of_encode_eq rfl (by decide), decode_of_encode_eq rfl (by decide),
    decode_of_encode_eq rfl (by decide), decode_of_encode_eq rfl rfl, decode_of_bitsBeyondPort (by decide)⟩

end Sys2Proof.Machine
end

section
/-! The requests of the combinational ports, and the host's read of an output that may be unspecified (R131 to R133, R142, R143). -/

namespace Sys2Proof.Machine

/-! ### Operands outside their domain -/

/-- The values 0, 5, 6 and 7 stand for no width (R133). -/
theorem width_ofBits_eq_none_iff {b : BitVec 3} : Width.ofBits b = none ↔ b = 0 ∨ 4 < b.toNat := by
  revert b
  decide

/-- A length has no width exactly from 2^32 on (R141, R142). -/
theorem widthOf_eq_none_iff {l : BitVec 64} : widthOf l = none ↔ 2 ^ 32 ≤ l.toNat := by
  unfold widthOf
  split_ifs <;> simp <;> omega

/-! ### What a request does -/

/-- HDR.PACK on its domain (R131). -/
theorem exec_hdrPack_bits (w : Width) (c : Bool) (t : BitVec 4) (k : BitVec 9) (s : State) :
    exec (.hdrPack w.bits c t k) s =
      .next (withPorts (fun p => { p with packH := pack w c t k, packRangeErr := false }) s) := by
  simp only [exec, execHdrPack, Width.ofBits_bits]

/-- HDR.PACK outside its domain (R133). -/
theorem exec_hdrPack_of_illegal {width : BitVec 3} (hw : width = 0 ∨ 4 < width.toNat) (c : Bool) (t : BitVec 4)
    (k : BitVec 9) (s : State) :
    exec (.hdrPack width c t k) s =
      .next (withFreePorts (fun n p => { p with packH := Config.freeHeader n, packRangeErr := true }) s) := by
  simp only [exec, execHdrPack, width_ofBits_eq_none_iff.mpr hw]

/-- WIDTHOF outside its range (R142). -/
theorem exec_widthOf_of_outOfRange {l : BitVec 64} (hl : 2 ^ 32 ≤ l.toNat) (s : State) :
    exec (.widthOf l) s =
      .next (withFreePorts (fun n p => { p with widthOfWidth := Config.freeWidth n, widthOfOor := true }) s) := by
  simp only [exec, execWidthOf, widthOf_eq_none_iff.mpr hl]

/-- WC.ENC outside its domain (R143). -/
theorem exec_wcEnc_of_illegal {width : BitVec 3} (hw : width = 0 ∨ 4 < width.toNat) (s : State) :
    exec (.wcEnc width) s =
      .next (withFreePorts (fun n p => { p with wcEncWc := Config.freeClass n, wcEncRangeErr := true }) s) := by
  simp only [exec, execWcEnc, width_ofBits_eq_none_iff.mpr hw]

/-! ### The host's read of an output (R274) -/

theorem readPackOutput_of_rangeErr {s : State} (h : s.ports.packRangeErr = true) :
    readPackOutput s = .error .portOutputUnspecified :=
  if_pos h

theorem readPackOutput_of_not_rangeErr {s : State} (h : s.ports.packRangeErr = false) :
    readPackOutput s = .ok s.ports.packH :=
  if_neg (Bool.eq_false_iff.mp h)

theorem readWidthOutput_of_oor {s : State} (h : s.ports.widthOfOor = true) :
    readWidthOutput s = .error .portOutputUnspecified :=
  if_pos h

theorem readClassOutput_of_rangeErr {s : State} (h : s.ports.wcEncRangeErr = true) :
    readClassOutput s = .error .portOutputUnspecified :=
  if_pos h

/-- Settles O12: outside its domain a request draws a free value and raises the flag under which the host's read is refused. -/
theorem unspecifiedPortOutputsAreWithheld : Obligations.UnspecifiedPortOutputsAreWithheld := by
  refine ⟨fun width c t k s hw => ?_, fun l s hl => ?_, fun width s hw => ?_, fun w c t k s => ?_⟩
  · exact ⟨_, _, exec_hdrPack_of_illegal hw c t k s, rfl, readPackOutput_of_rangeErr rfl⟩
  · exact ⟨_, _, exec_widthOf_of_outOfRange hl s, rfl, readWidthOutput_of_oor rfl⟩
  · exact ⟨_, _, exec_wcEnc_of_illegal hw s, rfl, readClassOutput_of_rangeErr rfl⟩
  · exact ⟨_, exec_hdrPack_bits w c t k s, readPackOutput_of_not_rangeErr rfl⟩

/-! ### The header codec's fields (R131, R132) -/

/-- The width class is the width modulo 4 (R94, R143). -/
theorem wcEnc_eq_bits_setWidth (w : Width) : wcEnc w = w.bits.setWidth 2 := by
  cases w <;> rfl

/-- A stored class 0 means width 4, any other the width directly (R144). -/
theorem wcDec_bits (x : BitVec 2) : (wcDec x).bits = if x = 0 then 4 else x.setWidth 3 := by
  revert x
  decide

/-- Settles O10: the packed word begins with the width modulo 4, and a stored class is read back by the table. -/
theorem headerCodecPorts : Obligations.HeaderCodecPorts := by
  refine ⟨fun w c t k s => ?_, fun h s => ?_⟩
  · rw [exec_hdrPack_bits, pack, wcEnc_eq_bits_setWidth]
    rfl
  · rw [← wcDec_bits]
    rfl

end Sys2Proof.Machine
end

section
/-! The width selector: the least width of a length, the width-class table, and the length field (R141 to R148). -/

namespace Sys2Proof.Machine

/-! ### Big-endian numbers (R10) -/

/-- A big-endian number is the library's number of the bytes taken from the last to the first. -/
theorem fromBe_eq_ofDigits (bytes : List Byte) : fromBe bytes = Nat.ofDigits 256 (bytes.reverse.map BitVec.toNat) := by
  induction bytes with
  | nil => rfl
  | cons b rest ih =>
    rw [fromBe, ih, List.reverse_cons, List.map_append, Nat.ofDigits_append, List.length_map, List.length_reverse,
      List.map_singleton, Nat.ofDigits_singleton]
    ring

theorem fromBe_concat (bytes : List Byte) (b : Byte) : fromBe (bytes ++ [b]) = fromBe bytes * 256 + b.toNat := by
  rw [fromBe_eq_ofDigits, fromBe_eq_ofDigits, List.reverse_concat, List.map_cons, Nat.ofDigits_cons]
  ring

/-- Bytes, as numbers, are digits to the base 256. -/
theorem digits_lt_256 {bytes : List Byte} : ∀ d ∈ bytes.reverse.map BitVec.toNat, d < 256 := by
  intro d hd
  obtain ⟨b, -, rfl⟩ := List.mem_map.mp hd
  exact b.isLt

theorem fromBe_lt (bytes : List Byte) : fromBe bytes < 256 ^ bytes.length := by
  have h := Nat.ofDigits_lt_base_pow_length (by decide) (digits_lt_256 (bytes := bytes))
  rwa [← fromBe_eq_ofDigits, List.length_map, List.length_reverse] at h

/-- Byte sequences of one length are told apart by their numbers. -/
theorem fromBe_inj {s t : List Byte} (hlen : s.length = t.length) (h : fromBe s = fromBe t) : s = t := by
  rw [fromBe_eq_ofDigits, fromBe_eq_ofDigits] at h
  have hdigits := Nat.ofDigits_inj_of_len_eq (by decide) (by simpa using hlen) digits_lt_256 digits_lt_256 h
  exact List.reverse_injective (List.map_injective_iff.mpr (fun _ _ => BitVec.eq_of_toNat_eq) hdigits)

/-! ### The bytes of a length (R73, R146) -/

/-- The `n`-byte big-endian image of a 32-bit value, for any `n`: LEN.EMIT's with the width as a number. -/
def beImage (n : Nat) (l : BitVec 32) : List Byte :=
  (List.range n).map (beByte n l)

theorem lenEmit_eq_beImage (w : Width) (l : BitVec 32) : lenEmit w l = beImage w.toNat l := rfl

theorem beByte_toNat (n : Nat) (l : BitVec 32) (i : Nat) :
    (beByte n l i).toNat = l.toNat / 2 ^ (8 * (n - 1 - i)) % 256 := by
  rw [beByte, BitVec.toNat_setWidth, BitVec.toNat_ushiftRight, Nat.shiftRight_eq_div_pow]

/-- One byte more stands before the image: an image is a tail of every longer one. -/
theorem beImage_succ (n : Nat) (l : BitVec 32) : beImage (n + 1) l = beByte (n + 1) l 0 :: beImage n l := by
  rw [beImage, List.range_succ_eq_map, List.map_cons, List.map_map]
  refine congrArg _ (List.map_congr_left fun i _ => ?_)
  simp only [Function.comp_apply, beByte, Nat.succ_eq_add_one, Nat.add_sub_cancel, Nat.sub_add_eq, Nat.sub_right_comm]

theorem beImage_length (n : Nat) (l : BitVec 32) : (beImage n l).length = n := by
  simp [beImage]

theorem beImage_getElem? {n i : Nat} (l : BitVec 32) (hi : i < n) : (beImage n l)[i]? = some (beByte n l i) := by
  simp [beImage, hi]

/-- The shorter image is what is left of the longer one without its first bytes. -/
theorem beImage_drop (k n : Nat) (l : BitVec 32) : (beImage (n + k) l).drop k = beImage n l := by
  induction k with
  | zero => rfl
  | succ k ih => rw [← Nat.add_assoc, beImage_succ, List.drop_succ_cons, ih]

/-- An image of `n` bytes stands for the value modulo 256 to the `n` (R146). -/
theorem fromBe_beImage (n : Nat) (l : BitVec 32) : fromBe (beImage n l) = l.toNat % 256 ^ n := by
  induction n with
  | zero => exact (Nat.mod_one _).symm
  | succ n ih =>
    have hpow : 2 ^ (8 * (n + 1 - 1 - 0)) = 256 ^ n := pow_mul 2 8 n
    rw [beImage_succ, fromBe, ih, beImage_length, beByte_toNat, hpow, Nat.mod_pow_succ]
    ring

/-- Settles O13: the image is a tail of the four-byte image, and its number loses the high bytes. -/
theorem lengthEmitPort : Obligations.LengthEmitPort := by
  intro w l s
  refine ⟨lenEmit w l, rfl, lenEmit_length w l, fun i hi => ?_, ?_, fromBe_beImage w.toNat l⟩
  · rw [lenEmit_eq_beImage, beImage_getElem? l hi, Option.map_some, beByte_toNat]
  · have hfour : beImage (w.toNat + (4 - w.toNat)) l = lenEmit .four l := by
      rw [Nat.add_sub_cancel' w.toNat_le_four]
      rfl
    rw [lenEmit_eq_beImage, ← hfour, beImage_drop]

/-! ### Assembling a length (R147) -/

/-- Up to four bytes are assembled to their big-endian number. -/
theorem lenAssemble_toNat {bytes : List Byte} (hlen : bytes.length ≤ 4) : (lenAssemble bytes).toNat = fromBe bytes := by
  induction bytes using List.reverseRecOn with
  | nil => rfl
  | append_singleton bytes b ih =>
    rw [List.length_append, List.length_singleton] at hlen
    have hlt : fromBe bytes < 256 ^ 3 :=
      Nat.lt_of_lt_of_le (fromBe_lt bytes) (Nat.pow_le_pow_right (by decide) (by omega))
    have hconcat : lenAssemble (bytes ++ [b]) = shiftIn (lenAssemble bytes) b := List.foldl_concat ..
    rw [hconcat, shiftIn_toNat, fromBe_concat, ih (by omega), Nat.mod_eq_of_lt (by omega)]

theorem lenAssembleOperand_iff {bytes : List Byte} :
    lenAssembleOperand bytes = true ↔ 1 ≤ bytes.length ∧ bytes.length ≤ 4 := by
  simp [lenAssembleOperand]

/-- Settles O14: on its operand's domain LEN.ASSEMBLE drives the number of the bytes. -/
theorem lengthAssemblePort : Obligations.LengthAssemblePort := by
  refine ⟨fun bytes s hlo hhi => ?_, fun bytes s hout => if_neg fun hw => ?_⟩
  · exact ⟨lenAssemble bytes, if_pos (lenAssembleOperand_iff.mpr ⟨hlo, hhi⟩), lenAssemble_toNat hhi⟩
  · have hdomain := lenAssembleOperand_iff.mp hw
    omega

/-! ### The least width of a length (R141) -/

/-- A length's width is the least number of bytes, and at least one, that hold it. -/
theorem widthOf_eq_some_iff {l : BitVec 64} {w : Width} :
    widthOf l = some w ↔ (w = .one ∨ 256 ^ (w.toNat - 1) ≤ l.toNat) ∧ l.toNat < 256 ^ w.toNat := by
  constructor
  · intro hw
    unfold widthOf at hw
    split_ifs at hw with h8 h16 h24 h32 <;> cases hw
    · exact ⟨.inl rfl, h8⟩
    · exact ⟨.inr (not_lt.mp h8), h16⟩
    · exact ⟨.inr (not_lt.mp h16), h24⟩
    · exact ⟨.inr (not_lt.mp h24), h32⟩
  · rintro ⟨hlow, hfits⟩
    cases w with
    | one => exact if_pos hfits
    | two =>
      replace hlow : 2 ^ 8 ≤ l.toNat := hlow.resolve_left (by decide)
      rw [widthOf, if_neg (by omega)]
      exact if_pos hfits
    | three =>
      replace hlow : 2 ^ 16 ≤ l.toNat := hlow.resolve_left (by decide)
      rw [widthOf, if_neg (by omega), if_neg (by omega)]
      exact if_pos hfits
    | four =>
      replace hlow : 2 ^ 24 ≤ l.toNat := hlow.resolve_left (by decide)
      rw [widthOf, if_neg (by omega), if_neg (by omega), if_neg (by omega)]
      exact if_pos hfits

/-- A length fits in `n` bytes exactly when its width is at most `n`. -/
theorem width_le_iff_fits {l : BitVec 64} {w : Width} (hw : widthOf l = some w) {n : Nat} (hn : 1 ≤ n) :
    w.toNat ≤ n ↔ l.toNat < 256 ^ n := by
  obtain ⟨hlow, hfits⟩ := widthOf_eq_some_iff.mp hw
  refine ⟨fun hle => hfits.trans_le (Nat.pow_le_pow_right (by decide) hle), fun hlt => ?_⟩
  rcases hlow with rfl | hlow
  · exact hn
  · have hlt' := (Nat.pow_lt_pow_iff_right (by decide)).mp (hlow.trans_lt hlt)
    omega

theorem setWidth_64_toNat (l : BitVec 32) : (l.setWidth 64).toNat = l.toNat := by
  rw [BitVec.toNat_setWidth]
  omega

/-- Every 32-bit length has a width (R148). -/
theorem widthOf_setWidth_isSome (l : BitVec 32) : (widthOf (l.setWidth 64)).isSome = true := by
  rw [Option.isSome_iff_ne_none, ne_eq, widthOf_eq_none_iff, setWidth_64_toNat]
  exact Nat.not_le_of_lt l.isLt

/-- WIDTHOF on a length that has a width (R141). -/
theorem exec_widthOf_of_some {l : BitVec 64} {w : Width} (hw : widthOf l = some w) (s : State) :
    exec (.widthOf l) s = .next (withPorts (fun p => { p with widthOfWidth := w.bits, widthOfOor := false }) s) := by
  simp only [exec, execWidthOf, hw]

/-- Where no bit above a field is set, the field is 0 exactly when the value is below the field. -/
theorem field_eq_zero_iff {l : BitVec 64} {start len : Nat} (hl : l.toNat < 2 ^ (start + len)) :
    l.extractLsb' start len = 0 ↔ l.toNat < 2 ^ start := by
  have hdiv : l.toNat / 2 ^ start < 2 ^ len := Nat.div_lt_of_lt_mul (by rwa [← pow_add])
  rw [← BitVec.toNat_inj, BitVec.extractLsb'_toNat, Nat.shiftRight_eq_div_pow, Nat.mod_eq_of_lt hdiv]
  exact Nat.div_eq_zero_iff_lt (Nat.two_pow_pos start)

/-- The highest set bit stands in a field exactly when no bit above the field is set and the field is not 0. -/
theorem range_iff_fields (l : BitVec 64) (start len : Nat) (hle : start + len ≤ 64) :
    2 ^ start ≤ l.toNat ∧ l.toNat < 2 ^ (start + len) ↔
      l.extractLsb' (start + len) (64 - (start + len)) = 0 ∧ l.extractLsb' start len ≠ 0 := by
  have habove : l.toNat < 2 ^ (start + len + (64 - (start + len))) := by
    rw [Nat.add_sub_cancel' hle]
    exact l.isLt
  rw [field_eq_zero_iff habove, and_comm]
  refine and_congr_right fun hlt => ?_
  rw [ne_eq, field_eq_zero_iff hlt, not_lt]

theorem widthOf_eq_one_iff {l : BitVec 64} : widthOf l = some .one ↔ l.toNat < 2 ^ 8 :=
  widthOf_eq_some_iff.trans (and_iff_right (.inl rfl))

/-- Above one byte, the width is where the length lies between two thresholds. -/
theorem widthOf_eq_some_iff_of_ne_one {l : BitVec 64} {w : Width} (hw : w ≠ .one) :
    widthOf l = some w ↔ 256 ^ (w.toNat - 1) ≤ l.toNat ∧ l.toNat < 256 ^ w.toNat := by
  rw [widthOf_eq_some_iff, or_iff_right hw]

/-- Settles O9: the thresholds are the least width's, and each is met exactly when the bits above it are 0. -/
theorem widthOfPort : Obligations.WidthOfPort := by
  intro l s
  have htwo : widthOf l = some .two ↔ 2 ^ 8 ≤ l.toNat ∧ l.toNat < 2 ^ 16 := widthOf_eq_some_iff_of_ne_one (by decide)
  have hthree : widthOf l = some .three ↔ 2 ^ 16 ≤ l.toNat ∧ l.toNat < 2 ^ 24 := widthOf_eq_some_iff_of_ne_one (by decide)
  have hfour : widthOf l = some .four ↔ 2 ^ 24 ≤ l.toNat ∧ l.toNat < 2 ^ 32 := widthOf_eq_some_iff_of_ne_one (by decide)
  refine ⟨fun h => exec_widthOf_of_some (widthOf_eq_one_iff.mpr h) s,
    fun hlo hhi => exec_widthOf_of_some (htwo.mpr ⟨hlo, hhi⟩) s,
    fun hlo hhi => exec_widthOf_of_some (hthree.mpr ⟨hlo, hhi⟩) s,
    fun hlo hhi => exec_widthOf_of_some (hfour.mpr ⟨hlo, hhi⟩) s,
    fun h => ⟨_, exec_widthOf_of_outOfRange h s⟩, ?_,
    hfour.trans (range_iff_fields l 24 8 (by decide)), hthree.trans (range_iff_fields l 16 8 (by decide)),
    htwo.trans (range_iff_fields l 8 8 (by decide)), ?_⟩
  · rw [widthOf_eq_none_iff, ne_eq, field_eq_zero_iff l.isLt, not_lt]
  · rw [widthOf_eq_one_iff, field_eq_zero_iff l.isLt]

/-! ### The laws of the length field (R148) -/

/-- A length that fits in its field survives it. -/
theorem lenAssemble_lenEmit {w : Width} {l : BitVec 32} (hl : l.toNat < 256 ^ w.toNat) :
    lenAssemble (lenEmit w l) = l := by
  apply BitVec.eq_of_toNat_eq
  rw [lenAssemble_toNat (by rw [lenEmit_length]; exact w.toNat_le_four), lenEmit_eq_beImage, fromBe_beImage,
    Nat.mod_eq_of_lt hl]

/-- Bytes that are assembled and emitted again in their number come back. -/
theorem lenEmit_lenAssemble {w : Width} {bytes : List Byte} (hlen : bytes.length = w.toNat) :
    lenEmit w (lenAssemble bytes) = bytes := by
  refine fromBe_inj (by rw [lenEmit_length, hlen]) ?_
  rw [lenEmit_eq_beImage, fromBe_beImage, lenAssemble_toNat (hlen ▸ w.toNat_le_four), ← hlen,
    Nat.mod_eq_of_lt (fromBe_lt bytes)]

/-- A number fits in the bytes after its first exactly when the first byte is 0. -/
theorem fromBe_cons_lt_iff (b : Byte) (rest : List Byte) : fromBe (b :: rest) < 256 ^ rest.length ↔ b = 0 := by
  refine ⟨fun h => BitVec.eq_of_toNat_eq ?_, fun h => ?_⟩
  · have hone : b.toNat * 256 ^ rest.length < 1 * 256 ^ rest.length := by
      rw [one_mul]
      exact (Nat.le_add_right _ _).trans_lt h
    exact Nat.lt_one_iff.mp (Nat.lt_of_mul_lt_mul_right hone)
  · subst h
    simpa [fromBe] using fromBe_lt rest

/-- The width of one to four assembled bytes (R148): no more than their number, and that number exactly when none can be left out. -/
theorem width_of_lenAssemble {b : Byte} {rest : List Byte} (hlen : rest.length ≤ 3) {w : Width}
    (hw : widthOf ((lenAssemble (b :: rest)).setWidth 64) = some w) :
    w.toNat ≤ rest.length + 1 ∧ (w.toNat = rest.length + 1 ↔ rest = [] ∨ b ≠ 0) := by
  have hvalue : ((lenAssemble (b :: rest)).setWidth 64).toNat = fromBe (b :: rest) := by
    rw [setWidth_64_toNat, lenAssemble_toNat (bytes := b :: rest) (Nat.succ_le_succ hlen)]
  have hle : w.toNat ≤ rest.length + 1 := by
    rw [width_le_iff_fits hw (Nat.le_add_left 1 _), hvalue]
    exact fromBe_lt (b :: rest)
  refine ⟨hle, ?_⟩
  cases rest with
  | nil => simpa using le_antisymm hle w.toNat_pos
  | cons c rest =>
    have hpos : 1 ≤ (c :: rest).length := Nat.succ_pos _
    have hshorter : w.toNat ≤ (c :: rest).length ↔ b = 0 := by
      rw [width_le_iff_fits hw hpos, hvalue, fromBe_cons_lt_iff]
    rw [or_iff_right (List.cons_ne_nil c rest), ne_eq, ← hshorter]
    omega

/-- Settles O15: a length fits in the field of its width, and only a 0 byte in front can be left out. -/
theorem lengthFieldLaws : Obligations.LengthFieldLaws := by
  refine ⟨fun l w hw => ?_, widthOf_setWidth_isSome, fun w l => lenAssemble_lenEmit,
    fun w bytes => lenEmit_lenAssemble, fun b rest hlen => ?_⟩
  · obtain ⟨-, hfits⟩ := widthOf_eq_some_iff.mp hw
    rw [setWidth_64_toNat] at hfits
    exact lenAssemble_lenEmit hfits
  · obtain ⟨w, hw⟩ := Option.isSome_iff_exists.mp (widthOf_setWidth_isSome (lenAssemble (b :: rest)))
    exact ⟨w, hw, width_of_lenAssemble hlen hw⟩

/-! ### The width-class table (R143 to R145) -/

/-- Settles O8: a class stands for a width, and a width is 1 to 4. -/
theorem widthClassTableLaws : Obligations.WidthClassTableLaws := by
  refine ⟨wcDec_wcEnc, wcEnc_wcDec, fun x => ⟨fun hzero => ?_, ?_⟩⟩
  · have hpos := (wcDec x).toNat_pos
    rw [← Width.bits_toNat, hzero] at hpos
    exact absurd hpos (by decide)
  · rw [Width.bits_toNat]
    exact (wcDec x).toNat_le_four

/-- WC.ENC on its domain (R143). -/
theorem exec_wcEnc_bits (w : Width) (s : State) :
    exec (.wcEnc w.bits) s = .next (withPorts (fun p => { p with wcEncWc := wcEnc w, wcEncRangeErr := false }) s) := by
  simp only [exec, execWcEnc, Width.ofBits_bits]

/-- WC.DEC on the class of a width (R144). -/
theorem exec_wcDec_wcEnc (w : Width) (s : State) :
    exec (.wcDec (wcEnc w)) s = .next (withPorts (fun p => { p with wcDecWidth := w.bits }) s) := by
  simp only [exec, execWcDec, wcDec_wcEnc]

/-- Settles O11: on a width and on its class the ports read the table, and outside it WC.ENC raises its flag. -/
theorem widthClassPorts : Obligations.WidthClassPorts := by
  refine ⟨fun s => ?_, fun w => ?_, fun width s hw => ⟨_, exec_wcEnc_of_illegal hw s⟩⟩
  · exact ⟨exec_wcEnc_bits .one s, exec_wcEnc_bits .two s, exec_wcEnc_bits .three s, exec_wcEnc_bits .four s,
      exec_wcDec_wcEnc .four s, exec_wcDec_wcEnc .one s, exec_wcDec_wcEnc .two s, exec_wcDec_wcEnc .three s⟩
  · rw [wcEnc_eq_bits_setWidth, BitVec.toNat_setWidth, Width.bits_toNat]

end Sys2Proof.Machine
end

section
/-! The encoder's turn in a working phase, said once for all five fields: a byte step below the field's end and an advance at it. -/

namespace Sys2Proof.Machine

/-! ### A turn in a working phase (R26) -/

/-- The operand buffer of a phase has the byte that the phase would push next (R38). -/
def encOperandHeld (s : State) : Phase → Prop
  | .key => s.enc.idx.toNat < s.enc.klen64.toNat
  | .value => s.enc.idx.toNat < s.enc.vlen64.toNat
  | _ => True

/-- The invariant's latched lengths are within those of the command, so no byte step reads beyond an operand (R40 (c), (d)). -/
theorem encOperandHeld_of_inv {s : State} (h : EncInv s) {p : Phase} (hp : s.enc.phase = p.code)
    (hi : s.enc.idx.toNat < encFieldLength s.enc p) : encOperandHeld s p := by
  cases p with
  | key =>
    obtain ⟨-, -, hk, -, -⟩ := h.latched .key hp rfl
    rw [encFieldLength, hk, BitVec.toNat_setWidth] at hi
    exact hi.trans_le (Nat.mod_le _ _)
  | value =>
    obtain ⟨-, -, -, hv, -⟩ := h.latched .value hp rfl
    rw [encFieldLength, hv, BitVec.toNat_setWidth] at hi
    exact hi.trans_le (Nat.mod_le _ _)
  | _ => trivial

/-- Below the end of its field the encoder's turn is the byte step of the phase. -/
theorem encTurn_byteStep {s : State} {p : Phase} (hp : s.enc.phase = p.code) (ht : p.transfers = true)
    (hi : s.enc.idx.toNat < encFieldLength s.enc p) (hb : encOperandHeld s p) :
    encTurn s =
      .next (encPush p (BitVec.ofNat 64 (encFieldLength s.enc p)) (encNextAcc s p) (encNextByte s p) s) := by
  unfold encTurn
  rw [hp, Phase.ofCode_code]
  cases p with
  | header | checksum => exact if_pos hi
  | length => exact (if_pos hi).trans (by rw [encLengthByte, zext64_eq_ofNat]; rfl)
  | key => exact (if_pos hi).trans ((if_pos hb).trans (by rw [zext64_eq_ofNat]; rfl))
  | value => exact (if_pos hi).trans ((if_pos hb).trans (by rw [zext64_eq_ofNat]; rfl))
  | _ => cases ht

/-- The advance of a working phase, at the end of its field (R168, R170, R172, R174, R176). -/
def encFieldEnd (s : State) : Phase → State
  | .header => encAdvance .length s
  | .length => encAdvance .key s
  | .key => encAdvance .value s
  | .value => encValueAdvance s
  | .checksum => encComplete s
  | _ => s

/-- At the end of its field the encoder's turn is the advance of the phase. -/
theorem encTurn_fieldEnd {s : State} {p : Phase} (hp : s.enc.phase = p.code) (ht : p.transfers = true)
    (hi : s.enc.idx.toNat = encFieldLength s.enc p) : encTurn s = .next (encFieldEnd s p) := by
  have hn : ¬ s.enc.idx.toNat < encFieldLength s.enc p := by omega
  unfold encTurn
  rw [hp, Phase.ofCode_code]
  cases p with
  | header | length | key | value | checksum => exact (if_neg hn).trans (if_pos hi)
  | _ => cases ht

theorem encTurn_validate {s : State} (hp : s.enc.phase = Phase.validate.code) : encTurn s = .next (encValidate s) := by
  rw [encTurn, hp]
  rfl

/-! ### The validation of the lengths (R162, R164 to R166) -/

theorem validation_keyTooLong {klen : BitVec 64} (hk : 511 < klen.toNat) (vlen : BitVec 64) :
    validation klen vlen = .error ⟨.keyTooLong, .validate, 511#64, klen⟩ :=
  if_pos hk

theorem validation_valueTooLong {klen vlen : BitVec 64} (hk : klen.toNat ≤ 511) (hv : 4294967296 < vlen.toNat) :
    validation klen vlen = .error ⟨.valueTooLong, .validate, 4294967296#64, vlen⟩ :=
  (if_neg (not_lt.mpr hk)).trans (if_pos hv)

theorem validation_outOfRange {klen vlen : BitVec 64} (hk : klen.toNat ≤ 511) (hv : vlen.toNat = 4294967296) :
    validation klen vlen = .error ⟨.outOfRange, .validate, 4294967295#64, vlen⟩ := by
  rw [validation, if_neg (not_lt.mpr hk), if_neg (by omega), widthOf_eq_none_iff.mpr hv.ge]

/-- The two lengths are accepted when the key's is at most 511 and the value's has a width. -/
theorem validation_eq_ok_iff {klen vlen : BitVec 64} {w : Width} :
    validation klen vlen = .ok w ↔ klen.toNat ≤ 511 ∧ widthOf vlen = some w := by
  by_cases hk : 511 < klen.toNat
  · simp [validation_keyTooLong hk, hk]
  · by_cases hv : 4294967296 < vlen.toNat
    · have hn : widthOf vlen = none := widthOf_eq_none_iff.mpr hv.le
      simp [validation_valueTooLong (not_lt.mp hk) hv, hn]
    · rw [validation, if_neg hk, if_neg hv]
      cases widthOf vlen <;> simp [not_lt.mp hk]

/-- Every rejection of the lengths is of the class `InputTooLarge` (R120). -/
theorem validation_error_inputTooLarge {klen vlen : BitVec 64} {f : Failure} (h : validation klen vlen = .error f) :
    inputTooLarge f.status.code = true := by
  unfold validation at h
  split at h
  · cases h; rfl
  · split at h
    · cases h; rfl
    · split at h <;> cases h; rfl

/-- `VALIDATE` raises the failure of the command's description. -/
theorem encValidate_of_rejected {s : State} {f : Failure} (h : validation s.enc.klen64 s.enc.vlen64 = .error f) :
    encValidate s = encRaise f.status f.phase f.expected f.actual s := by
  by_cases hk : 511 < s.enc.klen64.toNat
  · rw [validation_keyTooLong hk] at h
    cases h
    exact if_pos hk
  · by_cases hv : 4294967296 < s.enc.vlen64.toNat
    · rw [validation_valueTooLong (not_lt.mp hk) hv] at h
      cases h
      exact (if_neg hk).trans (if_pos hv)
    · cases hw : widthOf s.enc.vlen64 with
      | none =>
        have hmin : 2 ^ 32 ≤ s.enc.vlen64.toNat := widthOf_eq_none_iff.mp hw
        rw [validation_outOfRange (not_lt.mp hk) (by omega)] at h
        cases h
        rw [encValidate, if_neg hk, if_neg hv, hw]
      | some w =>
        rw [validation_eq_ok_iff.mpr ⟨not_lt.mp hk, hw⟩] at h
        cases h

/-- `VALIDATE` latches what it accepts with the width of the command's description. -/
theorem encValidate_of_accepted {s : State} {w : Width} (h : validation s.enc.klen64 s.enc.vlen64 = .ok w) :
    encValidate s = encAccepted w s := by
  obtain ⟨hk, hw⟩ := validation_eq_ok_iff.mp h
  have hv := (widthOf_eq_some_iff.mp hw).2
  have hv' : ¬ 4294967296 < s.enc.vlen64.toNat := by cases w <;> simp only [Width.toNat] at hv <;> omega
  rw [encValidate, if_neg (not_lt.mpr hk), if_neg hv', hw]

/-! ### A push by its answer (R62 to R64, R178) -/

theorem encPush_ok {s : State} {rest : List SinkAnswer} (h : s.sinkAnswers = .ok :: rest) (p : Phase) (n : BitVec 64)
    (acc : Nat) (b : Byte) : encPush p n acc b s = encPushed acc b rest s := by
  rw [encPush, h]

theorem encPush_err {s : State} {rest : List SinkAnswer} (h : s.sinkAnswers = .err :: rest) (p : Phase) (n : BitVec 64)
    (acc : Nat) (b : Byte) :
    encPush p n acc b s = encRaise .ioFailure p n (zext64 s.enc.idx) { s with sinkAnswers := rest } := by
  rw [encPush, h]

theorem encPush_unanswered {s : State} (h : s.sinkAnswers = []) (p : Phase) (n : BitVec 64) (acc : Nat) (b : Byte) :
    encPush p n acc b s = s := by
  rw [encPush, h]

/-! ### The same as steps of the machine -/

section Steps

variable {s : State} {ts : List Agent} {p : Phase} {rest : List SinkAnswer}

/-- A command rejected. -/
theorem step_encRejected (hr : phasesReachable s = true) (hturn : s.turns = .enc :: ts)
    (hp : s.enc.phase = Phase.validate.code) {f : Failure} (h : validation s.enc.klen64 s.enc.vlen64 = .error f) :
    step s = .next (encRaise f.status f.phase f.expected f.actual { s with turns := ts }) := by
  rw [step_eq_agentTurn hr hturn, agentTurn, encTurn_validate (s := { s with turns := ts }) hp,
    encValidate_of_rejected (s := { s with turns := ts }) h]

/-- A command accepted. -/
theorem step_encAccepted (hr : phasesReachable s = true) (hturn : s.turns = .enc :: ts)
    (hp : s.enc.phase = Phase.validate.code) {w : Width} (h : validation s.enc.klen64 s.enc.vlen64 = .ok w) :
    step s = .next (encAccepted w { s with turns := ts }) := by
  rw [step_eq_agentTurn hr hturn, agentTurn, encTurn_validate (s := { s with turns := ts }) hp,
    encValidate_of_accepted (s := { s with turns := ts }) h]

/-- A byte accepted by the sink. -/
theorem step_encPushed (hr : phasesReachable s = true) (hturn : s.turns = .enc :: ts) (hp : s.enc.phase = p.code)
    (ht : p.transfers = true) (hi : s.enc.idx.toNat < encFieldLength s.enc p) (hb : encOperandHeld s p)
    (ha : s.sinkAnswers = .ok :: rest) :
    step s = .next (encPushed (encNextAcc s p) (encNextByte s p) rest { s with turns := ts }) := by
  have hb' : encOperandHeld { s with turns := ts } p := by cases p <;> exact hb
  have hbyte : encNextByte { s with turns := ts } p = encNextByte s p := by cases p <;> rfl
  have hacc : encNextAcc { s with turns := ts } p = encNextAcc s p := by cases p <;> rfl
  rw [step_eq_agentTurn hr hturn, agentTurn, encTurn_byteStep (s := { s with turns := ts }) hp ht hi hb',
    encPush_ok (s := { s with turns := ts }) ha, hbyte, hacc]

/-- A byte refused by the sink. -/
theorem step_encRaise (hr : phasesReachable s = true) (hturn : s.turns = .enc :: ts) (hp : s.enc.phase = p.code)
    (ht : p.transfers = true) (hi : s.enc.idx.toNat < encFieldLength s.enc p) (hb : encOperandHeld s p)
    (ha : s.sinkAnswers = .err :: rest) :
    step s = .next (encRaise .ioFailure p (BitVec.ofNat 64 (encFieldLength s.enc p)) (zext64 s.enc.idx)
      { s with turns := ts, sinkAnswers := rest }) := by
  have hb' : encOperandHeld { s with turns := ts } p := by cases p <;> exact hb
  rw [step_eq_agentTurn hr hturn, agentTurn, encTurn_byteStep (s := { s with turns := ts }) hp ht hi hb',
    encPush_err (s := { s with turns := ts }) ha]

/-- The end of a field. -/
theorem step_encFieldEnd (hr : phasesReachable s = true) (hturn : s.turns = .enc :: ts) (hp : s.enc.phase = p.code)
    (ht : p.transfers = true) (hi : s.enc.idx.toNat = encFieldLength s.enc p) :
    step s = .next (encFieldEnd { s with turns := ts } p) := by
  rw [step_eq_agentTurn hr hturn]
  exact encTurn_fieldEnd (s := { s with turns := ts }) hp ht hi

end Steps

/-! ### The steps of each phase -/

/-- Settles O22: `VALIDATE` follows the validation of the two lengths. -/
theorem encoderValidateStep : Obligations.EncoderValidateStep := by
  intro s ts hr hturn hp
  refine ⟨fun hk => ?_, fun hk hv => ?_, fun hk hv => ?_, fun hk hv => ?_⟩
  · exact step_encRejected hr hturn hp (validation_keyTooLong hk _)
  · exact step_encRejected hr hturn hp (validation_valueTooLong hk hv)
  · exact step_encRejected hr hturn hp (validation_outOfRange hk hv)
  · have hne : widthOf s.enc.vlen64 ≠ none := fun hn => absurd (widthOf_eq_none_iff.mp hn) (not_le.mpr hv)
    obtain ⟨w, hw⟩ := Option.ne_none_iff_exists'.mp hne
    refine ⟨w, hw, ?_⟩
    rw [← BitVec.setWidth_eq_extractLsb' (by decide), ← BitVec.setWidth_eq_extractLsb' (by decide)]
    exact step_encAccepted hr hturn hp (validation_eq_ok_iff.mpr ⟨hk, hw⟩)

/-- Settles O23: the first field of a frame is the two bytes of the latched header. -/
theorem encoderHeaderSteps : Obligations.EncoderHeaderSteps := by
  intro s ts rest hr hturn hp
  refine ⟨fun hi ha => ?_, fun hi ha => step_encRaise hr hturn hp rfl hi trivial ha, fun hi => ?_⟩
  · have hbyte : encNextByte s .header = if s.enc.idx = 0 then s.enc.hdr.extractLsb' 8 8 else s.enc.hdr.extractLsb' 0 8 := by
      have hfirst : s.enc.idx.toNat = 0 ↔ s.enc.idx = 0 := BitVec.toNat_inj (y := 0)
      simp only [encNextByte, headerByte, hfirst]
    rw [← hbyte]
    exact step_encPushed hr hturn hp rfl hi trivial ha
  · exact step_encFieldEnd hr hturn hp rfl (congrArg BitVec.toNat hi)

/-- The byte of a big-endian image as a digit of the value (R73). -/
theorem beByte_eq_ofNat (n : Nat) (l : BitVec 32) (i : Nat) :
    beByte n l i = BitVec.ofNat 8 (l.toNat / 2 ^ (8 * (n - 1 - i))) :=
  BitVec.eq_of_toNat_eq (by rw [beByte_toNat, BitVec.toNat_ofNat])

/-- Settles O24: the bytes of the length image, and an advance that does not look at `KLEN`. -/
theorem encoderLengthSteps : Obligations.EncoderLengthSteps := by
  intro s ts rest hr hturn hp
  refine ⟨fun hi ha => ?_, fun hi ha => ?_, fun hi => step_encFieldEnd hr hturn hp rfl hi⟩
  · rw [← beByte_eq_ofNat]
    exact step_encPushed hr hturn hp rfl hi trivial ha
  · have hstep := step_encRaise hr hturn hp rfl hi trivial ha
    rwa [encFieldLength, ← zext64_eq_ofNat] at hstep

/-- Settles O25: the invariant holds the index within `KBUF`. -/
theorem encoderKeySteps : Obligations.EncoderKeySteps := by
  intro s ts rest hinv hturn hp
  have hr := inv_phasesReachable hinv
  refine ⟨fun hi ha => ?_, fun hi ha => ?_, fun hi => step_encFieldEnd hr hturn hp rfl hi⟩
  · exact step_encPushed hr hturn hp rfl hi (encOperandHeld_of_inv hinv.enc hp hi) ha
  · have hstep := step_encRaise hr hturn hp rfl hi (encOperandHeld_of_inv hinv.enc hp hi) ha
    rwa [encFieldLength, ← zext64_eq_ofNat] at hstep

/-- Settles O26: at the end of the value the invariant's accumulator holds key and value, whose digest is latched (R236). -/
theorem encoderValueSteps : Obligations.EncoderValueSteps := by
  intro s ts rest hinv hturn hp
  have hr := inv_phasesReachable hinv
  refine ⟨fun hi ha => ?_, fun hi ha => ?_, fun hi hen => ?_, fun hi hen => ?_⟩
  · exact step_encPushed hr hturn hp rfl hi (encOperandHeld_of_inv hinv.enc hp hi) ha
  · have hstep := step_encRaise hr hturn hp rfl hi (encOperandHeld_of_inv hinv.enc hp hi) ha
    rwa [encFieldLength, ← zext64_eq_ofNat] at hstep
  · have hacc := hinv.enc.accumulated .value hp
    rw [hen, cond_true, encTransferred, hi] at hacc
    rw [step_encFieldEnd hr hturn hp rfl hi, ← HashFn.final_fold, ← hacc]
    simp only [encFieldEnd, encValueAdvance, hen, cond_true]
    rfl
  · rw [step_encFieldEnd hr hturn hp rfl hi]
    simp only [encFieldEnd, encValueAdvance, hen, cond_false]

/-- Settles O27: the bytes of the digest image, and completion. -/
theorem encoderChecksumSteps : Obligations.EncoderChecksumSteps := by
  intro s ts rest hr hturn hp
  refine ⟨fun hi ha => ?_, fun hi ha => step_encRaise hr hturn hp rfl hi trivial ha, fun hi => ?_⟩
  · rw [← beByte_eq_ofNat 4]
    exact step_encPushed hr hturn hp rfl hi trivial ha
  · exact step_encFieldEnd hr hturn hp rfl (congrArg BitVec.toNat hi)

/-- A refused pull of the decoder, in any working phase (R212). -/
theorem decTurn_refused {s : State} {p : Phase} {rest : List SourceAnswer} (hp : s.dec.phase = p.code)
    (ht : p.transfers = true) (hi : s.dec.idx.toNat < decFieldLength s.dec p) (ha : s.sourceAnswers = .err :: rest) :
    decTurn s = .next (decRaise .ioFailure p (BitVec.ofNat 64 (decFieldLength s.dec p)) (zext64 s.dec.idx)
      { s with sourceAnswers := rest }) := by
  rw [decTurn_eq_decStep, decStep, hp, Phase.ofCode_code]
  cases p with
  | header | checksum => exact (if_pos hi).trans (by rw [decPull, ha]; rfl)
  | length | key | value => exact (if_pos hi).trans (by rw [decPull, ha, zext64_eq_ofNat]; rfl)
  | _ => cases ht

/-- Settles O34: both units raise `IoFailure` with the phase, its field's length and the index as numbers. -/
theorem streamFailureEndsTheCommand : Obligations.StreamFailureEndsTheCommand := by
  refine ⟨fun s ts rest p hinv hturn hp ht hi ha => ?_, fun s ts rest p hr hturn hp ht hi ha => ?_⟩
  · rw [← zext64_eq_ofNat]
    exact step_encRaise (inv_phasesReachable hinv) hturn hp ht hi (encOperandHeld_of_inv hinv.enc hp hi) ha
  · rw [← zext64_eq_ofNat, step_eq_agentTurn hr hturn]
    exact decTurn_refused (s := { s with turns := ts }) hp ht hi ha

end Sys2Proof.Machine
end

section
/-! Which operations complete, what ISSUE and RETIRE do, and what a rejected encode does. -/

namespace Sys2Proof.Machine

/-! ### Enabled and refused (R274) -/

/-- An operation that is not enabled is refused by the name of its step. -/
theorem exec_refused {i : Instr} {s : State} (he : enabled i s = false) :
    exec i s = .refused .issueNotEnabled ∨ exec i s = .refused .retireNotEnabled ∨
      exec i s = .refused .headerNotReady := by
  have hne : enabled i s ≠ true := Bool.eq_false_iff.mp he
  cases i with
  | frameW1 | frameW1C | frameW2 | frameW2C | frameW3 | frameW3C | frameW4 | frameW4C =>
    exact .inr (.inr (if_neg hne))
  | encodeTagged | encode | decodeTagged | decode => exact .inl (if_pos (by simpa [enabled] using he))
  | encRetire | decRetire => exact .inr (.inl (if_neg hne))
  | hdrPack | hdrUnpack | widthOf | wcEnc | wcDec | lenEmit | lenAssemble => exact absurd rfl hne

/-- Settles O16: the condition of a rule is the guard of the operation. -/
theorem enabledOperationsComplete : Obligations.EnabledOperationsComplete :=
  fun _ _ hw => ⟨exec_completes hw, exec_refused⟩

/-! ### ENC.ISSUE (R160, R161) -/

theorem encLocked_eq_false {s : State} (hp : s.enc.phase = Phase.idle.code) : encLocked s = false := by
  simp [encLocked, hp]

theorem encLocked_eq_true {s : State} (hp : s.enc.phase ≠ Phase.idle.code) : encLocked s = true := by
  simp [encLocked, hp]

theorem encIssue_of_idle {s : State} (hp : s.enc.phase = Phase.idle.code) (op : Bool) (tag : BitVec 4)
    (klen vlen : BitVec 64) : encIssue op tag klen vlen s = .next (encLatch op tag klen vlen s) := by
  rw [encIssue, encLocked_eq_false hp]
  rfl

theorem encIssue_of_busy {s : State} (hp : s.enc.phase ≠ Phase.idle.code) (op : Bool) (tag : BitVec 4)
    (klen vlen : BitVec 64) : encIssue op tag klen vlen s = .refused .issueNotEnabled := by
  rw [encIssue, encLocked_eq_true hp]
  rfl

/-- Both encode commands are the one ISSUE step. -/
theorem exec_encodeCommand (op : Bool) (tag : BitVec 4) (klen vlen : BitVec 64) (s : State) :
    exec (bif op then .encodeTagged tag klen vlen else .encode tag klen vlen) s = encIssue op tag klen vlen s := by
  cases op <;> rfl

theorem enabled_encodeCommand (op : Bool) (tag : BitVec 4) (klen vlen : BitVec 64) (s : State) :
    enabled (bif op then .encodeTagged tag klen vlen else .encode tag klen vlen) s = !encLocked s := by
  cases op <;> rfl

/-- The word of an encode command on its port is decoded to that command (R114). -/
theorem decode_encCmdWord (op : Bool) (tag : BitVec 4) (klen vlen : BitVec 64) :
    decode (.request .encCmd (encCmdWord op tag klen vlen)) =
      .ok (bif op then .encodeTagged tag klen vlen else .encode tag klen vlen) := by
  cases op
  · exact decode_of_encode_eq (i := .encode tag klen vlen) rfl rfl
  · exact decode_of_encode_eq (i := .encodeTagged tag klen vlen) rfl rfl

/-- Settles O18: a served command word executes the command on the state with the request's buffers in place. -/
theorem encodeCommandsIssue : Obligations.EncodeCommandsIssue := by
  obtain ⟨hserved, -, -⟩ := stepRunsTheDecodedOperation
  refine ⟨fun s tag tag' klen vlen => ⟨fun hp => ⟨?_, ?_⟩, fun hp => ⟨?_, ?_⟩, rfl⟩,
    fun s ts n op tag klen vlen kb vb hr ht hn => ?_⟩
  · exact encIssue_of_idle hp true tag klen vlen
  · exact encIssue_of_idle hp false tag klen vlen
  · exact encIssue_of_busy hp true tag klen vlen
  · exact encIssue_of_busy hp false tag klen vlen
  · obtain ⟨hruns, hwaits, -⟩ := hserved s ts n _ hr ht hn
    have hd := decode_encCmdWord op tag klen vlen
    refine ⟨fun hp => ?_, fun hp => ?_⟩
    · have he := (enabled_encodeCommand op tag klen vlen s).trans (congrArg not (encLocked_eq_false hp))
      rw [hruns _ hd he, exec_encodeCommand]
      exact encIssue_of_idle (by exact hp) op tag klen vlen
    · exact hwaits _ hd ((enabled_encodeCommand op tag klen vlen s).trans (congrArg not (encLocked_eq_true hp)))

/-! ### RETIRE (R181, R219) -/

theorem encTerminal_iff {c : BitVec 4} : encTerminal c = true ↔ c = Phase.done.code ∨ c = Phase.error.code := by
  simp [encTerminal]

theorem decTerminal_iff {c : BitVec 4} :
    decTerminal c = true ↔ c = Phase.done.code ∨ c = Phase.error.code ∨ c = Phase.eos.code := by
  simp [decTerminal, or_assoc]

/-- Settles O20: RETIRE is guarded by the terminal phases and by nothing else. -/
theorem retireFreesTheUnit : Obligations.RetireFreesTheUnit :=
  fun _ => ⟨fun h => if_pos (encTerminal_iff.mpr h), fun h => if_neg (h ∘ encTerminal_iff.mp),
    fun h => if_pos (decTerminal_iff.mpr h), fun h => if_neg (h ∘ decTerminal_iff.mp)⟩

/-! ### A rejected encode (R162, R164 to R166) -/

/-- Settles O48: the command latches its lengths, and the `VALIDATE` step raises on them before any push. -/
theorem rejectedEncodeWritesNothing : Obligations.RejectedEncodeWritesNothing := by
  intro s op tag klen vlen f ts hr hp hf
  have hreach : phasesReachable (encLatch op tag klen vlen s) = true :=
    phasesReachable_iff.mpr ⟨rfl, (phasesReachable_iff.mp hr).2⟩
  have hstep := step_encRejected (s := withTurns 1 .enc ts (encLatch op tag klen vlen s)) (ts := ts) hreach rfl rfl hf
  refine ⟨_, _, (exec_encodeCommand op tag klen vlen s).trans (encIssue_of_idle hp op tag klen vlen), hstep,
    ⟨rfl, rfl, rfl, rfl, rfl, rfl⟩, validation_error_inputTooLarge hf, rfl⟩

/-! ### The changes of `ENC.PHASE` (R184) -/

/-- The rows of R184 that are an encoder's turn. -/
theorem encMove_phase {s t : State} (hm : EncMove s t) (hne : t.enc.phase ≠ s.enc.phase) :
    (s.enc.phase = 1 ∧ (511 < s.enc.klen64.toNat ∨ 4294967296 ≤ s.enc.vlen64.toNat) ∧ t.enc.phase = 8) ∨
    (s.enc.phase = 1 ∧ s.enc.klen64.toNat ≤ 511 ∧ s.enc.vlen64.toNat < 4294967296 ∧ t.enc.phase = 2) ∨
    (s.enc.phase = 2 ∧ s.enc.idx.toNat = 2 ∧ t.enc.phase = 3) ∨
    (s.enc.phase = 3 ∧ s.enc.idx.toNat = s.enc.width.toNat ∧ t.enc.phase = 4) ∨
    (s.enc.phase = 4 ∧ s.enc.idx.toNat = s.enc.klen.toNat ∧ t.enc.phase = 5) ∨
    (s.enc.phase = 5 ∧ s.enc.idx.toNat = s.enc.vlen.toNat ∧ s.encHashEn = true ∧ t.enc.phase = 6) ∨
    (s.enc.phase = 5 ∧ s.enc.idx.toNat = s.enc.vlen.toNat ∧ s.encHashEn = false ∧ t.enc.phase = 7) ∨
    (s.enc.phase = 6 ∧ s.enc.idx.toNat = 4 ∧ t.enc.phase = 7) ∨
    (2 ≤ s.enc.phase.toNat ∧ s.enc.phase.toNat ≤ 6 ∧ s.sinkAnswers.head? = some .err ∧ t.enc.phase = 8) := by
  cases hm with
  | rests | waits | pushes => exact absurd rfl hne
  | validates hp =>
    obtain ⟨hk, h⟩ | ⟨-, hv, h⟩ | ⟨-, hv, h⟩ | ⟨hk, hv, w, -, h⟩ := encValidate_cases s <;> rw [h]
    · exact .inl ⟨hp, .inl hk, rfl⟩
    · exact .inl ⟨hp, .inr hv.le, rfl⟩
    · exact .inl ⟨hp, .inr hv.ge, rfl⟩
    · exact .inr (.inl ⟨hp, hk, hv, rfl⟩)
  | fails p rest hp ht hi ha =>
    have hrange : 2 ≤ s.enc.phase.toNat ∧ s.enc.phase.toNat ≤ 6 := by
      rw [hp]
      cases p with
      | header | length | key | value | checksum => decide
      | _ => cases ht
    have hhead : s.sinkAnswers.head? = some .err := by rw [ha]; rfl
    iterate 8 refine .inr ?_
    exact ⟨hrange.1, hrange.2, hhead, rfl⟩
  | advances p q hp hq hi =>
    obtain ⟨rfl, rfl⟩ | ⟨rfl, rfl⟩ | ⟨rfl, rfl⟩ := hq
    · exact .inr (.inr (.inl ⟨hp, hi, rfl⟩))
    · exact .inr (.inr (.inr (.inl ⟨hp, hi, rfl⟩)))
    · exact .inr (.inr (.inr (.inr (.inl ⟨hp, hi, rfl⟩))))
  | valueEnds hp hi =>
    obtain ⟨hen, h⟩ | ⟨hen, h⟩ := encValueAdvance_cases s <;> rw [h]
    · exact .inr (.inr (.inr (.inr (.inr (.inl ⟨hp, hi, hen, rfl⟩)))))
    · exact .inr (.inr (.inr (.inr (.inr (.inr (.inl ⟨hp, hi, hen, rfl⟩))))))
  | completes hp hi => exact .inr (.inr (.inr (.inr (.inr (.inr (.inr (.inl ⟨hp, hi, rfl⟩)))))))

/-- A requester changes `ENC.PHASE` by ISSUE and by RETIRE only. -/
theorem requesterMove_encPhase {n : Nat} {s t : State} (hm : RequesterMove n s t) (hne : t.enc.phase ≠ s.enc.phase) :
    (s.enc.phase = 0 ∧ t.enc.phase = 1) ∨ ((s.enc.phase = 7 ∨ s.enc.phase = 8) ∧ t.enc.phase = 0) := by
  cases hm with
  | absent | waits => exact absurd rfl hne
  | runs r i _ hn hd he hx =>
    cases serve_move hd hx with
    | encIssues op tag klen vlen hport hp => exact .inl ⟨hp, rfl⟩
    | encRetires hport hp => exact .inr ⟨hp, rfl⟩
    | decIssues | decRetires | ports => exact absurd rfl hne

/-- Settles O45: an encoder's turn changes its phase by R184's rows, a decoder's not at all. -/
theorem encoderControlTransfers : Obligations.EncoderControlTransfers := by
  intro s t h hne
  cases step_move h with
  | still => exact absurd rfl hne
  | enc rest _ ht hm => exact .inr (.inr ⟨by rw [ht]; rfl, encMove_phase (s := { s with turns := rest }) hm hne⟩)
  | dec rest _ ht hr hm =>
    obtain ⟨hf, -⟩ := decMove_frame hm
    exact absurd (by rw [hf]) hne
  | header rest _ ht hr hx =>
    obtain ⟨-, w, ck, tag, klen, rfl⟩ := exec_decodeHeader_next (s := { s with turns := rest }) hx
    exact absurd rfl hne
  | requester n rest _ ht hm =>
    exact .inr (.inl ⟨⟨n, by rw [ht]; rfl⟩, requesterMove_encPhase (s := { s with turns := rest }) hm hne⟩)
  | reset rest ht => exact .inl ⟨by rw [ht]; rfl, rfl⟩

end Sys2Proof.Machine
end

section
/-! Runs of one unit's turns, and that the encoder's turns do not read `ENC.OP` (R161). -/

namespace Sys2Proof.Machine

/-! ### Runs of one agent's turns -/

/-- A run of turns of one agent is its turn and then a run of the others. -/
theorem runSteps_withTurns_succ {a : Agent} (ha : TurnsBlind a) {n : Nat} {ts : List Agent} {s u : State} :
    runSteps (n + 1) (withTurns (n + 1) a ts s) = .next u ↔
      phasesReachable s = true ∧ ∃ t, agentTurn a s = .next t ∧ runSteps n (withTurns n a ts t) = .next u := by
  have hfirst : ∀ t, step (withTurns (n + 1) a ts s) = .next t ↔
      phasesReachable s = true ∧ agentTurn a (withTurns n a ts s) = .next t :=
    fun _ => step_next_iff_agentTurn (s := withTurns (n + 1) a ts s) (ts := List.replicate n a ++ ts) rfl
  rw [runSteps_succ_next]
  constructor
  · rintro ⟨t, hs, hr⟩
    obtain ⟨hreach, hturn⟩ := (hfirst t).mp hs
    have hback : withTurns n a ts { t with turns := s.turns } = t := by
      have hts : t.turns = List.replicate n a ++ ts := ha.turns hturn
      simp only [withTurns, ← hts]
    have hturn' : agentTurn a s = .next { t with turns := s.turns } :=
      ha.blind (s := withTurns n a ts s) s.turns hturn
    exact ⟨hreach, _, hturn', by rw [hback]; exact hr⟩
  · rintro ⟨hreach, t, hturn, hr⟩
    exact ⟨_, (hfirst _).mpr ⟨hreach, ha.blind _ hturn⟩, hr⟩

/-- A turn that changes nothing can be taken any number of times. -/
theorem runSteps_of_unchanged {a : Agent} (ha : TurnsBlind a) {s : State} (hr : phasesReachable s = true)
    (hs : agentTurn a s = .next s) (n : Nat) (ts : List Agent) :
    runSteps n (withTurns n a ts s) = .next { s with turns := ts } := by
  induction n with
  | zero => rfl
  | succ n ih => exact (runSteps_withTurns_succ ha).mpr ⟨hr, s, hs, ih⟩

/-- A run of encoder's turns writes the encoder's registers and the sink (R43). -/
theorem runSteps_enc_frame {n : Nat} {ts : List Agent} {s t : State}
    (h : runSteps n (withTurns n .enc ts s) = .next t) :
    t = { s with turns := ts, enc := t.enc, sink := t.sink, sinkAnswers := t.sinkAnswers } := by
  induction n generalizing s with
  | zero => cases h; rfl
  | succ n ih =>
    obtain ⟨-, m, hm, hr⟩ := (runSteps_withTurns_succ enc_turnsBlind).mp h
    obtain ⟨hf, -⟩ := encMove_frame (encTurn_move hm)
    refine (ih hr).trans ?_
    rw [hf]

/-! ### The encoder's turns do not read `ENC.OP` -/

/-- The state with another `ENC.OP`. -/
def withEncOp (op : Bool) (s : State) : State :=
  { s with enc := { s.enc with op := op } }

@[simp] theorem withEncOp_encHashEn (op : Bool) (s : State) : (withEncOp op s).encHashEn = s.encHashEn := rfl

theorem encPush_withEncOp (op : Bool) (ph : Phase) (n : BitVec 64) (acc : Nat) (b : Byte) (s : State) :
    encPush ph n acc b (withEncOp op s) = withEncOp op (encPush ph n acc b s) := by
  cases h : s.sinkAnswers with
  | nil => rw [encPush_unanswered h, encPush_unanswered (s := withEncOp op s) h]
  | cons a rest =>
    cases a with
    | ok => rw [encPush_ok h, encPush_ok (s := withEncOp op s) h]; rfl
    | err => rw [encPush_err h, encPush_err (s := withEncOp op s) h]; rfl

theorem encValidate_withEncOp (op : Bool) (s : State) :
    encValidate (withEncOp op s) = withEncOp op (encValidate s) := by
  cases h : validation s.enc.klen64 s.enc.vlen64 with
  | error f => rw [encValidate_of_rejected h, encValidate_of_rejected (s := withEncOp op s) h]; rfl
  | ok w => rw [encValidate_of_accepted h, encValidate_of_accepted (s := withEncOp op s) h]; rfl

theorem encFieldEnd_withEncOp (op : Bool) (s : State) (p : Phase) :
    encFieldEnd (withEncOp op s) p = withEncOp op (encFieldEnd s p) := by
  cases p with
  | value =>
    simp only [encFieldEnd, encValueAdvance, withEncOp_encHashEn]
    cases s.encHashEn <;> rfl
  | _ => rfl

/-- A turn that has a next state read no byte beyond an operand. -/
theorem encOperandHeld_of_next {s t : State} (h : encTurn s = .next t) {p : Phase} (hp : s.enc.phase = p.code)
    (hi : s.enc.idx.toNat < encFieldLength s.enc p) : encOperandHeld s p := by
  rw [encTurn, hp, Phase.ofCode_code] at h
  cases p with
  | key | value =>
    obtain ⟨-, hb⟩ | ⟨hn, -⟩ := encField_next h
    · by_contra hh
      cases hb.symm.trans (if_neg hh)
    · exact absurd hn hi.ne
  | _ => trivial

/-- The encoder's turn is the same whatever `ENC.OP` holds. -/
theorem encTurn_withEncOp {s t : State} (op : Bool) (h : encTurn s = .next t) :
    encTurn (withEncOp op s) = .next (withEncOp op t) := by
  have hbyte : ∀ p : Phase, s.enc.phase = p.code → p.transfers = true → s.enc.idx.toNat < encFieldLength s.enc p →
      encTurn (withEncOp op s) = .next (withEncOp op t) := by
    intro p hp ht hi
    have hb := encOperandHeld_of_next h hp hi
    have hb' : encOperandHeld (withEncOp op s) p := by cases p <;> exact hb
    rw [encTurn_byteStep hp ht hi hb] at h
    cases h
    rw [← encPush_withEncOp, encTurn_byteStep (s := withEncOp op s) hp ht (by cases p <;> exact hi) hb']
    cases p <;> rfl
  have hend : ∀ p : Phase, s.enc.phase = p.code → p.transfers = true → s.enc.idx.toNat = encFieldLength s.enc p →
      encTurn (withEncOp op s) = .next (withEncOp op t) := by
    intro p hp ht hi
    rw [encTurn_fieldEnd hp ht hi] at h
    cases h
    rw [← encFieldEnd_withEncOp]
    exact encTurn_fieldEnd (s := withEncOp op s) hp ht (by cases p <;> exact hi)
  cases encTurn_move h with
  | rests p hp hr =>
    refine encTurn_of_resting (s := withEncOp op s) ?_
    obtain rfl | rfl | rfl := hr
    · exact .inl hp
    · exact .inr (.inl hp)
    · exact .inr (.inr hp)
  | validates hp => rw [← encValidate_withEncOp]; exact encTurn_validate (s := withEncOp op s) hp
  | waits p hp ht hi | pushes p _ hp ht hi | fails p _ hp ht hi => exact hbyte p hp ht hi
  | advances p q hp hq hi =>
    refine hend p hp ?_ hi
    obtain ⟨rfl, -⟩ | ⟨rfl, -⟩ | ⟨rfl, -⟩ := hq <;> rfl
  | valueEnds hp hi => exact hend .value hp rfl hi
  | completes hp hi => exact hend .checksum hp rfl hi

/-- So is a run of them. -/
theorem runSteps_withEncOp (op : Bool) {n : Nat} {ts : List Agent} {s t : State}
    (h : runSteps n (withTurns n .enc ts s) = .next t) :
    runSteps n (withTurns n .enc ts (withEncOp op s)) = .next (withEncOp op t) := by
  induction n generalizing s with
  | zero => cases h; rfl
  | succ n ih =>
    obtain ⟨hreach, m, hm, hr⟩ := (runSteps_withTurns_succ enc_turnsBlind).mp h
    exact (runSteps_withTurns_succ enc_turnsBlind).mpr ⟨hreach, _, encTurn_withEncOp op hm, ih hr⟩

/-- Settles O54: with tag 0 the two commands latch the same registers but for `ENC.OP`. -/
theorem encodeIsTaggedWithZero : Obligations.EncodeIsTaggedWithZero := by
  rintro s t tag klen vlen ts n hp ⟨u, hu, hrun⟩
  obtain ⟨-, rfl⟩ := encIssue_next hu
  exact ⟨_, encIssue_of_idle hp false tag klen vlen, runSteps_withEncOp false hrun⟩

end Sys2Proof.Machine
end

section
/-! The pushing of a frame against the sink's answers (R162, R182): its outcome is decided by the first answer that is not `Ok`. -/

namespace Sys2Proof.Machine

/-! ### Lists of bytes with their failures -/

/-- Every byte accepted. -/
theorem pushBytes_accepted (items : List (Byte × Failure)) (rest : List SinkAnswer) :
    pushBytes items (List.replicate items.length .ok ++ rest) = .all (items.map Prod.fst) rest := by
  induction items with
  | nil => cases rest <;> rfl
  | cons x items ih =>
    rw [List.length_cons, List.replicate_succ, List.cons_append, pushBytes, ih]
    rfl

/-- Byte `j` refused: the bytes before it stay, and it reports its own failure. -/
theorem pushBytes_refused {items : List (Byte × Failure)} {j : Nat} {x : Byte × Failure} (hx : items[j]? = some x)
    (rest : List SinkAnswer) :
    pushBytes items (List.replicate j .ok ++ .err :: rest) = .failed ((items.map Prod.fst).take j) x.2 rest := by
  induction items generalizing j with
  | nil => cases hx
  | cons y items ih =>
    cases j with
    | zero =>
      cases hx
      rfl
    | succ j =>
      rw [List.replicate_succ, List.cons_append, pushBytes, ih hx]
      rfl

/-! ### What each byte of a frame reports -/

theorem fieldFailures_length (p : Phase) (n : Nat) : (fieldFailures p n).length = n := by
  simp [fieldFailures]

theorem fieldFailures_getElem? {p : Phase} {n i : Nat} (hi : i < n) :
    (fieldFailures p n)[i]? = some ⟨.ioFailure, p, BitVec.ofNat 64 n, BitVec.ofNat 64 i⟩ := by
  simp [fieldFailures, hi]

theorem fieldFailures_append_within {p : Phase} {n i : Nat} (hi : i < n) (more : List Failure) :
    (fieldFailures p n ++ more)[i]? = some ⟨.ioFailure, p, BitVec.ofNat 64 n, BitVec.ofNat 64 i⟩ := by
  rw [List.getElem?_append_left (by rwa [fieldFailures_length]), fieldFailures_getElem? hi]

theorem fieldFailures_append_beyond {p : Phase} {n i : Nat} (hi : n ≤ i) (more : List Failure) :
    (fieldFailures p n ++ more)[i]? = more[i - n]? := by
  rw [List.getElem?_append_right (by rwa [fieldFailures_length]), fieldFailures_length]

/-- A frame's failures, field by field in the order of the wire. -/
theorem frameFailures_eq_parts (hashEn : Bool) (w : Width) (k v : Nat) :
    frameFailures hashEn w k v =
      fieldFailures .header 2 ++ (fieldFailures .length w.toNat ++ (fieldFailures .key k ++ (fieldFailures .value v ++
        fieldFailures .checksum (4 * hashEn.toNat)))) := by
  cases hashEn <;> simp [frameFailures, fieldFailures]

theorem frameLength_eq (hashEn : Bool) (w : Width) (k v : Nat) :
    frameLength hashEn w k v = 2 + w.toNat + k + v + 4 * hashEn.toNat := by
  cases hashEn <;> rfl

theorem frameFailures_length (hashEn : Bool) (w : Width) (k v : Nat) :
    (frameFailures hashEn w k v).length = frameLength hashEn w k v := by
  simp only [frameFailures_eq_parts, frameLength_eq, List.length_append, fieldFailures_length]
  omega

theorem fieldFailures_status {p : Phase} {n : Nat} {f : Failure} (hf : f ∈ fieldFailures p n) : f.status = .ioFailure := by
  obtain ⟨i, -, rfl⟩ := List.mem_map.mp hf
  rfl

theorem frameFailures_status {hashEn : Bool} {w : Width} {k v : Nat} {f : Failure}
    (hf : f ∈ frameFailures hashEn w k v) : f.status = .ioFailure := by
  simp only [frameFailures_eq_parts, List.mem_append] at hf
  obtain hf | hf | hf | hf | hf := hf <;> exact fieldFailures_status hf

/-- The failure of byte `j` names the field that owns byte `j` and the byte's place in it (R179). -/
theorem frameFailures_owner {hashEn : Bool} {w : Width} {k v j : Nat} {f : Failure}
    (hf : (frameFailures hashEn w k v)[j]? = some f) :
    (j < 2 → f = ⟨.ioFailure, .header, 2, BitVec.ofNat 64 j⟩) ∧
    (2 ≤ j → j < 2 + w.toNat → f = ⟨.ioFailure, .length, BitVec.ofNat 64 w.toNat, BitVec.ofNat 64 (j - 2)⟩) ∧
    (2 + w.toNat ≤ j → j < 2 + w.toNat + k →
      f = ⟨.ioFailure, .key, BitVec.ofNat 64 k, BitVec.ofNat 64 (j - (2 + w.toNat))⟩) ∧
    (2 + w.toNat + k ≤ j → j < 2 + w.toNat + k + v →
      f = ⟨.ioFailure, .value, BitVec.ofNat 64 v, BitVec.ofNat 64 (j - (2 + w.toNat + k))⟩) ∧
    (2 + w.toNat + k + v ≤ j → f = ⟨.ioFailure, .checksum, 4, BitVec.ofNat 64 (j - (2 + w.toNat + k + v))⟩) := by
  obtain ⟨hj, -⟩ := List.getElem?_eq_some_iff.mp hf
  rw [frameFailures_length, frameLength_eq] at hj
  rw [frameFailures_eq_parts] at hf
  refine ⟨fun h => ?_, fun h h' => ?_, fun h h' => ?_, fun h h' => ?_, fun h => ?_⟩
  · rw [fieldFailures_append_within h] at hf
    exact (Option.some.inj hf).symm
  · rw [fieldFailures_append_beyond h, fieldFailures_append_within (by omega)] at hf
    exact (Option.some.inj hf).symm
  · rw [fieldFailures_append_beyond (by omega), fieldFailures_append_beyond (by omega),
      fieldFailures_append_within (by omega), Nat.sub_sub] at hf
    exact (Option.some.inj hf).symm
  · rw [fieldFailures_append_beyond (by omega), fieldFailures_append_beyond (by omega),
      fieldFailures_append_beyond (by omega), fieldFailures_append_within (by omega), Nat.sub_sub, Nat.sub_sub,
      ← Nat.add_assoc] at hf
    exact (Option.some.inj hf).symm
  · cases hashEn with
    | false => exact absurd hj (not_lt.mpr h)
    | true =>
      replace hj : j < 2 + w.toNat + k + v + 4 := hj
      rw [fieldFailures_append_beyond (by omega), fieldFailures_append_beyond (by omega),
        fieldFailures_append_beyond (by omega), fieldFailures_append_beyond (by omega), Nat.sub_sub, Nat.sub_sub,
        Nat.sub_sub, ← Nat.add_assoc, ← Nat.add_assoc, fieldFailures_getElem? (by simp only [Bool.toNat_true]; omega)] at hf
      exact (Option.some.inj hf).symm

/-! ### The frame -/

theorem frameOf_length_eq_failures (hashEn : Bool) (h : HashFn) (tag : BitVec 4) (w : Width) (key value : List Byte) :
    (frameOf hashEn h tag w key value).length = (frameFailures hashEn w key.length value.length).length := by
  rw [frameOf_length, frameFailures_length, frameLength_eq]

/-- Settles O50: a frame's bytes and their failures are as many, so each byte is pushed with its own. -/
theorem pushFrameOutcomes : Obligations.PushFrameOutcomes := by
  intro hashEn h tag w key value rest
  have hlen := frameOf_length_eq_failures hashEn h tag w key value
  have hbytes : ((frameOf hashEn h tag w key value).zip (frameFailures hashEn w key.length value.length)).map Prod.fst =
      frameOf hashEn h tag w key value := List.map_fst_zip hlen.le
  refine ⟨?_, fun j hj => ?_⟩
  · have hall := pushBytes_accepted
      ((frameOf hashEn h tag w key value).zip (frameFailures hashEn w key.length value.length)) rest
    rwa [hbytes, List.length_zip, hlen, Nat.min_self, frameFailures_length] at hall
  · rw [← frameFailures_length] at hj
    have hf := List.getElem?_eq_getElem hj
    have hb := List.getElem?_eq_getElem (hlen ▸ hj)
    have hx := List.getElem?_zip_eq_some (z := (_, _)).mpr ⟨hb, hf⟩
    exact ⟨_, (pushBytes_refused hx rest).trans (by rw [hbytes]), frameFailures_status (List.getElem_mem hj),
      frameFailures_owner hf⟩

end Sys2Proof.Machine
end

section
/-! An accepted encode, whole: the encoder's turns push its frame as the command's description does (R162, R182, R183). The
description is a list of bytes with their failures; `EncWork` says what of that list a working encoder has still to push. -/

namespace Sys2Proof.Machine

/-! ### The fields of the frame being encoded -/

/-- The bytes of a field of the frame that the encoder's working registers and operands stand for. -/
def encFieldBytes (s : State) : Phase → List Byte
  | .header => headerBytes s.enc.hdr
  | .length => beImage s.enc.width.toNat s.enc.vlen
  | .key => memBytes s.kbuf s.enc.klen.toNat
  | .value => memBytes s.vbuf s.enc.vlen.toNat
  | .checksum => digestBytes (s.encHash.dig (memBytes s.kbuf s.enc.klen.toNat ++ memBytes s.vbuf s.enc.vlen.toNat))
  | _ => []

/-- The bytes of a field, each with what it reports if it is refused. -/
def encFieldItems (s : State) (p : Phase) : List (Byte × Failure) :=
  (encFieldBytes s p).zip (fieldFailures p (encFieldLength s.enc p))

/-- The fields that follow a field, a trailer only where the encoder has a hash (R174). -/
def encLaterFields (hashEn : Bool) : Phase → List Phase
  | .header => .length :: .key :: .value :: bif hashEn then [.checksum] else []
  | .length => .key :: .value :: bif hashEn then [.checksum] else []
  | .key => .value :: bif hashEn then [.checksum] else []
  | .value => bif hashEn then [.checksum] else []
  | _ => []

theorem encFieldBytes_length (s : State) (p : Phase) : (encFieldBytes s p).length = encFieldLength s.enc p := by
  cases p with
  | length => exact beImage_length _ _
  | key => exact memBytes_length _ _
  | value => exact memBytes_length _ _
  | _ => rfl

theorem encFieldItems_length (s : State) (p : Phase) : (encFieldItems s p).length = encFieldLength s.enc p := by
  rw [encFieldItems, List.length_zip, encFieldBytes_length, fieldFailures_length, Nat.min_self]

theorem headerBytes_getElem? (h : BitVec 16) {i : Nat} (hi : i < 2) : (headerBytes h)[i]? = some (headerByte h i) := by
  obtain rfl | rfl : i = 0 ∨ i = 1 := by omega
  · rfl
  · rfl

/-- The byte pushed next is the byte of the field at `IDX`; in `CHECKSUM` because the digest latched is the frame's. -/
theorem encFieldBytes_getElem? {s : State} (h : EncInv s) {p : Phase} (hp : s.enc.phase = p.code)
    (hi : s.enc.idx.toNat < encFieldLength s.enc p) :
    (encFieldBytes s p)[s.enc.idx.toNat]? = some (encNextByte s p) := by
  cases p with
  | header => exact headerBytes_getElem? _ hi
  | length => exact beImage_getElem? _ hi
  | key => exact memBytes_getElem? _ hi
  | value => exact memBytes_getElem? _ hi
  | checksum =>
    obtain ⟨-, hd⟩ := h.digest hp
    rw [encFieldBytes, encNextByte, hd]
    exact beImage_getElem? (n := 4) _ hi
  | _ => cases hi

/-- The byte pushed next with what it reports if it is refused. -/
def encNextItem (s : State) (p : Phase) : Byte × Failure :=
  (encNextByte s p, ⟨.ioFailure, p, BitVec.ofNat 64 (encFieldLength s.enc p), BitVec.ofNat 64 s.enc.idx.toNat⟩)

/-- What is left of a field below its end begins with the byte pushed next. -/
theorem encFieldItems_drop {s : State} (h : EncInv s) {p : Phase} (hp : s.enc.phase = p.code)
    (hi : s.enc.idx.toNat < encFieldLength s.enc p) :
    (encFieldItems s p).drop s.enc.idx.toNat = encNextItem s p :: (encFieldItems s p).drop (s.enc.idx.toNat + 1) := by
  have hitem : (encFieldItems s p)[s.enc.idx.toNat]? = some (encNextItem s p) :=
    List.getElem?_zip_eq_some.mpr ⟨encFieldBytes_getElem? h hp hi, fieldFailures_getElem? hi⟩
  obtain ⟨hlt, hget⟩ := List.getElem?_eq_some_iff.mp hitem
  rw [List.drop_eq_getElem_cons hlt, hget]

/-- The fields depend on the latched registers, the operands and the hash function. -/
theorem encFieldItems_congr {s t : State} (hh : t.enc.hdr = s.enc.hdr) (hw : t.enc.width = s.enc.width)
    (hkl : t.enc.klen = s.enc.klen) (hvl : t.enc.vlen = s.enc.vlen) (hk : t.kbuf = s.kbuf) (hv : t.vbuf = s.vbuf)
    (hf : t.encHash = s.encHash) : encFieldItems t = encFieldItems s := by
  funext p
  cases p <;> simp only [encFieldItems, encFieldBytes, encFieldLength, hh, hw, hkl, hvl, hk, hv, hf]

/-- A field with another after it ends by advancing to that one; only the digest is latched on the way. -/
theorem encFieldEnd_advances {s : State} {p q : Phase} {qs : List Phase} (h : encLaterFields s.encHashEn p = q :: qs) :
    (∃ d, encFieldEnd s p = encAdvance q { s with enc := { s.enc with dig := d } }) ∧ q.transfers = true ∧
      encLaterFields s.encHashEn q = qs := by
  cases p with
  | header | length | key => cases h; exact ⟨⟨s.enc.dig, rfl⟩, rfl, rfl⟩
  | value =>
    obtain ⟨hen, hend⟩ | ⟨hen, -⟩ := encValueAdvance_cases s <;> rw [hen] at h <;> cases h
    exact ⟨⟨_, hend⟩, rfl, rfl⟩
  | _ => cases h

/-- The last field ends by completing the command. -/
theorem encFieldEnd_completes {s : State} {p : Phase} (ht : p.transfers = true) (h : encLaterFields s.encHashEn p = []) :
    encFieldEnd s p = encComplete s := by
  cases p with
  | value =>
    obtain ⟨hen, -⟩ | ⟨-, hend⟩ := encValueAdvance_cases s
    · rw [hen] at h
      cases h
    · exact hend
  | checksum => rfl
  | header | length | key => cases h
  | _ => cases ht

/-! ### The work left to an encoder -/

/-- The encoder works on a frame and has `left` of its present field still to push, and then the fields `later`. -/
structure EncWork (s : State) (left : List (Byte × Failure)) (later : List (List (Byte × Failure))) : Prop where
  inv : Inv s
  field : ∃ p : Phase, s.enc.phase = p.code ∧ p.transfers = true ∧
    left = (encFieldItems s p).drop s.enc.idx.toNat ∧ later = (encLaterFields s.encHashEn p).map (encFieldItems s)

section

variable {s : State} {left : List (Byte × Failure)} {later : List (List (Byte × Failure))}

/-- Work left in the present field is a byte to push, with the index, the field and the operand in place. -/
theorem EncWork.byte {x : Byte × Failure} (h : EncWork s (x :: left) later) :
    ∃ p : Phase, s.enc.phase = p.code ∧ p.transfers = true ∧ s.enc.idx.toNat < encFieldLength s.enc p ∧
      x = encNextItem s p ∧ left = (encFieldItems s p).drop (s.enc.idx.toNat + 1) ∧
      later = (encLaterFields s.encHashEn p).map (encFieldItems s) ∧
      encTurn s =
        .next (encPush p (BitVec.ofNat 64 (encFieldLength s.enc p)) (encNextAcc s p) (encNextByte s p) s) := by
  obtain ⟨p, hp, ht, hleft, hlater⟩ := h.field
  have hi : s.enc.idx.toNat < encFieldLength s.enc p := by
    rw [← encFieldItems_length]
    refine lt_of_not_ge fun hge => ?_
    rw [List.drop_eq_nil_iff.mpr hge] at hleft
    cases hleft
  rw [encFieldItems_drop h.inv.enc hp hi] at hleft
  obtain ⟨hx, hrest⟩ := List.cons.inj hleft
  exact ⟨p, hp, ht, hi, hx, hrest, hlater, encTurn_byteStep hp ht hi (encOperandHeld_of_inv h.inv.enc hp hi)⟩

/-- No work left in the present field is the end of the field. -/
theorem EncWork.fieldEnd (h : EncWork s [] later) :
    ∃ p : Phase, p.transfers = true ∧ later = (encLaterFields s.encHashEn p).map (encFieldItems s) ∧
      encTurn s = .next (encFieldEnd s p) := by
  obtain ⟨p, hp, ht, hleft, hlater⟩ := h.field
  have hterm : p.terminal = false := by
    cases p with
    | done | error | eos => cases ht
    | _ => rfl
  have hle : s.enc.idx.toNat ≤ encFieldLength s.enc p := h.inv.enc.idx p hp hterm
  have hge : encFieldLength s.enc p ≤ s.enc.idx.toNat := by
    rw [← encFieldItems_length]
    exact List.drop_eq_nil_iff.mp hleft.symm
  exact ⟨p, ht, hlater, encTurn_fieldEnd hp ht (le_antisymm hle hge)⟩

/-! ### One turn of a working encoder -/

theorem EncWork.waits {x : Byte × Failure} (h : EncWork s (x :: left) later) (ha : s.sinkAnswers = []) :
    encTurn s = .next s ∧ encWaiting s := by
  obtain ⟨p, hp, ht, -, -, -, -, hturn⟩ := h.byte
  rw [encPush_unanswered ha] at hturn
  exact ⟨hturn, ⟨p, ht, hp⟩, ha⟩

theorem EncWork.pushes {x : Byte × Failure} {rest : List SinkAnswer} (h : EncWork s (x :: left) later)
    (ha : s.sinkAnswers = .ok :: rest) :
    ∃ t, encTurn s = .next t ∧ EncWork t left later ∧ t.sink = s.sink ++ [x.1] ∧ t.sinkAnswers = rest := by
  obtain ⟨p, hp, ht, hi, rfl, rfl, rfl, hturn⟩ := h.byte
  rw [encPush_ok ha] at hturn
  have hsame : encFieldItems (encPushed (encNextAcc s p) (encNextByte s p) rest s) = encFieldItems s :=
    encFieldItems_congr rfl rfl rfl rfl rfl rfl rfl
  refine ⟨_, hturn, ⟨encMove_keeps_inv h.inv (encTurn_move hturn), p, hp, ht, ?_, ?_⟩, rfl, rfl⟩
  · rw [hsame, encPushed_enc_idx, idx_succ_toNat hi (encFieldLength_lt s.enc p)]
  · rw [hsame]
    rfl

theorem EncWork.fails {x : Byte × Failure} {rest : List SinkAnswer} (h : EncWork s (x :: left) later)
    (ha : s.sinkAnswers = .err :: rest) :
    ∃ t, encTurn s = .next t ∧ encFailedWith x.2 t ∧ t.sink = s.sink ∧ t.sinkAnswers = rest := by
  obtain ⟨p, -, -, -, rfl, -, -, hturn⟩ := h.byte
  rw [encPush_err ha, zext64_eq_ofNat] at hturn
  exact ⟨_, hturn, ⟨rfl, rfl, rfl, rfl, rfl, rfl⟩, rfl, rfl⟩

theorem EncWork.advances {next : List (Byte × Failure)} (h : EncWork s [] (next :: later)) :
    ∃ t, encTurn s = .next t ∧ EncWork t next later ∧ t.sink = s.sink ∧ t.sinkAnswers = s.sinkAnswers := by
  obtain ⟨p, -, hlater, hturn⟩ := h.fieldEnd
  obtain ⟨q, qs, hfields, rfl, rfl⟩ := List.map_eq_cons_iff.mp hlater.symm
  obtain ⟨⟨d, hend⟩, htq, hqs⟩ := encFieldEnd_advances hfields
  rw [hend] at hturn
  have hsame : encFieldItems (encAdvance q { s with enc := { s.enc with dig := d } }) = encFieldItems s :=
    encFieldItems_congr rfl rfl rfl rfl rfl rfl rfl
  refine ⟨_, hturn, ⟨encMove_keeps_inv h.inv (encTurn_move hturn), q, rfl, htq, ?_, ?_⟩, rfl, rfl⟩
  · rw [hsame]
    rfl
  · rw [hsame, ← hqs]
    rfl

theorem EncWork.completes (h : EncWork s [] []) :
    ∃ t, encTurn s = .next t ∧ encSucceeded t ∧ t.sink = s.sink ∧ t.sinkAnswers = s.sinkAnswers := by
  obtain ⟨p, ht, hlater, hturn⟩ := h.fieldEnd
  rw [encFieldEnd_completes ht (List.map_eq_nil_iff.mp hlater.symm)] at hturn
  exact ⟨_, hturn, ⟨rfl, rfl, rfl, rfl, rfl, rfl⟩, rfl, rfl⟩

end

end Sys2Proof.Machine
end

section
/-! What becomes of that work: the runs of an accepted command, where it ends and when. -/

namespace Sys2Proof.Machine

/-! ### Runs of a working encoder -/

/-- The turns that the work takes where every push is accepted: one for each byte and one for each end of a field (R183). -/
def turnsLeft (left : List (Byte × Failure)) (later : List (List (Byte × Failure))) : Nat :=
  left.length + 1 + (later.map (·.length + 1)).sum

theorem turnsLeft_cons (x : Byte × Failure) (left : List (Byte × Failure)) (later : List (List (Byte × Failure))) :
    turnsLeft (x :: left) later = turnsLeft left later + 1 := by
  simp only [turnsLeft, List.length_cons, Nat.add_right_comm]

theorem turnsLeft_nil_cons (next : List (Byte × Failure)) (later : List (List (Byte × Failure))) :
    turnsLeft [] (next :: later) = turnsLeft next later + 1 := by
  simp only [turnsLeft, List.length_nil, List.map_cons, List.sum_cons]
  omega

/-- All bytes left to push. -/
def itemsLeft (left : List (Byte × Failure)) (later : List (List (Byte × Failure))) : List (Byte × Failure) :=
  left ++ later.flatten

/-- The encoder has ended as the description's outcome says, starting from the sink log `sink`. -/
def EncodeEnds (sink : List Byte) (t : State) : PushOutcome → Prop
  | .all pushed rest => encSucceeded t ∧ t.sink = sink ++ pushed ∧ t.sinkAnswers = rest
  | .failed pushed f rest => encFailedWith f t ∧ t.sink = sink ++ pushed ∧ t.sinkAnswers = rest
  | .waiting pushed => encWaiting t ∧ t.sink = sink ++ pushed

/-- A byte accepted before the rest ends as it does. -/
theorem EncodeEnds.cons {sink : List Byte} {b : Byte} {t : State} {o : PushOutcome} (h : EncodeEnds (sink ++ [b]) t o) :
    EncodeEnds sink t (o.cons b) := by
  cases o <;> simpa [EncodeEnds, PushOutcome.cons] using h

/-- Once the encoder rests, the turns that are left change nothing. -/
theorem runSteps_of_resting {t : State} (hr : phasesReachable t = true)
    (h : t.enc.phase = Phase.done.code ∨ t.enc.phase = Phase.error.code) (n : Nat) (ts : List Agent) :
    runSteps n (withTurns n .enc ts t) = .next { t with turns := ts } :=
  runSteps_of_unchanged enc_turnsBlind hr (encTurn_of_resting (.inr h)) n ts

/-- The encoder's turn and a run from where it leads. -/
theorem runSteps_of_encTurn {n : Nat} {ts : List Agent} {s m t : State} (hr : phasesReachable s = true)
    (hturn : encTurn s = .next m) (hrun : runSteps n (withTurns n .enc ts m) = .next t) :
    runSteps (n + 1) (withTurns (n + 1) .enc ts s) = .next t :=
  (runSteps_withTurns_succ enc_turnsBlind).mpr ⟨hr, m, hturn, hrun⟩

/-- A working encoder that is given a turn for each byte and each end of a field ends as the description says. -/
theorem EncWork.ends {n : Nat} {s : State} {left : List (Byte × Failure)} {later : List (List (Byte × Failure))}
    (h : EncWork s left later) (hn : turnsLeft left later ≤ n) (ts : List Agent) :
    ∃ t, runSteps n (withTurns n .enc ts s) = .next t ∧
      EncodeEnds s.sink t (pushBytes (itemsLeft left later) s.sinkAnswers) := by
  have hreach := inv_phasesReachable h.inv
  induction n generalizing s left later with
  | zero => simp [turnsLeft] at hn
  | succ n ih =>
    cases left with
    | cons x left =>
      cases hans : s.sinkAnswers with
      | nil =>
        obtain ⟨hturn, hwait⟩ := h.waits hans
        exact ⟨_, runSteps_of_unchanged enc_turnsBlind hreach hturn (n + 1) ts, hwait, (List.append_nil _).symm⟩
      | cons a rest =>
        cases a with
        | ok =>
          obtain ⟨m, hturn, hwork, hsink, hrest⟩ := h.pushes hans
          rw [turnsLeft_cons] at hn
          obtain ⟨t, hrun, hends⟩ := ih hwork (Nat.le_of_succ_le_succ hn) (inv_phasesReachable hwork.inv)
          rw [hsink, hrest] at hends
          exact ⟨t, runSteps_of_encTurn hreach hturn hrun, hends.cons⟩
        | err =>
          obtain ⟨m, hturn, hfail, hsink, hrest⟩ := h.fails hans
          have hm := enc_turnsBlind.reachable hturn hreach
          exact ⟨_, runSteps_of_encTurn hreach hturn (runSteps_of_resting hm (.inr hfail.1) n ts), hfail,
            hsink.trans (List.append_nil _).symm, hrest⟩
    | nil =>
      cases later with
      | cons next later =>
        obtain ⟨m, hturn, hwork, hsink, hrest⟩ := h.advances
        rw [turnsLeft_nil_cons] at hn
        obtain ⟨t, hrun, hends⟩ := ih hwork (Nat.le_of_succ_le_succ hn) (inv_phasesReachable hwork.inv)
        rw [hsink, hrest] at hends
        exact ⟨t, runSteps_of_encTurn hreach hturn hrun, hends⟩
      | nil =>
        obtain ⟨m, hturn, hdone, hsink, hrest⟩ := h.completes
        have hm := enc_turnsBlind.reachable hturn hreach
        refine ⟨_, runSteps_of_encTurn hreach hturn (runSteps_of_resting hm (.inl hdone.1) n ts), ?_⟩
        have hall : pushBytes (itemsLeft [] []) s.sinkAnswers = .all [] s.sinkAnswers := by
          cases s.sinkAnswers <;> rfl
        rw [hall]
        exact ⟨hdone, hsink.trans (List.append_nil _).symm, hrest⟩

theorem EncWork.not_terminal {s : State} {left : List (Byte × Failure)} {later : List (List (Byte × Failure))}
    (h : EncWork s left later) : encTerminal s.enc.phase = false := by
  obtain ⟨p, hp, ht, -, -⟩ := h.field
  rw [hp]
  cases p with
  | done | error => cases ht
  | _ => rfl

/-- Where every push is accepted the work takes a turn for each byte and each end of a field, and no fewer. -/
theorem EncWork.terminal_iff {n : Nat} {s : State} {left : List (Byte × Failure)}
    {later : List (List (Byte × Failure))} {rest : List SinkAnswer} (h : EncWork s left later)
    (ha : s.sinkAnswers = List.replicate (itemsLeft left later).length .ok ++ rest) (ts : List Agent) :
    ∃ t, runSteps n (withTurns n .enc ts s) = .next t ∧
      (encTerminal t.enc.phase = true ↔ turnsLeft left later ≤ n) := by
  have hreach := inv_phasesReachable h.inv
  induction n generalizing s left later with
  | zero => exact ⟨{ s with turns := ts }, rfl, by simp [h.not_terminal, turnsLeft]⟩
  | succ n ih =>
    cases left with
    | cons x left =>
      obtain ⟨m, hturn, hwork, -, hrest⟩ := h.pushes ha
      obtain ⟨t, hrun, hiff⟩ := ih hwork hrest (inv_phasesReachable hwork.inv)
      exact ⟨t, runSteps_of_encTurn hreach hturn hrun, by rw [hiff, turnsLeft_cons, Nat.add_le_add_iff_right]⟩
    | nil =>
      cases later with
      | cons next later =>
        obtain ⟨m, hturn, hwork, -, hrest⟩ := h.advances
        obtain ⟨t, hrun, hiff⟩ := ih hwork (hrest.trans ha) (inv_phasesReachable hwork.inv)
        exact ⟨t, runSteps_of_encTurn hreach hturn hrun, by rw [hiff, turnsLeft_nil_cons, Nat.add_le_add_iff_right]⟩
      | nil =>
        obtain ⟨m, hturn, hdone, -, -⟩ := h.completes
        have hm := enc_turnsBlind.reachable hturn hreach
        have hterm : encTerminal m.enc.phase = true := encTerminal_iff.mpr (.inl hdone.1)
        exact ⟨_, runSteps_of_encTurn hreach hturn (runSteps_of_resting hm (.inl hdone.1) n ts), by simp [hterm, turnsLeft]⟩

/-! ### The work of an accepted command -/

/-- The items of some fields are their bytes, each with its own failure. -/
theorem encFieldItems_flatten (s : State) (ps : List Phase) :
    (ps.map (encFieldItems s)).flatten =
      (ps.flatMap (encFieldBytes s)).zip (ps.flatMap fun p => fieldFailures p (encFieldLength s.enc p)) := by
  induction ps with
  | nil => rfl
  | cons p ps ih =>
    rw [List.map_cons, List.flatten_cons, ih, encFieldItems, List.flatMap_cons, List.flatMap_cons,
      List.zip_append (by rw [encFieldBytes_length, fieldFailures_length])]

/-- ENC.ISSUE in `IDLE` keeps the invariant. -/
theorem encLatch_keeps_inv {s : State} (h : Inv s) (hp : s.enc.phase = Phase.idle.code) (op : Bool) (tag : BitVec 4)
    (klen vlen : BitVec 64) : Inv (encLatch op tag klen vlen s) :=
  ⟨encLatch_inv (encInv_acc_eq_init h.enc hp rfl) op tag klen vlen, decInv_congr h.dec rfl rfl rfl rfl rfl, h.buffers⟩

/-- The lengths that `VALIDATE` accepts lose nothing when they are latched (R166). -/
theorem accepted_lengths {klen vlen : BitVec 64} {w : Width} (h : validation klen vlen = .ok w) :
    (klen.setWidth 9).toNat = klen.toNat ∧ (vlen.setWidth 32).toNat = vlen.toNat := by
  obtain ⟨hk, hw⟩ := validation_eq_ok_iff.mp h
  have hv : ¬ 2 ^ 32 ≤ vlen.toNat := fun hle => by rw [widthOf_eq_none_iff.mpr hle] at hw; cases hw
  rw [BitVec.toNat_setWidth, BitVec.toNat_setWidth]
  exact ⟨Nat.mod_eq_of_lt (by omega), Nat.mod_eq_of_lt (by omega)⟩

/-- The fields of an accepted command's frame, in the order of the wire, are the frame of its record. -/
theorem frameOf_accepted {s : State} {w : Width} (hv : validation s.enc.klen64 s.enc.vlen64 = .ok w) :
    frameOf s.encHashEn s.encHash s.enc.tag w (memBytes s.kbuf s.enc.klen64.toNat) (memBytes s.vbuf s.enc.vlen64.toNat) =
      (.header :: encLaterFields s.encHashEn .header).flatMap (encFieldBytes (encAccepted w s)) := by
  obtain ⟨hk, hl⟩ := accepted_lengths hv
  have hk9 : BitVec.ofNat 9 s.enc.klen64.toNat = s.enc.klen64.setWidth 9 := by
    rw [← hk, BitVec.ofNat_toNat, BitVec.setWidth_eq]
  have hl32 : BitVec.ofNat 32 s.enc.vlen64.toNat = s.enc.vlen64.setWidth 32 := by
    rw [← hl, BitVec.ofNat_toNat, BitVec.setWidth_eq]
  rw [frameOf_eq_parts]
  cases hen : s.encHashEn <;>
    simp [encLaterFields, encFieldBytes, frameTrailer, lenEmit_eq_beImage, hk, hl, hk9, hl32, hen]

/-- So are their failures. -/
theorem frameFailures_accepted {s : State} {w : Width} (hv : validation s.enc.klen64 s.enc.vlen64 = .ok w) :
    frameFailures s.encHashEn w s.enc.klen64.toNat s.enc.vlen64.toNat =
      (.header :: encLaterFields s.encHashEn .header).flatMap
        (fun p => fieldFailures p (encFieldLength (encAccepted w s).enc p)) := by
  obtain ⟨hk, hl⟩ := accepted_lengths hv
  rw [frameFailures_eq_parts]
  cases s.encHashEn <;> simp [encLaterFields, encFieldLength, fieldFailures, hk, hl]

/-- The turns of the fields of an accepted command: the bytes of the frame, and `4 + c` ends of a field (R183). -/
theorem turnsLeft_accepted {s : State} {w : Width} (hv : validation s.enc.klen64 s.enc.vlen64 = .ok w) :
    turnsLeft (encFieldItems (encAccepted w s) .header)
        ((encLaterFields s.encHashEn .header).map (encFieldItems (encAccepted w s))) =
      frameLength s.encHashEn w s.enc.klen64.toNat s.enc.vlen64.toNat + 4 + s.encHashEn.toNat := by
  obtain ⟨hk, hl⟩ := accepted_lengths hv
  rw [frameLength_eq]
  cases s.encHashEn <;> simp [turnsLeft, encLaterFields, encFieldItems_length, encFieldLength, hk, hl] <;> omega

/-- What the command's description pushes: the frame of the record in the operand buffers, each byte with its failure. -/
def frameItems (s : State) (tag : BitVec 4) (w : Width) (klen vlen : BitVec 64) : List (Byte × Failure) :=
  (frameOf s.encHashEn s.encHash tag w (memBytes s.kbuf klen.toNat) (memBytes s.vbuf vlen.toNat)).zip
    (frameFailures s.encHashEn w klen.toNat vlen.toNat)

theorem pushFrame_eq_pushBytes (s : State) (tag : BitVec 4) (w : Width) (klen vlen : BitVec 64)
    (answers : List SinkAnswer) :
    pushFrame s.encHashEn s.encHash tag w (memBytes s.kbuf klen.toNat) (memBytes s.vbuf vlen.toNat) answers =
      pushBytes (frameItems s tag w klen vlen) answers := by
  rw [pushFrame, memBytes_length, memBytes_length, frameItems]

theorem frameItems_length (s : State) (tag : BitVec 4) (w : Width) (klen vlen : BitVec 64) :
    (frameItems s tag w klen vlen).length = frameLength s.encHashEn w klen.toNat vlen.toNat := by
  rw [frameItems, List.length_zip, frameFailures_length, frameOf_length, memBytes_length, memBytes_length, frameLength_eq,
    Nat.min_self]

/-- One turn after its ISSUE an accepted command works on its whole frame. -/
theorem encWork_of_accepted {s : State} (h : Inv s) (hp : s.enc.phase = Phase.idle.code) {klen vlen : BitVec 64} {w : Width}
    (hv : validation klen vlen = .ok w) (op : Bool) (tag : BitVec 4) :
    ∃ t left later, encTurn (encLatch op tag klen vlen s) = .next t ∧ EncWork t left later ∧
      itemsLeft left later = frameItems s (bif op then tag else 0) w klen vlen ∧
      turnsLeft left later = frameLength s.encHashEn w klen.toNat vlen.toNat + 4 + s.encHashEn.toNat ∧
      t.sink = s.sink ∧ t.sinkAnswers = s.sinkAnswers := by
  have hu := encLatch_keeps_inv h hp op tag klen vlen
  have hturn : encTurn (encLatch op tag klen vlen s) = .next (encAccepted w (encLatch op tag klen vlen s)) := by
    rw [encTurn_validate rfl, encValidate_of_accepted hv]
  refine ⟨_, _, _, hturn, ⟨encMove_keeps_inv hu (encTurn_move hturn), .header, rfl, rfl, rfl, rfl⟩, ?_,
    turnsLeft_accepted (s := encLatch op tag klen vlen s) hv, rfl, rfl⟩
  have hbytes := frameOf_accepted (s := encLatch op tag klen vlen s) hv
  have hfails := frameFailures_accepted (s := encLatch op tag klen vlen s) hv
  have hitems := encFieldItems_flatten (encAccepted w (encLatch op tag klen vlen s))
    (.header :: encLaterFields s.encHashEn .header)
  exact hitems.trans (congrArg₂ List.zip hbytes.symm hfails.symm)

/-- Settles O49: after `VALIDATE` the encoder's work is the list that the description pushes. -/
theorem encodeCommandPushesItsFrame : Obligations.EncodeCommandPushesItsFrame := by
  intro s op tag klen vlen w ts n hinv hp hv hn
  obtain ⟨m, left, later, hturn, hwork, hitems, hturns, hsink, hans⟩ := encWork_of_accepted hinv hp hv op tag
  have hc := Bool.toNat_le s.encHashEn
  obtain ⟨n, rfl⟩ : ∃ k, n = k + 1 := ⟨n - 1, by omega⟩
  obtain ⟨t, hrun, hends⟩ := hwork.ends (n := n) (by omega) ts
  have hreach := inv_phasesReachable (encLatch_keeps_inv hinv hp op tag klen vlen)
  have hwhole := runSteps_of_encTurn hreach hturn hrun
  have hframe := runSteps_enc_frame hwhole
  refine ⟨_, t, (exec_encodeCommand op tag klen vlen s).trans (encIssue_of_idle hp op tag klen vlen), hwhole, hframe, ?_⟩
  rw [hitems, hsink, hans, ← pushFrame_eq_pushBytes] at hends
  exact hends

/-- Settles O51: `VALIDATE` takes one turn, and the work of the frame the rest. -/
theorem encodeStepCount : Obligations.EncodeStepCount := by
  intro s op tag klen vlen w rest n hinv hp hv hanswers
  obtain ⟨m, left, later, hturn, hwork, hitems, hturns, -, hans⟩ := encWork_of_accepted hinv hp hv op tag
  have hexec := (exec_encodeCommand op tag klen vlen s).trans (encIssue_of_idle hp op tag klen vlen)
  have hreach := inv_phasesReachable (encLatch_keeps_inv hinv hp op tag klen vlen)
  rw [← frameItems_length s (bif op then tag else 0), ← hitems, ← hans] at hanswers
  cases n with
  | zero =>
    have hvalidating : ¬ encTerminal Phase.validate.code = true := by decide
    exact ⟨_, _, hexec, rfl, iff_of_false hvalidating (by omega)⟩
  | succ n =>
    obtain ⟨t, hrun, hiff⟩ := hwork.terminal_iff (n := n) hanswers []
    refine ⟨_, t, hexec, runSteps_of_encTurn hreach hturn hrun, ?_⟩
    rw [hiff, hturns]
    omega

end Sys2Proof.Machine
end

section
/-! The decoder's turn in a working phase, said once for all five fields: a pull below the field's end and an advance at it. -/

namespace Sys2Proof.Machine

/-! ### DEC.ISSUE (R190) -/

theorem decIssue_of_idle {s : State} (hp : s.dec.phase = Phase.idle.code) (op : Bool) :
    decIssue op s = .next (decLatch op s) :=
  if_neg (by simp [decLocked, hp])

theorem decIssue_of_busy {s : State} (hp : s.dec.phase ≠ Phase.idle.code) (op : Bool) :
    decIssue op s = .refused .issueNotEnabled :=
  if_pos (by simp [decLocked, hp])

/-- Both decode commands are the one ISSUE step. -/
theorem exec_decodeCommand (op : Bool) (s : State) : exec (bif op then .decodeTagged else .decode) s = decIssue op s := by
  cases op <;> rfl

/-- Settles O19: the two commands are ISSUE with `OP` set and clear. -/
theorem decodeCommandsIssue : Obligations.DecodeCommandsIssue :=
  fun _ => ⟨fun hp => ⟨decIssue_of_idle hp true, decIssue_of_idle hp false⟩,
    fun hp => ⟨decIssue_of_busy hp true, decIssue_of_busy hp false⟩⟩

/-! ### A turn in a working phase (R26) -/

/-- Below the end of its field the decoder's turn is the byte step of the phase. -/
theorem decTurn_byteStep {s : State} {p : Phase} (hp : s.dec.phase = p.code) (ht : p.transfers = true)
    (hi : s.dec.idx.toNat < decFieldLength s.dec p) :
    decTurn s = .next (decPull p (BitVec.ofNat 64 (decFieldLength s.dec p)) (decTakeByte p) s) := by
  rw [decTurn_eq_decStep, decStep, hp, Phase.ofCode_code]
  cases p with
  | header | checksum => exact if_pos hi
  | length | key | value => exact (if_pos hi).trans (by rw [zext64_eq_ofNat]; rfl)
  | _ => cases ht

/-- The advance of a working phase, at the end of its field (R196, R199, R202, R205, R209 to R211). -/
def decFieldEnd (s : State) : Phase → State
  | .header => decHeaderAdvance s
  | .length => decAdvance .key s
  | .key => decAdvance .value s
  | .value => decValueAdvance s
  | .checksum => decChecksumAdvance s
  | _ => s

/-- At the end of its field the decoder's turn is the advance of the phase. -/
theorem decTurn_fieldEnd {s : State} {p : Phase} (hp : s.dec.phase = p.code) (ht : p.transfers = true)
    (hi : s.dec.idx.toNat = decFieldLength s.dec p) : decTurn s = .next (decFieldEnd s p) := by
  have hn : ¬ s.dec.idx.toNat < decFieldLength s.dec p := by omega
  rw [decTurn_eq_decStep, decStep, hp, Phase.ofCode_code]
  cases p with
  | header | length | key | value | checksum => exact (if_neg hn).trans (if_pos hi)
  | _ => cases ht

/-! ### A pull by its answer (R65 to R68) -/

theorem decPull_byte {s : State} {b : Byte} {rest : List SourceAnswer} (h : s.sourceAnswers = .byte b :: rest) (p : Phase)
    (n : BitVec 64) (take : Byte → State → State) : decPull p n take s = take b { s with sourceAnswers := rest } := by
  rw [decPull, h]

theorem decPull_eos {s : State} {rest : List SourceAnswer} (h : s.sourceAnswers = .eos :: rest) (p : Phase)
    (n : BitVec 64) (take : Byte → State → State) : decPull p n take s = eosRaise p n { s with sourceAnswers := rest } := by
  rw [decPull, h]

theorem decPull_err {s : State} {rest : List SourceAnswer} (h : s.sourceAnswers = .err :: rest) (p : Phase)
    (n : BitVec 64) (take : Byte → State → State) :
    decPull p n take s = decRaise .ioFailure p n (zext64 s.dec.idx) { s with sourceAnswers := rest } := by
  rw [decPull, h]

theorem decPull_unanswered {s : State} (h : s.sourceAnswers = []) (p : Phase) (n : BitVec 64)
    (take : Byte → State → State) : decPull p n take s = s := by
  rw [decPull, h]

/-- After the header every `Eos` answer is a truncated stream (R255). -/
theorem eosRaise_of_not_header {p : Phase} (hne : p ≠ .header) (n : BitVec 64) (s : State) :
    eosRaise p n s = decRaise .truncatedStream p n (zext64 s.dec.idx) s :=
  if_neg fun h => hne h.1

/-! ### The same as steps of the machine -/

section Steps

variable {s : State} {ts : List Agent} {p : Phase} {rest : List SourceAnswer}

/-- A byte received. -/
theorem step_decTakes {b : Byte} (hr : phasesReachable s = true) (hturn : s.turns = .dec :: ts) (hp : s.dec.phase = p.code)
    (ht : p.transfers = true) (hi : s.dec.idx.toNat < decFieldLength s.dec p) (ha : s.sourceAnswers = .byte b :: rest) :
    step s = .next (decTakeByte p b { s with turns := ts, sourceAnswers := rest }) := by
  rw [step_eq_agentTurn hr hturn, agentTurn, decTurn_byteStep (s := { s with turns := ts }) hp ht hi,
    decPull_byte (s := { s with turns := ts }) ha]

/-- The end of the stream. -/
theorem step_decEos (hr : phasesReachable s = true) (hturn : s.turns = .dec :: ts) (hp : s.dec.phase = p.code)
    (ht : p.transfers = true) (hi : s.dec.idx.toNat < decFieldLength s.dec p) (ha : s.sourceAnswers = .eos :: rest) :
    step s = .next (eosRaise p (BitVec.ofNat 64 (decFieldLength s.dec p)) { s with turns := ts, sourceAnswers := rest }) := by
  rw [step_eq_agentTurn hr hturn, agentTurn, decTurn_byteStep (s := { s with turns := ts }) hp ht hi,
    decPull_eos (s := { s with turns := ts }) ha]

/-- The end of the stream inside a frame. -/
theorem step_decTruncated (hr : phasesReachable s = true) (hturn : s.turns = .dec :: ts) (hp : s.dec.phase = p.code)
    (ht : p.transfers = true) (hne : p ≠ .header) (hi : s.dec.idx.toNat < decFieldLength s.dec p)
    (ha : s.sourceAnswers = .eos :: rest) :
    step s = .next (decRaise .truncatedStream p (BitVec.ofNat 64 (decFieldLength s.dec p)) (zext64 s.dec.idx)
      { s with turns := ts, sourceAnswers := rest }) := by
  rw [step_decEos hr hturn hp ht hi ha, eosRaise_of_not_header hne]

/-- The end of a field. -/
theorem step_decFieldEnd (hr : phasesReachable s = true) (hturn : s.turns = .dec :: ts) (hp : s.dec.phase = p.code)
    (ht : p.transfers = true) (hi : s.dec.idx.toNat = decFieldLength s.dec p) :
    step s = .next (decFieldEnd { s with turns := ts } p) := by
  rw [step_eq_agentTurn hr hturn]
  exact decTurn_fieldEnd (s := { s with turns := ts }) hp ht hi

end Steps

/-! ### The steps of each phase -/

/-- Settles O28: the two bytes of the header word, the end of the stream before and between them, and `unpack`. -/
theorem decoderHeaderSteps : Obligations.DecoderHeaderSteps := by
  intro s ts b rest hr hturn hp
  have below : ∀ {i : BitVec 32}, s.dec.idx = i → i.toNat < 2 → s.dec.idx.toNat < decFieldLength s.dec .header := by
    rintro i rfl hi
    exact hi
  refine ⟨fun hi ha => ?_, fun hi ha => ?_, fun hi ha => ?_, fun hi ha => ?_, fun hi => ?_⟩
  · rw [step_decTakes hr hturn hp rfl (below hi (by decide)) ha]
    simp [decTakeByte, takeHeaderByte, decCount, hi]
  · rw [step_decTakes hr hturn hp rfl (below hi (by decide)) ha]
    simp [decTakeByte, takeHeaderByte, decCount, hi]
  · rw [step_decEos hr hturn hp rfl (below hi (by decide)) ha]
    exact congrArg _ (if_pos ⟨rfl, hi⟩)
  · rw [step_decEos hr hturn hp rfl (below hi (by decide)) ha]
    refine congrArg _ ((if_neg ?_).trans ?_)
    · simp [hi]
    · rw [hi]; rfl
  · exact step_decFieldEnd hr hturn hp rfl (congrArg BitVec.toNat hi)

/-- A byte shifted into a big-endian number, as a number modulo 2^32 (R197, R206). -/
theorem shiftIn_eq_ofNat (l : BitVec 32) (b : Byte) : shiftIn l b = BitVec.ofNat 32 (l.toNat * 256 + b.toNat) := by
  refine BitVec.eq_of_toNat_eq ?_
  have hb := b.isLt
  rw [shiftIn_toNat, BitVec.toNat_ofNat]
  omega

/-- Settles O29: the bytes of the length as a number, and an advance at the width. -/
theorem decoderLengthSteps : Obligations.DecoderLengthSteps := by
  intro s ts b rest hr hturn hp
  refine ⟨fun hi ha => ?_, fun hi ha => ?_, fun hi => step_decFieldEnd hr hturn hp rfl hi⟩
  · rw [← shiftIn_eq_ofNat]
    exact step_decTakes hr hturn hp rfl hi ha
  · have hstep := step_decTruncated hr hturn hp rfl (by decide) hi ha
    rwa [decFieldLength, ← zext64_eq_ofNat] at hstep

/-- Settles O30: in canonical form a write changes the one byte. -/
theorem decoderKeySteps : Obligations.DecoderKeySteps := by
  intro s ts b rest hinv hturn hp
  have hr := inv_phasesReachable hinv
  obtain ⟨-, -, hwf, -⟩ := hinv.buffers
  refine ⟨fun hi ha => ?_, fun hi ha => ?_, fun hi => step_decFieldEnd hr hturn hp rfl hi⟩
  · exact ⟨memWrite s.rkbuf s.dec.idx.toNat b, memRead_memWrite_same hwf _ b,
      fun a hne => memRead_memWrite_ne hne.symm s.rkbuf b, step_decTakes hr hturn hp rfl hi ha⟩
  · have hstep := step_decTruncated hr hturn hp rfl (by decide) hi ha
    rwa [decFieldLength, ← zext64_eq_ofNat] at hstep

/-- Settles O31: as for the key, and the advance looks at the frame's flag. -/
theorem decoderValueSteps : Obligations.DecoderValueSteps := by
  intro s ts b rest hinv hturn hp
  have hr := inv_phasesReachable hinv
  obtain ⟨-, -, -, hwf, -⟩ := hinv.buffers
  refine ⟨fun hi ha => ?_, fun hi ha => ?_, fun hi hck => ?_, fun hi hck => ?_⟩
  · exact ⟨memWrite s.rvbuf s.dec.idx.toNat b, memRead_memWrite_same hwf _ b,
      fun a hne => memRead_memWrite_ne hne.symm s.rvbuf b, step_decTakes hr hturn hp rfl hi ha⟩
  · have hstep := step_decTruncated hr hturn hp rfl (by decide) hi ha
    rwa [decFieldLength, ← zext64_eq_ofNat] at hstep
  · rw [step_decFieldEnd hr hturn hp rfl hi]
    simp only [decFieldEnd, decValueAdvance, hck, cond_false]
  · rw [step_decFieldEnd hr hturn hp rfl hi]
    simp only [decFieldEnd, decValueAdvance, hck, cond_true]
    rfl

/-- Settles O32: a trailer byte is counted with either strap, and kept with the strap set. -/
theorem decoderTrailerSteps : Obligations.DecoderTrailerSteps := by
  intro s ts b rest hr hturn hp hi
  refine ⟨fun hen ha => ?_, fun hen ha => ?_, fun ha => ?_⟩
  · rw [step_decTakes hr hturn hp rfl hi ha, ← shiftIn_eq_ofNat]
    simp only [decTakeByte, takeChecksumByte, decCount, hen, cond_true]
  · rw [step_decTakes hr hturn hp rfl hi ha]
    simp only [decTakeByte, takeChecksumByte, decCount, hen, cond_false]
  · exact step_decTruncated hr hturn hp rfl (by decide) hi ha

/-- In `CHECKSUM` the accumulator of a reader with a hash gives the digest of the key and the value received (R231, R234). -/
theorem final_acc_in_checksum {s : State} (h : DecInv s) (hp : s.dec.phase = Phase.checksum.code)
    (hen : s.decHashEn = true) :
    s.decHash.final s.dec.acc =
      s.decHash.dig (memBytes s.rkbuf s.dec.klen.toNat ++ memBytes s.rvbuf s.dec.vlen.toNat) := by
  have hverifies : verifies s = true := by rw [verifies, hen, h.flagged hp]; rfl
  have hacc := h.accumulated .checksum hp
  rw [hverifies, cond_true, decTransferred] at hacc
  rw [hacc, HashFn.final_fold]

/-- Settles O33: the invariant's accumulator is that of the key and the value. -/
theorem decoderChecksumAdvance : Obligations.DecoderChecksumAdvance := by
  intro s ts hinv hturn hp hi
  have hdigest := final_acc_in_checksum hinv.dec hp
  rw [step_decFieldEnd (inv_phasesReachable hinv) hturn hp rfl (congrArg BitVec.toNat hi)]
  obtain ⟨hagree, hend⟩ | ⟨hen, hdiffer, hend⟩ := decChecksumAdvance_cases { s with turns := ts }
  · refine ⟨fun _ => congrArg _ hend, fun hen hne => ?_⟩
    rw [← hdigest hen] at hne
    exact hagree.elim (fun hoff => nomatch hen.symm.trans hoff) (fun h => absurd h hne)
  · refine ⟨fun hok => ?_, fun _ _ => congrArg _ hend⟩
    rw [← hdigest hen] at hok
    exact hok.elim (fun hoff => nomatch hen.symm.trans hoff) (fun h => absurd h hdiffer)

end Sys2Proof.Machine
end

section
/-! The changes of `DEC.PHASE`, and that the decoder's turns read `DEC.OP` for the tag returned only. -/

namespace Sys2Proof.Machine

/-! ### The changes of `DEC.PHASE` (R220) -/

theorem phase_range_of_transfers {c : BitVec 4} {p : Phase} (hp : c = p.code) (ht : p.transfers = true) :
    2 ≤ c.toNat ∧ c.toNat ≤ 6 := by
  subst hp
  cases p with
  | header | length | key | value | checksum => decide
  | _ => cases ht

/-- R220's two rows of an `Eos` answer: before a frame, and inside one. -/
theorem eosRaise_phase {s t : State} {p : Phase} {rest : List SourceAnswer} (hp : s.dec.phase = p.code)
    (ht : p.transfers = true) (ha : s.sourceAnswers = .eos :: rest) {n : BitVec 64}
    (he : t = eosRaise p n { s with sourceAnswers := rest }) :
    (s.dec.phase = 2 ∧ s.dec.idx = 0 ∧ s.sourceAnswers.head? = some .eos ∧ t.dec.phase = 9) ∨
    (2 ≤ s.dec.phase.toNat ∧ s.dec.phase.toNat ≤ 6 ∧ ¬(s.dec.phase = 2 ∧ s.dec.idx = 0) ∧
      s.sourceAnswers.head? = some .eos ∧ t.dec.phase = 8 ∧ t.dec.status = 5) := by
  have hhead : s.sourceAnswers.head? = some .eos := congrArg List.head? ha
  obtain ⟨hlo, hhi⟩ := phase_range_of_transfers hp ht
  obtain ⟨rfl, hi, h⟩ | ⟨hne, h⟩ := eosRaise_cases p n { s with sourceAnswers := rest } <;> rw [he, h]
  · exact .inl ⟨hp, hi, hhead, rfl⟩
  · refine .inr ⟨hlo, hhi, fun ⟨hq, hi⟩ => hne ⟨?_, hi⟩, hhead, rfl, rfl⟩
    exact Phase.code_injective (hp.symm.trans hq)

/-- The rows of R220 that are a decoder's turn. -/
theorem decMove_phase {s t : State} (hm : DecMove s t) (hne : t.dec.phase ≠ s.dec.phase) :
    (s.dec.phase = 2 ∧ s.dec.idx = 0 ∧ s.sourceAnswers.head? = some .eos ∧ t.dec.phase = 9) ∨
    (s.dec.phase = 2 ∧ s.dec.idx = 2 ∧ t.dec.phase = 3) ∨
    (s.dec.phase = 3 ∧ s.dec.idx.toNat = s.dec.width.toNat ∧ t.dec.phase = 4) ∨
    (s.dec.phase = 4 ∧ s.dec.idx.toNat = s.dec.klen.toNat ∧ t.dec.phase = 5) ∨
    (s.dec.phase = 5 ∧ s.dec.idx.toNat = s.dec.vlen.toNat ∧ s.dec.ck = false ∧ t.dec.phase = 7) ∨
    (s.dec.phase = 5 ∧ s.dec.idx.toNat = s.dec.vlen.toNat ∧ s.dec.ck = true ∧ t.dec.phase = 6) ∨
    (s.dec.phase = 6 ∧ s.dec.idx = 4 ∧ (s.decHashEn = false ∨ s.decHash.final s.dec.acc = s.dec.digrx) ∧
      t.dec.phase = 7) ∨
    (s.dec.phase = 6 ∧ s.dec.idx = 4 ∧ s.decHashEn = true ∧ s.decHash.final s.dec.acc ≠ s.dec.digrx ∧
      t.dec.phase = 8 ∧ t.dec.status = 6) ∨
    (2 ≤ s.dec.phase.toNat ∧ s.dec.phase.toNat ≤ 6 ∧ ¬(s.dec.phase = 2 ∧ s.dec.idx = 0) ∧
      s.sourceAnswers.head? = some .eos ∧ t.dec.phase = 8 ∧ t.dec.status = 5) ∨
    (2 ≤ s.dec.phase.toNat ∧ s.dec.phase.toNat ≤ 6 ∧ s.sourceAnswers.head? = some .err ∧
      t.dec.phase = 8 ∧ t.dec.status = 7) := by
  cases hm with
  | rests | waits => exact absurd rfl hne
  | takes p => cases p <;> exact absurd rfl hne
  | ends p rest hp ht hi ha =>
    obtain h | h := eosRaise_phase hp ht ha rfl
    · exact .inl h
    · exact .inr (.inr (.inr (.inr (.inr (.inr (.inr (.inr (.inl h))))))))
  | fails p rest hp ht hi ha =>
    obtain ⟨hlo, hhi⟩ := phase_range_of_transfers hp ht
    iterate 9 refine .inr ?_
    exact ⟨hlo, hhi, congrArg List.head? ha, rfl, rfl⟩
  | takesHeader hr =>
    obtain ⟨hp, hi⟩ := (headerReady_iff s).mp hr
    exact .inr (.inl ⟨hp, hi, rfl⟩)
  | advances p q hp hq hi =>
    obtain ⟨rfl, rfl⟩ | ⟨rfl, rfl⟩ := hq
    · exact .inr (.inr (.inl ⟨hp, hi, rfl⟩))
    · exact .inr (.inr (.inr (.inl ⟨hp, hi, rfl⟩)))
  | valueEnds hp hi =>
    obtain ⟨hck, h⟩ | ⟨hck, h⟩ := decValueAdvance_cases s <;> rw [h]
    · exact .inr (.inr (.inr (.inr (.inr (.inl ⟨hp, hi, hck, rfl⟩)))))
    · exact .inr (.inr (.inr (.inr (.inl ⟨hp, hi, hck, rfl⟩))))
  | checks hp hi =>
    have hi4 : s.dec.idx = 4 := BitVec.eq_of_toNat_eq hi
    obtain ⟨hagree, h⟩ | ⟨hen, hdiffer, h⟩ := decChecksumAdvance_cases s <;> rw [h]
    · exact .inr (.inr (.inr (.inr (.inr (.inr (.inl ⟨hp, hi4, hagree, rfl⟩))))))
    · exact .inr (.inr (.inr (.inr (.inr (.inr (.inr (.inl ⟨hp, hi4, hen, hdiffer, rfl, rfl⟩)))))))

/-- A requester changes `DEC.PHASE` by ISSUE and by RETIRE only. -/
theorem requesterMove_decPhase {n : Nat} {s t : State} (hm : RequesterMove n s t) (hne : t.dec.phase ≠ s.dec.phase) :
    (s.dec.phase = 0 ∧ t.dec.phase = 2) ∨
      ((s.dec.phase = 7 ∨ s.dec.phase = 8 ∨ s.dec.phase = 9) ∧ t.dec.phase = 0) := by
  cases hm with
  | absent | waits => exact absurd rfl hne
  | runs r i _ hn hd he hx =>
    cases serve_move hd hx with
    | decIssues op hport hp => exact .inl ⟨hp, rfl⟩
    | decRetires hport hp => exact .inr ⟨hp, rfl⟩
    | encIssues | encRetires | ports => exact absurd rfl hne

/-- Settles O46: a decoder's turn changes its phase by R220's rows, an encoder's not at all. -/
theorem decoderControlTransfers : Obligations.DecoderControlTransfers := by
  intro s t h hne
  cases step_move h with
  | still => exact absurd rfl hne
  | enc rest _ ht hm =>
    obtain ⟨hf, -⟩ := encMove_frame hm
    exact absurd (by rw [hf]) hne
  | dec rest _ ht hr hm => exact .inr (.inr ⟨by rw [ht]; rfl, decMove_phase (s := { s with turns := rest }) hm hne⟩)
  | header rest _ ht hr hx =>
    have hturn : decTurn { s with turns := rest } = .next t := (if_pos hr).trans hx
    exact .inr (.inr ⟨by rw [ht]; rfl, decMove_phase (s := { s with turns := rest }) (decTurn_move hturn) hne⟩)
  | requester n rest _ ht hm =>
    exact .inr (.inl ⟨⟨n, by rw [ht]; rfl⟩, requesterMove_decPhase (s := { s with turns := rest }) hm hne⟩)
  | reset rest ht => exact .inl ⟨by rw [ht]; rfl, rfl⟩

/-! ### DECODE is DECODE_TAGGED without the tag (R192) -/

/-- The state of a DECODE in the place of a DECODE_TAGGED: `OP` is clear and no tag is returned. -/
def untagged (s : State) : State :=
  { s with dec := { s.dec with op := false, rtag := 0 } }

@[simp] theorem untagged_phase (s : State) : (untagged s).dec.phase = s.dec.phase := rfl
@[simp] theorem untagged_idx (s : State) : (untagged s).dec.idx = s.dec.idx := rfl
@[simp] theorem untagged_ck (s : State) : (untagged s).dec.ck = s.dec.ck := rfl
@[simp] theorem untagged_acc (s : State) : (untagged s).dec.acc = s.dec.acc := rfl
@[simp] theorem untagged_digrx (s : State) : (untagged s).dec.digrx = s.dec.digrx := rfl
@[simp] theorem untagged_decHashEn (s : State) : (untagged s).decHashEn = s.decHashEn := rfl
@[simp] theorem untagged_decHash (s : State) : (untagged s).decHash = s.decHash := rfl

theorem eosRaise_untagged (p : Phase) (n : BitVec 64) (s : State) :
    eosRaise p n (untagged s) = untagged (eosRaise p n s) := by
  obtain ⟨rfl, hi, h⟩ | ⟨hne, h⟩ := eosRaise_cases p n s <;> rw [h]
  · exact if_pos ⟨rfl, hi⟩
  · exact if_neg hne

theorem decPull_untagged {p : Phase} {n : BitVec 64} {take : Byte → State → State} {s : State}
    (htake : ∀ b u, take b (untagged u) = untagged (take b u)) :
    decPull p n take (untagged s) = untagged (decPull p n take s) := by
  cases h : s.sourceAnswers with
  | nil => rw [decPull_unanswered h, decPull_unanswered (s := untagged s) h]
  | cons a rest =>
    cases a with
    | byte b => rw [decPull_byte h, decPull_byte (s := untagged s) h]; exact htake b { s with sourceAnswers := rest }
    | eos => rw [decPull_eos h, decPull_eos (s := untagged s) h]; exact eosRaise_untagged p n { s with sourceAnswers := rest }
    | err => rw [decPull_err h, decPull_err (s := untagged s) h]; rfl

/-- Completion is the one step that reads `OP`, and `OP` decides the tag alone (R213). -/
theorem decComplete_untagged (s : State) : decComplete (untagged s) = untagged (decComplete s) := rfl

theorem decValueAdvance_untagged (s : State) : decValueAdvance (untagged s) = untagged (decValueAdvance s) := by
  simp only [decValueAdvance, untagged_ck, decComplete_untagged]
  cases s.dec.ck <;> rfl

theorem decChecksumAdvance_untagged (s : State) :
    decChecksumAdvance (untagged s) = untagged (decChecksumAdvance s) := by
  simp only [decChecksumAdvance, untagged_decHashEn, untagged_decHash, untagged_acc, untagged_digrx, decComplete_untagged]
  cases s.decHashEn with
  | false => rfl
  | true => rw [cond_true, cond_true, apply_ite untagged]; rfl

theorem decField_untagged {n : Nat} {b b' a a' s : State} (hb : b' = untagged b) (ha : a' = untagged a) :
    decField n b' a' (untagged s) = mapNext untagged (decField n b a s) := by
  subst hb ha
  unfold decField
  rw [untagged_idx]
  split
  · rfl
  · split <;> rfl

/-- The decoder's turn is the same for both commands. -/
theorem decTurn_untagged (s : State) : decTurn (untagged s) = mapNext untagged (decTurn s) := by
  rw [decTurn_eq_decStep, decTurn_eq_decStep]
  unfold decStep
  rw [untagged_phase]
  cases Phase.ofCode s.dec.phase with
  | none => rfl
  | some p =>
    cases p with
    | header | length | key => exact decField_untagged (decPull_untagged fun _ _ => rfl) rfl
    | value => exact decField_untagged (decPull_untagged fun _ _ => rfl) (decValueAdvance_untagged s)
    | checksum => exact decField_untagged (decPull_untagged fun _ _ => rfl) (decChecksumAdvance_untagged s)
    | idle | validate | done | error | eos => rfl

/-- So is a run of them. -/
theorem runSteps_untagged {n : Nat} {ts : List Agent} {s t : State} (h : runSteps n (withTurns n .dec ts s) = .next t) :
    runSteps n (withTurns n .dec ts (untagged s)) = .next (untagged t) := by
  induction n generalizing s with
  | zero => cases h; rfl
  | succ n ih =>
    obtain ⟨hreach, m, hm, hr⟩ := (runSteps_withTurns_succ dec_turnsBlind).mp h
    have hturn : decTurn (untagged s) = .next (untagged m) := (decTurn_untagged s).trans (congrArg (mapNext untagged) hm)
    exact (runSteps_withTurns_succ dec_turnsBlind).mpr ⟨hreach, _, hturn, ih hr⟩

/-- Settles O55: the two commands latch the same registers but for `DEC.OP`. -/
theorem decodeDropsOnlyTheTag : Obligations.DecodeDropsOnlyTheTag := by
  rintro s t ts n hp ⟨u, hu, hrun⟩
  obtain ⟨-, rfl⟩ := decIssue_next hu
  exact ⟨_, decIssue_of_idle hp false, runSteps_untagged hrun⟩

end Sys2Proof.Machine
end

section
/-! The description of a decode command cut at the ends of the fields, and what it makes of the next answer (R191). -/

namespace Sys2Proof.Machine

/-! ### The fields in their order -/

/-- What the description makes of the four bytes of a trailer. -/
def decodeVerify (hashEn : Bool) (h : HashFn) (key value : List Byte) (tag : BitVec 4) (d : List Byte)
    (answers : List SourceAnswer) : DecodeOutcome :=
  if hashEn = false then .ok key value tag answers
  else if lenAssemble d = h.dig (key ++ value) then .ok key value tag answers
  else .failed ⟨.checksumMismatch, .checksum, 0, 0⟩ answers

/-- The description after the value. -/
def decodeEnd (hashEn : Bool) (h : HashFn) (f : HeaderFields) (key value : List Byte) (answers : List SourceAnswer) :
    DecodeOutcome :=
  if f.ck then (takeField .checksum 4 answers).andThen (decodeVerify hashEn h key value f.tag)
  else .ok key value f.tag answers

/-- The description after the key. -/
def decodeValue (hashEn : Bool) (h : HashFn) (f : HeaderFields) (vlen : Nat) (key : List Byte)
    (answers : List SourceAnswer) : DecodeOutcome :=
  (takeField .value vlen answers).andThen (decodeEnd hashEn h f key)

/-- The description after the length. -/
def decodeKey (hashEn : Bool) (h : HashFn) (f : HeaderFields) (lb : List Byte) (answers : List SourceAnswer) :
    DecodeOutcome :=
  (takeField .key f.klen.toNat answers).andThen (decodeValue hashEn h f (lenAssemble lb).toNat)

/-- The description after the header. -/
def decodeLength (hashEn : Bool) (h : HashFn) (hb : List Byte) (answers : List SourceAnswer) : DecodeOutcome :=
  (takeField .length (unpack ((lenAssemble hb).setWidth 16)).width.toNat answers).andThen
    (decodeKey hashEn h (unpack ((lenAssemble hb).setWidth 16)))

theorem decodeTaggedWhole_eq (hashEn : Bool) (h : HashFn) (answers : List SourceAnswer) :
    decodeTaggedWhole hashEn h answers = (takeField .header 2 answers).andThen (decodeLength hashEn h) := rfl

/-! ### The next answer -/

/-- The description with the bytes `got` of a field of `n` bytes taken. -/
def takeMore (p : Phase) (n : Nat) (k : List Byte → List SourceAnswer → DecodeOutcome) (got : List Byte)
    (answers : List SourceAnswer) : DecodeOutcome :=
  (takeLeft p n (n - got.length) answers).andThen fun more => k (got ++ more)

section

variable {p : Phase} {n : Nat} {k : List Byte → List SourceAnswer → DecodeOutcome} {got : List Byte}

theorem takeMore_nil (answers : List SourceAnswer) : takeMore p n k [] answers = (takeField p n answers).andThen k := rfl

theorem takeMore_end (h : got.length = n) (answers : List SourceAnswer) : takeMore p n k got answers = k got answers := by
  rw [takeMore, h, Nat.sub_self, takeLeft, TakeOutcome.andThen, List.append_nil]

/-- Below its end a field has one byte to take and those after it. -/
theorem bytesLeft_eq_succ (h : got.length < n) : n - got.length = n - (got.length + 1) + 1 := by omega

theorem takeMore_unanswered (h : got.length < n) : takeMore p n k got [] = .waiting := by
  rw [takeMore, bytesLeft_eq_succ h]
  rfl

theorem takeMore_byte (h : got.length < n) (b : Byte) (rest : List SourceAnswer) :
    takeMore p n k got (.byte b :: rest) = takeMore p n k (got ++ [b]) rest := by
  rw [takeMore, takeMore, bytesLeft_eq_succ h, List.length_append, List.length_singleton, takeLeft]
  cases takeLeft p n (n - (got.length + 1)) rest with
  | got more rest => simp [TakeOutcome.cons, TakeOutcome.andThen]
  | failed | waiting => rfl

theorem takeMore_eos (h : got.length < n) (rest : List SourceAnswer) :
    takeMore p n k got (.eos :: rest) = .failed (eosFailure p n got.length) rest := by
  have hi : n - (n - (got.length + 1) + 1) = got.length := by omega
  rw [takeMore, bytesLeft_eq_succ h, takeLeft, hi, TakeOutcome.andThen]

theorem takeMore_err (h : got.length < n) (rest : List SourceAnswer) :
    takeMore p n k got (.err :: rest) =
      .failed ⟨.ioFailure, p, BitVec.ofNat 64 n, BitVec.ofNat 64 got.length⟩ rest := by
  have hi : n - (n - (got.length + 1) + 1) = got.length := by omega
  rw [takeMore, bytesLeft_eq_succ h, takeLeft, hi, TakeOutcome.andThen]

end

end Sys2Proof.Machine
end

section
/-! A decode command, field by field: `DecWork` says where in the description a working decoder stands, and one turn of it goes on
as the description does (R193 to R214). -/

namespace Sys2Proof.Machine

/-! ### Where a working decoder stands -/

/-- The registers of a phase hold the bytes of its field received so far. -/
def decHolds (s : State) : Phase → List Byte → Prop
  | .header, got => (headerBytes s.dec.hdr).take s.dec.idx.toNat = got
  | .length, got => s.dec.vlen = lenAssemble got
  | .key, got => memBytes s.rkbuf s.dec.idx.toNat = got
  | .value, got => memBytes s.rvbuf s.dec.idx.toNat = got
  | .checksum, got => s.decHashEn = true → s.dec.digrx = lenAssemble got
  | _, _ => True

/-- The description after a field, with what the registers hold of the fields before it. -/
def decodeAfter (s : State) : Phase → List Byte → List SourceAnswer → DecodeOutcome
  | .header => decodeLength s.decHashEn s.decHash
  | .length => decodeKey s.decHashEn s.decHash (unpack s.dec.hdr)
  | .key => decodeValue s.decHashEn s.decHash (unpack s.dec.hdr) s.dec.vlen.toNat
  | .value => decodeEnd s.decHashEn s.decHash (unpack s.dec.hdr) (memBytes s.rkbuf s.dec.klen.toNat)
  | .checksum =>
    decodeVerify s.decHashEn s.decHash (memBytes s.rkbuf s.dec.klen.toNat) (memBytes s.rvbuf s.dec.vlen.toNat)
      (unpack s.dec.hdr).tag
  | _ => fun _ _ => .waiting

/-- What the description makes of the answers to come, for a decoder that has the bytes `got` of the field of phase `p`. -/
def decodeLeft (s : State) (p : Phase) (got : List Byte) : DecodeOutcome :=
  takeMore p (decFieldLength s.dec p) (decodeAfter s p) got s.sourceAnswers

/-- The fields of a frame still to end, the present one among them. -/
def fieldsLeft : Phase → Nat
  | .header => 5
  | .length => 4
  | .key => 3
  | .value => 2
  | .checksum => 1
  | _ => 0

/-- The decoder works on a frame in phase `p` and has the bytes `got` of the field. -/
structure DecWork (s : State) (p : Phase) (got : List Byte) : Prop where
  inv : Inv s
  phase : s.dec.phase = p.code
  transfers : p.transfers = true
  counted : s.dec.idx.toNat = got.length
  held : decHolds s p got

/-- The decoder has ended its command as the description's outcome says, or waits where the description does. -/
def DecodeEnds (t : State) : DecodeOutcome → Prop
  | .ok key value tag rest => decSucceeded key value (bif t.dec.op then tag else 0) t ∧ t.sourceAnswers = rest
  | .failed f rest => decFailedWith f t ∧ t.sourceAnswers = rest
  | .waiting => decWaiting t

/-- An ended or waiting decoder stays as it is. -/
def DecodeStops (t : State) (o : DecodeOutcome) : Prop :=
  decTurn t = .next t ∧ DecodeEnds t o

/-! ### A byte -/

theorem lenAssemble_concat (bytes : List Byte) (b : Byte) : lenAssemble (bytes ++ [b]) = shiftIn (lenAssemble bytes) b :=
  List.foldl_concat ..

/-- The bytes of the header word, the first `IDX` of which have been received (R193). -/
theorem headerBytes_takeHeaderByte {s : State} (hi : s.dec.idx.toNat < 2) {got : List Byte}
    (hgot : (headerBytes s.dec.hdr).take s.dec.idx.toNat = got) (b : Byte) :
    (headerBytes (takeHeaderByte b s).dec.hdr).take (takeHeaderByte b s).dec.idx.toNat = got ++ [b] := by
  obtain h0 | h1 : s.dec.idx = 0#32 ∨ s.dec.idx = 1#32 := by bv_omega
  · have hfirst : (b ++ s.dec.hdr.extractLsb' 0 8).extractLsb' 8 8 = b := BitVec.extractLsb'_append_eq_left
    simp [← hgot, takeHeaderByte, decCount, h0, headerBytes, hfirst]
  · have hfirst : (s.dec.hdr.extractLsb' 8 8 ++ b).extractLsb' 8 8 = s.dec.hdr.extractLsb' 8 8 :=
      BitVec.extractLsb'_append_eq_left
    have hsecond : (s.dec.hdr.extractLsb' 8 8 ++ b).extractLsb' 0 8 = b := BitVec.extractLsb'_append_eq_right
    simp [← hgot, takeHeaderByte, decCount, h1, headerBytes, hfirst, hsecond]

/-- A received byte is held after those before it. -/
theorem decHolds_decTakeByte {s : State} (h : buffersCanonical s) {p : Phase} (hi : s.dec.idx.toNat < decFieldLength s.dec p)
    {got : List Byte} (hgot : decHolds s p got) (b : Byte) : decHolds (decTakeByte p b s) p (got ++ [b]) := by
  have hsucc : (s.dec.idx + 1).toNat = s.dec.idx.toNat + 1 := idx_succ_toNat hi (decFieldLength_lt s.dec p)
  obtain ⟨-, -, hk, hv, -⟩ := h
  cases p with
  | header => exact headerBytes_takeHeaderByte hi hgot b
  | length =>
    change shiftIn s.dec.vlen b = _
    rw [lenAssemble_concat, hgot]
  | key =>
    change memBytes (memWrite s.rkbuf s.dec.idx.toNat b) (s.dec.idx + 1).toNat = _
    rw [hsucc, memBytes_memWrite_next hk, hgot]
  | value =>
    change memBytes (memWrite s.rvbuf s.dec.idx.toNat b) (s.dec.idx + 1).toNat = _
    rw [hsucc, memBytes_memWrite_next hv, hgot]
  | checksum =>
    intro hen
    replace hen : s.decHashEn = true := hen
    change (bif s.decHashEn then shiftIn s.dec.digrx b else s.dec.digrx) = _
    rw [lenAssemble_concat, hen, cond_true, hgot hen]
  | _ => trivial

/-- A byte of a field changes nothing of what the registers hold of the fields before it. -/
theorem decodeAfter_decTakeByte (p : Phase) (b : Byte) (s : State) (rest : List SourceAnswer) :
    decodeAfter (decTakeByte p b { s with sourceAnswers := rest }) p = decodeAfter s p := by
  cases p <;> rfl

theorem decFieldLength_decTakeByte (p : Phase) (b : Byte) (s : State) (rest : List SourceAnswer) :
    decFieldLength (decTakeByte p b { s with sourceAnswers := rest }).dec p = decFieldLength s.dec p := by
  cases p <;> rfl

theorem decTakeByte_phase_answers (p : Phase) (b : Byte) (s : State) :
    (decTakeByte p b s).dec.phase = s.dec.phase ∧ (decTakeByte p b s).sourceAnswers = s.sourceAnswers := by
  cases p <;> exact ⟨rfl, rfl⟩

theorem decTakeByte_idx {p : Phase} (ht : p.transfers = true) (b : Byte) (s : State) :
    (decTakeByte p b s).dec.idx = s.dec.idx + 1 := by
  cases p with
  | header | length | key | value | checksum => rfl
  | _ => cases ht

/-! ### One turn of a working decoder -/

/-- What becomes of a decoder's work in one turn: it has ended as the description says, or the rest of the description is before
it, with an answer or the end of a field less. -/
def WorkGoesOn (s t : State) (p : Phase) (got : List Byte) : Prop :=
  DecodeStops t (decodeLeft s p got) ∨
    ∃ q more, DecWork t q more ∧ decodeLeft t q more = decodeLeft s p got ∧
      t.sourceAnswers.length + fieldsLeft q < s.sourceAnswers.length + fieldsLeft p

section

variable {s : State} {p : Phase} {got : List Byte}

/-- While the pull is not answered both the decoder and the description wait (R68). -/
theorem DecWork.waits (h : DecWork s p got) (hlt : got.length < decFieldLength s.dec p) (ha : s.sourceAnswers = []) :
    DecodeStops s (decodeLeft s p got) := by
  have hi : s.dec.idx.toNat < decFieldLength s.dec p := h.counted ▸ hlt
  have hturn := decTurn_byteStep h.phase h.transfers hi
  rw [decPull_unanswered ha] at hturn
  rw [decodeLeft, ha, takeMore_unanswered hlt]
  exact ⟨hturn, ⟨p, h.transfers, h.phase⟩, ha⟩

/-- A byte received is a byte less of the description (R193, R197, R200, R203, R206, R207). -/
theorem DecWork.takes (h : DecWork s p got) (hlt : got.length < decFieldLength s.dec p) {b : Byte}
    {rest : List SourceAnswer} (ha : s.sourceAnswers = .byte b :: rest) :
    ∃ t, decTurn s = .next t ∧ WorkGoesOn s t p got := by
  have hi : s.dec.idx.toNat < decFieldLength s.dec p := h.counted ▸ hlt
  have hturn := decTurn_byteStep h.phase h.transfers hi
  rw [decPull_byte ha] at hturn
  obtain ⟨hphase, hans⟩ := decTakeByte_phase_answers p b { s with sourceAnswers := rest }
  have hcounted : (s.dec.idx + 1).toNat = (got ++ [b]).length := by
    rw [idx_succ_toNat hi (decFieldLength_lt s.dec p), h.counted, List.length_append, List.length_singleton]
  have hinv' := decMove_keeps_inv h.inv (decTurn_move hturn)
  refine ⟨_, hturn, .inr ⟨p, got ++ [b], ⟨hinv', hphase.trans h.phase, h.transfers, ?_, ?_⟩, ?_, ?_⟩⟩
  · rw [decTakeByte_idx h.transfers]
    exact hcounted
  · exact decHolds_decTakeByte (s := { s with sourceAnswers := rest }) h.inv.buffers hi (by cases p <;> exact h.held) b
  · rw [decodeLeft, decodeLeft, decodeAfter_decTakeByte, decFieldLength_decTakeByte, hans, ha, takeMore_byte hlt]
  · rw [hans, ha]
    simp

/-- A failure ends the command with nothing returned (R214). -/
theorem DecWork.raises (h : DecWork s p got) (f : Failure) (rest : List SourceAnswer) :
    DecodeStops (decRaise f.status f.phase f.expected f.actual { s with sourceAnswers := rest }) (.failed f rest) := by
  obtain ⟨hk, hv, ht⟩ := h.inv.dec.results.1 p h.phase (.inl h.transfers)
  refine ⟨decTurn_of_resting ?_, ⟨rfl, rfl, rfl, rfl, rfl, rfl, hk, hv, ht⟩, rfl⟩
  cases f.status with
  | endOfStream => exact .inr (.inr (.inr rfl))
  | _ => exact .inr (.inr (.inl rfl))

/-- The end of the stream raises the failure that the description gives for the same byte (R194, R195, R255). -/
theorem eosRaise_eq_decRaise (p : Phase) (n : Nat) (s : State) :
    eosRaise p (BitVec.ofNat 64 n) s =
      decRaise (eosFailure p n s.dec.idx.toNat).status (eosFailure p n s.dec.idx.toNat).phase
        (eosFailure p n s.dec.idx.toNat).expected (eosFailure p n s.dec.idx.toNat).actual s := by
  have hfirst : s.dec.idx.toNat = 0 ↔ s.dec.idx = 0 := BitVec.toNat_inj (y := 0)
  simp only [eosFailure, hfirst]
  obtain ⟨hp, hi, h⟩ | ⟨hne, h⟩ := eosRaise_cases p (BitVec.ofNat 64 n) s <;> rw [h]
  · rw [if_pos ⟨hp, hi⟩]
  · rw [if_neg hne, zext64_eq_ofNat]

/-- An answer that is no byte ends the command as the description says. -/
theorem DecWork.fails (h : DecWork s p got) (hlt : got.length < decFieldLength s.dec p) {a : SourceAnswer}
    {rest : List SourceAnswer} (ha : s.sourceAnswers = a :: rest) (hbyte : ∀ b, a ≠ .byte b) :
    ∃ t, decTurn s = .next t ∧ DecodeStops t (decodeLeft s p got) := by
  have hturn := decTurn_byteStep h.phase h.transfers (h.counted ▸ hlt)
  cases a with
  | byte b => exact absurd rfl (hbyte b)
  | eos =>
    rw [decPull_eos ha, eosRaise_eq_decRaise, h.counted] at hturn
    rw [decodeLeft, ha, takeMore_eos hlt]
    exact ⟨_, hturn, h.raises _ rest⟩
  | err =>
    rw [decPull_err ha, zext64_eq_ofNat, h.counted] at hturn
    rw [decodeLeft, ha, takeMore_err hlt]
    exact ⟨_, hturn, h.raises ⟨.ioFailure, p, _, _⟩ rest⟩

/-! ### The end of a field -/

theorem decodeLeft_end (hfull : got.length = decFieldLength s.dec p) :
    decodeLeft s p got = decodeAfter s p got s.sourceAnswers :=
  takeMore_end hfull _

/-- An advance to the next field goes on where the description does. -/
theorem DecWork.advances (h : DecWork s p got) (hfull : got.length = decFieldLength s.dec p) {q : Phase} {t : State}
    (hturn : decTurn s = .next t) (hq : t.dec.phase = q.code) (htq : q.transfers = true) (hidx : t.dec.idx = 0)
    (hheld : decHolds t q []) (hans : t.sourceAnswers = s.sourceAnswers) (hless : fieldsLeft q < fieldsLeft p)
    (hnext : decodeAfter s p got s.sourceAnswers =
      (takeField q (decFieldLength t.dec q) s.sourceAnswers).andThen (decodeAfter t q)) : WorkGoesOn s t p got := by
  refine .inr ⟨q, [], ⟨decMove_keeps_inv h.inv (decTurn_move hturn), hq, htq, by rw [hidx]; rfl, hheld⟩, ?_, ?_⟩
  · rw [decodeLeft_end hfull, decodeLeft, takeMore_nil, hans, hnext]
  · rw [hans]
    omega

/-- A completed decode returns what the registers hold (R213). -/
theorem decComplete_stops (s : State) :
    DecodeStops (decComplete s)
      (.ok (memBytes s.rkbuf s.dec.klen.toNat) (memBytes s.rvbuf s.dec.vlen.toNat) s.dec.tag s.sourceAnswers) :=
  ⟨decTurn_of_resting (.inr (.inl rfl)), ⟨rfl, rfl, rfl, rfl, rfl, rfl, rfl, rfl, rfl⟩, rfl⟩

/-- The header word whose fields are taken is the one the description assembles (R196). -/
theorem DecWork.headerEnds (h : DecWork s .header got) (hfull : got.length = 2) :
    WorkGoesOn s (decHeaderAdvance s) .header got := by
  have hidx : s.dec.idx.toNat = 2 := h.counted.trans hfull
  have hword : (lenAssemble got).setWidth 16 = s.dec.hdr := by
    have hheld := h.held
    rw [decHolds, hidx] at hheld
    rw [← hheld]
    exact (lenAssemble_pair _ _).trans (high_append_low 8 8 s.dec.hdr)
  refine h.advances hfull (decTurn_fieldEnd h.phase rfl hidx) (q := .length) rfl rfl rfl rfl rfl (by decide) ?_
  rw [decodeAfter, decodeLength, hword, ← Width.bits_toNat]
  rfl

theorem DecWork.lengthEnds (h : DecWork s .length got) (hfull : got.length = s.dec.width.toNat) :
    WorkGoesOn s (decAdvance .key s) .length got := by
  obtain ⟨-, -, -, hklen⟩ := h.inv.dec.latched .length h.phase rfl
  have hvlen : s.dec.vlen = lenAssemble got := h.held
  refine h.advances hfull (decTurn_fieldEnd h.phase rfl (h.counted.trans hfull)) (q := .key) rfl rfl rfl rfl rfl
    (by decide) ?_
  rw [decodeAfter, decodeKey, ← hvlen, ← hklen]
  rfl

theorem DecWork.keyEnds (h : DecWork s .key got) (hfull : got.length = s.dec.klen.toNat) :
    WorkGoesOn s (decAdvance .value s) .key got := by
  have hidx : s.dec.idx.toNat = s.dec.klen.toNat := h.counted.trans hfull
  have hkey : memBytes s.rkbuf s.dec.klen.toNat = got := hidx ▸ h.held
  refine h.advances hfull (decTurn_fieldEnd h.phase rfl hidx) (q := .value) rfl rfl rfl rfl rfl (by decide) ?_
  rw [decodeAfter, decodeValue, ← hkey]
  rfl

/-- The value ends in the trailer of a frame whose flag is set, and in completion without one (R205). -/
theorem DecWork.valueEnds (h : DecWork s .value got) (hfull : got.length = s.dec.vlen.toNat) :
    WorkGoesOn s (decValueAdvance s) .value got := by
  have hidx : s.dec.idx.toNat = s.dec.vlen.toNat := h.counted.trans hfull
  have hvalue : memBytes s.rvbuf s.dec.vlen.toNat = got := hidx ▸ h.held
  obtain ⟨-, hflag, htag, -⟩ := h.inv.dec.latched .value h.phase rfl
  obtain ⟨hck, hend⟩ | ⟨hck, hend⟩ := decValueAdvance_cases s
  · refine h.advances hfull (decTurn_fieldEnd h.phase rfl hidx) (q := .checksum) (by rw [hend]; rfl) rfl
      (by rw [hend]; rfl) (by rw [hend]; exact fun _ => rfl) (by rw [hend]; rfl) (by decide) ?_
    rw [hend, decodeAfter, decodeEnd, ← hflag, if_pos hck, ← hvalue]
    rfl
  · refine .inl ?_
    rw [hend, decodeLeft_end (s := s) (p := .value) hfull, decodeAfter, decodeEnd, ← hflag, if_neg (by simp [hck]), ← htag,
      ← hvalue]
    exact decComplete_stops s

/-- The trailer ends in the description's verdict: the digest compared is that of the key and the value (R209 to R211). -/
theorem DecWork.checksumEnds (h : DecWork s .checksum got) (hfull : got.length = 4) :
    WorkGoesOn s (decChecksumAdvance s) .checksum got := by
  obtain ⟨-, -, htag, -⟩ := h.inv.dec.latched .checksum h.phase rfl
  refine .inl ?_
  rw [decodeLeft_end (s := s) (p := .checksum) hfull, decodeAfter, ← htag, decodeVerify]
  cases hen : s.decHashEn with
  | false =>
    rw [if_pos rfl, decChecksumAdvance, hen]
    exact decComplete_stops s
  | true =>
    rw [if_neg (by decide), ← h.held hen, ← final_acc_in_checksum h.inv.dec h.phase hen, decChecksumAdvance, hen,
      cond_true]
    by_cases hd : s.decHash.final s.dec.acc = s.dec.digrx
    · rw [if_pos hd, if_pos hd.symm]
      exact decComplete_stops s
    · rw [if_neg hd, if_neg (Ne.symm hd)]
      exact h.raises ⟨.checksumMismatch, .checksum, 0, 0⟩ s.sourceAnswers

/-- The end of a field, whichever it is. -/
theorem DecWork.fieldEnds (h : DecWork s p got) (hfull : got.length = decFieldLength s.dec p) :
    WorkGoesOn s (decFieldEnd s p) p got := by
  have ht := h.transfers
  cases p with
  | header => exact h.headerEnds hfull
  | length => exact h.lengthEnds hfull
  | key => exact h.keyEnds hfull
  | value => exact h.valueEnds hfull
  | checksum => exact h.checksumEnds hfull
  | _ => cases ht

/-- A working decoder's turn, in each case: an end of a field, a wait, a byte or a failure. -/
theorem DecWork.turn (h : DecWork s p got) : ∃ t, decTurn s = .next t ∧ WorkGoesOn s t p got := by
  have hterm : p.terminal = false := by
    have ht := h.transfers
    cases p with
    | done | error | eos => cases ht
    | _ => rfl
  have hle : got.length ≤ decFieldLength s.dec p := h.counted ▸ h.inv.dec.idx p h.phase hterm
  obtain hlt | hfull := hle.lt_or_eq
  · cases ha : s.sourceAnswers with
    | nil => exact ⟨s, (h.waits hlt ha).1, .inl (h.waits hlt ha)⟩
    | cons a rest =>
      cases a with
      | byte b => exact h.takes hlt ha
      | eos | err =>
        obtain ⟨t, hturn, hstop⟩ := h.fails hlt ha (by simp)
        exact ⟨t, hturn, .inl hstop⟩
  · exact ⟨_, decTurn_fieldEnd h.phase h.transfers (h.counted.trans hfull), h.fieldEnds hfull⟩

theorem DecWork.fieldsLeft_pos (h : DecWork s p got) : 0 < fieldsLeft p := by
  have ht := h.transfers
  cases p with
  | header | length | key | value | checksum => decide
  | _ => cases ht

end

end Sys2Proof.Machine
end

section
/-! What becomes of that work: the run of a decode command (R217). -/

namespace Sys2Proof.Machine

/-- How a decoder has ended does not depend on whose turn is next. -/
theorem DecodeEnds.turns {t : State} {o : DecodeOutcome} (h : DecodeEnds t o) (ts : List Agent) :
    DecodeEnds { t with turns := ts } o := by
  cases o <;> exact h

/-- A working decoder that is given a turn for each answer and each end of a field ends as the description says. -/
theorem DecWork.ends {n : Nat} {s : State} {p : Phase} {got : List Byte} (h : DecWork s p got)
    (hn : s.sourceAnswers.length + fieldsLeft p ≤ n) (ts : List Agent) :
    ∃ t, runSteps n (withTurns n .dec ts s) = .next t ∧ DecodeEnds t (decodeLeft s p got) := by
  induction n generalizing s p got with
  | zero =>
    have hpos := h.fieldsLeft_pos
    omega
  | succ n ih =>
    have hreach := inv_phasesReachable h.inv
    obtain ⟨m, hturn, ⟨hstill, hends⟩ | ⟨q, more, hwork, hleft, hless⟩⟩ := h.turn
    · have hrun := runSteps_of_unchanged dec_turnsBlind (dec_turnsBlind.reachable hturn hreach) hstill n ts
      exact ⟨_, (runSteps_withTurns_succ dec_turnsBlind).mpr ⟨hreach, m, hturn, hrun⟩, hends.turns ts⟩
    · obtain ⟨t, hrun, hends⟩ := ih hwork (by omega)
      exact ⟨t, (runSteps_withTurns_succ dec_turnsBlind).mpr ⟨hreach, m, hturn, hrun⟩, hleft ▸ hends⟩

/-- A run of decoder's turns writes the decoder's registers but `OP`, the result buffers and the source (R43). -/
theorem runSteps_dec_frame {n : Nat} {ts : List Agent} {s t : State} (h : runSteps n (withTurns n .dec ts s) = .next t) :
    t = { s with turns := ts, dec := t.dec, rkbuf := t.rkbuf, rvbuf := t.rvbuf, sourceAnswers := t.sourceAnswers } ∧
      t.dec.op = s.dec.op := by
  induction n generalizing s with
  | zero => cases h; exact ⟨rfl, rfl⟩
  | succ n ih =>
    obtain ⟨-, m, hm, hr⟩ := (runSteps_withTurns_succ dec_turnsBlind).mp h
    obtain ⟨hf, hop⟩ := decMove_frame (decTurn_move hm)
    obtain ⟨hframe, hop'⟩ := ih hr
    refine ⟨hframe.trans ?_, hop'.trans hop⟩
    rw [hf]

/-- DEC.ISSUE in `IDLE` keeps the invariant. -/
theorem decLatch_keeps_inv {s : State} (h : Inv s) (hp : s.dec.phase = Phase.idle.code) (op : Bool) :
    Inv (decLatch op s) :=
  ⟨encInv_congr h.enc rfl rfl rfl rfl rfl, decLatch_inv (decInv_acc_eq_init h.dec hp rfl) op, h.buffers⟩

/-- Settles O52: an issued command works on a frame of which nothing has been taken, so the whole description is before it. -/
theorem decodeCommandAgreesWithItsDescription : Obligations.DecodeCommandAgreesWithItsDescription := by
  intro s op ts n hinv hp hn
  have hwork : DecWork (decLatch op s) .header [] := ⟨decLatch_keeps_inv hinv hp op, rfl, rfl, rfl, rfl⟩
  obtain ⟨t, hrun, hends⟩ := hwork.ends (n := n) hn ts
  obtain ⟨hframe, hop⟩ := runSteps_dec_frame hrun
  refine ⟨_, t, (exec_decodeCommand op s).trans (decIssue_of_idle hp op), hrun, hframe, ?_⟩
  have hwhole : decodeLeft (decLatch op s) .header [] = decodeTaggedWhole s.decHashEn s.decHash s.sourceAnswers := rfl
  have hop' : t.dec.op = op := hop
  rw [hwhole] at hends
  cases hd : decodeTaggedWhole s.decHashEn s.decHash s.sourceAnswers with
  | ok key value tag rest => rw [hd, DecodeEnds, hop'] at hends; exact hends
  | failed | waiting => rw [hd] at hends; exact hends

end Sys2Proof.Machine
end

section
/-! Decoding a frame an encoder made (R238 to R242): each field read back where the frame has it. -/

namespace Sys2Proof.Machine

/-! ### Reading back what the encoder's operators emit -/

/-- The two wire bytes of a header word are assembled to that word (R93, R193). -/
theorem lenAssemble_headerBytes (h : BitVec 16) : (lenAssemble (headerBytes h)).setWidth 16 = h :=
  (lenAssemble_pair _ _).trans (high_append_low 8 8 h)

/-- The four trailer bytes of a digest are assembled to that digest (R206, R237). -/
theorem lenAssemble_digestBytes (d : BitVec 32) : lenAssemble (digestBytes d) = d :=
  lenAssemble_lenEmit (w := .four) d.isLt

/-- The length field of a value that has a width is assembled to the value's length. -/
theorem lenAssemble_lengthField {value : List Byte} {w : Width}
    (hw : widthOf (BitVec.ofNat 64 value.length) = some w) (hv : value.length < 2 ^ 64) :
    (lenAssemble (lenEmit w (BitVec.ofNat 32 value.length))).toNat = value.length := by
  obtain ⟨-, hfits⟩ := widthOf_eq_some_iff.mp hw
  rw [BitVec.toNat_ofNat, Nat.mod_eq_of_lt hv] at hfits
  have hword : 256 ^ w.toNat ≤ 2 ^ 32 := Nat.pow_le_pow_right (by decide) w.toNat_le_four
  have hlen : (BitVec.ofNat 32 value.length).toNat = value.length := by
    rw [BitVec.toNat_ofNat, Nat.mod_eq_of_lt (hfits.trans_le hword)]
  rw [lenAssemble_lenEmit (hlen.symm ▸ hfits), hlen]

theorem headerBytes_length (h : BitVec 16) : (headerBytes h).length = 2 := rfl

theorem digestBytes_length (d : BitVec 32) : (digestBytes d).length = 4 := lenEmit_length .four d

/-! ### Taking a field the source has in full -/

theorem takeLeft_bytes (ph : Phase) (n : Nat) (bytes : List Byte) (more : List SourceAnswer) :
    takeLeft ph n bytes.length (bytes.map .byte ++ more) = .got bytes more := by
  induction bytes with
  | nil => rfl
  | cons b bytes ih => exact congrArg (TakeOutcome.cons b) ih

/-- Where a field's bytes come first, the field is taken and the description goes on with what stands behind them. -/
theorem takeField_bytes_andThen (ph : Phase) {n : Nat} {bytes : List Byte} (hlen : bytes.length = n)
    (more : List SourceAnswer) (k : List Byte → List SourceAnswer → DecodeOutcome) :
    (takeField ph n (bytes.map .byte ++ more)).andThen k = k bytes more := by
  subst hlen
  rw [takeField, takeLeft_bytes]
  rfl

/-! ### The fields of a frame, from the last to the first -/

/-- The trailer of a frame fails exactly the reader that verifies with a hash of another value (R238 to R241). -/
theorem decodeEnd_frameTrailer (encEn decEn : Bool) (encH decH : HashFn) (w : Width) (tag : BitVec 4) (klen : BitVec 9)
    (key value : List Byte) (more : List SourceAnswer) :
    decodeEnd decEn decH ⟨w, encEn, tag, klen⟩ key value ((frameTrailer encEn encH (key ++ value)).map .byte ++ more) =
      if encEn = true ∧ decEn = true ∧ decH.dig (key ++ value) ≠ encH.dig (key ++ value) then
        .failed ⟨.checksumMismatch, .checksum, 0, 0⟩ more
      else .ok key value tag more := by
  cases encEn with
  | false => rfl
  | true =>
    rw [decodeEnd, if_pos rfl, frameTrailer, cond_true, takeField_bytes_andThen .checksum (digestBytes_length _),
      decodeVerify, lenAssemble_digestBytes]
    cases decEn with
    | false => rfl
    | true => simp [eq_comm]

/-- A header goes on as the fields packed into it say (R193 to R196). -/
theorem decodeLength_pack (hashEn : Bool) (h : HashFn) (w : Width) (ck : Bool) (tag : BitVec 4) (klen : BitVec 9)
    (answers : List SourceAnswer) :
    decodeLength hashEn h (headerBytes (pack w ck tag klen)) answers =
      (takeField .length w.toNat answers).andThen (decodeKey hashEn h ⟨w, ck, tag, klen⟩) := by
  rw [decodeLength, lenAssemble_headerBytes, unpack_pack]

/-- Settles O56: each field is read back where the frame has it, and what is left to say is what the trailer does. -/
theorem decodeOfAFrame : Obligations.DecodeOfAFrame := by
  intro encEn decEn encH decH tag w key value more hkey hw hv
  have hklen : key.length = (BitVec.ofNat 9 key.length).toNat := by
    rw [BitVec.toNat_ofNat, Nat.mod_eq_of_lt (by omega)]
  rw [frameOf_eq_parts, decodeTaggedWhole_eq]
  simp only [List.map_append, List.append_assoc]
  rw [takeField_bytes_andThen .header (headerBytes_length _), decodeLength_pack,
    takeField_bytes_andThen .length (lenEmit_length w _), decodeKey,
    takeField_bytes_andThen .key hklen, decodeValue,
    takeField_bytes_andThen .value (lenAssemble_lengthField hw hv).symm, decodeEnd_frameTrailer]

end Sys2Proof.Machine
end

section
/-! Encode, then decode from the sink's bytes: the record comes back (R315). -/

namespace Sys2Proof.Machine

/-! ### The encode -/

/-- A run of encoder's turns keeps the invariant (R40). -/
theorem runSteps_enc_keeps_inv {n : Nat} {ts : List Agent} {s t : State} (h : Inv s)
    (hrun : runSteps n (withTurns n .enc ts s) = .next t) : Inv t := by
  induction n generalizing s with
  | zero => cases hrun; exact inv_turns h ts
  | succ n ih =>
    obtain ⟨-, m, hm, hr⟩ := (runSteps_withTurns_succ enc_turnsBlind).mp hrun
    exact ih (encMove_keeps_inv h (encTurn_move hm)) hr

/-- Lengths within the limits of R162 have a width. -/
theorem validation_of_lengths {klen vlen : BitVec 64} (hk : klen.toNat ≤ 511) (hv : vlen.toNat < 2 ^ 32) :
    ∃ w, validation klen vlen = .ok w := by
  have hsome : widthOf vlen ≠ none := fun hn => absurd (widthOf_eq_none_iff.mp hn) (not_le.mpr hv)
  obtain ⟨w, hw⟩ := Option.ne_none_iff_exists'.mp hsome
  exact ⟨w, validation_eq_ok_iff.mpr ⟨hk, hw⟩⟩

/-- The width field takes at most four bytes and the trailer four (R100). -/
theorem frameLength_le (hashEn : Bool) (w : Width) (k v : Nat) : frameLength hashEn w k v ≤ k + v + 10 := by
  have hw := w.toNat_le_four
  have hc := Bool.toNat_le hashEn
  rw [frameLength_eq]
  omega

/-- A sink that accepts every push, and has an answer for each, takes the whole frame (R182). -/
theorem pushFrame_of_accepting (hashEn : Bool) (h : HashFn) (tag : BitVec 4) (w : Width) (key value : List Byte)
    {answers : List SinkAnswer} (hok : ∀ a ∈ answers, a = .ok)
    (hlen : frameLength hashEn w key.length value.length ≤ answers.length) :
    ∃ rest, pushFrame hashEn h tag w key value answers = .all (frameOf hashEn h tag w key value) rest := by
  have hsplit : answers = List.replicate (frameLength hashEn w key.length value.length) .ok ++
      List.replicate (answers.length - frameLength hashEn w key.length value.length) .ok := by
    rw [List.replicate_append_replicate, Nat.add_sub_cancel' hlen]
    exact List.eq_replicate_of_mem hok
  rw [hsplit]
  exact ⟨_, (pushFrameOutcomes hashEn h tag w key value _).1⟩

/-- Every push accepted, an accepted ENCODE_TAGGED ends in `DONE` with its frame in `SINK` and the other unit untouched (R182). -/
theorem encodeTagged_writes_frame {s : State} (h : Inv s) (hp : s.enc.phase = Phase.idle.code) (tag : BitVec 4)
    {klen vlen : BitVec 64} {w : Width} (hv : validation klen vlen = .ok w) (hok : ∀ a ∈ s.sinkAnswers, a = .ok)
    (hlen : klen.toNat + vlen.toNat + 10 ≤ s.sinkAnswers.length) {n : Nat} (hn : klen.toNat + vlen.toNat + 16 ≤ n) :
    ∃ u t, exec (.encodeTagged tag klen vlen) s = .next u ∧ runSteps n (withTurns n .enc [] u) = .next t ∧
      encSucceeded t ∧ Inv t ∧
      t.sink = s.sink ++ frameOf s.encHashEn s.encHash tag w (memBytes s.kbuf klen.toNat) (memBytes s.vbuf vlen.toNat) ∧
      t = { s with turns := [], enc := t.enc, sink := t.sink, sinkAnswers := t.sinkAnswers } := by
  have hle := frameLength_le s.encHashEn w klen.toNat vlen.toNat
  obtain ⟨u, t, hexec, hrun, hframe, hends⟩ :=
    encodeCommandPushesItsFrame s true tag klen vlen w [] n h hp hv (by omega)
  obtain ⟨rest, hall⟩ := pushFrame_of_accepting s.encHashEn s.encHash tag w (memBytes s.kbuf klen.toNat)
    (memBytes s.vbuf vlen.toNat) hok (by rw [memBytes_length, memBytes_length]; omega)
  rw [cond_true, hall] at hends
  obtain ⟨hdone, hsink, -⟩ := hends
  have hissue := (exec_encodeCommand true tag klen vlen s).trans (encIssue_of_idle hp true tag klen vlen)
  have hu : Inv u := by
    cases hexec.symm.trans hissue
    exact encLatch_keeps_inv h hp true tag klen vlen
  exact ⟨u, t, hexec, hrun, hdone, runSteps_enc_keeps_inv hu hrun, hsink, hframe⟩

/-! ### The decode -/

/-- The invariant does not depend on what the source will answer. -/
theorem inv_sourceAnswers {s : State} (h : Inv s) (answers : List SourceAnswer) :
    Inv { s with sourceAnswers := answers } :=
  ⟨encInv_congr h.enc rfl rfl rfl rfl rfl, decInv_congr h.dec rfl rfl rfl rfl rfl, h.buffers⟩

/-- DECODE_TAGGED of a frame at the front of the source leaves what stands behind it and returns the frame's record, or reports
`ChecksumMismatch` where the frame's digest is not the verifying reader's (R217, R241, R242). -/
theorem decodeTagged_reads_frame {s : State} (h : Inv s) (hp : s.dec.phase = Phase.idle.code) {encEn : Bool} {encH : HashFn}
    {tag : BitVec 4} {w : Width} {key value : List Byte} {more : List SourceAnswer} (hkey : key.length ≤ 511)
    (hw : widthOf (BitVec.ofNat 64 value.length) = some w) (hvalue : value.length < 2 ^ 64)
    (hsource : s.sourceAnswers = (frameOf encEn encH tag w key value).map .byte ++ more)
    {m : Nat} (hm : key.length + value.length + more.length + 15 ≤ m) :
    ∃ v x, exec .decodeTagged s = .next v ∧ runSteps m (withTurns m .dec [] v) = .next x ∧ x.sourceAnswers = more ∧
      if encEn = true ∧ s.decHashEn = true ∧ s.decHash.dig (key ++ value) ≠ encH.dig (key ++ value) then
        decFailedWith ⟨.checksumMismatch, .checksum, 0, 0⟩ x
      else decSucceeded key value tag x := by
  have hle := frameLength_le encEn w key.length value.length
  have hlen : s.sourceAnswers.length = frameLength encEn w key.length value.length + more.length := by
    rw [hsource, List.length_append, List.length_map, frameOf_length_eq_failures, frameFailures_length]
  obtain ⟨v, x, hexec, hrun, -, hends⟩ := decodeCommandAgreesWithItsDescription s true [] m h hp (by omega)
  rw [hsource, decodeOfAFrame encEn s.decHashEn encH s.decHash tag w key value more hkey hw hvalue] at hends
  refine ⟨v, x, hexec, hrun, ?_⟩
  split_ifs at hends ⊢ <;> exact hends.symm

/-! ### Both -/

/-- Settles O57: the encode puts the frame of the record in the sink, and the decode of that frame is the record. -/
theorem recordSurvivesEncodeThenDecode : Obligations.RecordSurvivesEncodeThenDecode := by
  intro s tag klen vlen key value more n m hinv hpe hpd hkey hvalue hk hv hok hlen hn hm
  obtain ⟨w, hval⟩ := validation_of_lengths hk hv
  obtain ⟨u, t, hencode, hrun, hdone, ht, hsink, hframe⟩ := encodeTagged_writes_frame hinv hpe tag hval hok hlen hn
  have hgained : t.sink.drop s.sink.length = frameOf s.encHashEn s.encHash tag w key value := by
    rw [hsink, List.drop_left, hkey, hvalue]
  have hklen : key.length = klen.toNat := by rw [hkey, memBytes_length]
  have hvlen : value.length = vlen.toNat := by rw [hvalue, memBytes_length]
  have hw : widthOf (BitVec.ofNat 64 value.length) = some w := by
    rw [hvlen, BitVec.ofNat_toNat, BitVec.setWidth_eq]
    exact (validation_eq_ok_iff.mp hval).2
  have hidle : t.dec.phase = Phase.idle.code := by rw [hframe]; exact hpd
  have hen : t.decHashEn = s.decHashEn := by rw [hframe]
  have hhash : t.decHash = s.decHash := by rw [hframe]
  obtain ⟨v, x, hdecode, hrun', hrest, hends⟩ :=
    decodeTagged_reads_frame (inv_sourceAnswers ht ((t.sink.drop s.sink.length).map .byte ++ more)) hidle
      (hklen.trans_le hk) hw (by omega) (by rw [hgained]) (m := m) (by omega)
  rw [hen, hhash] at hends
  exact ⟨u, t, v, x, hencode, hrun, hdone, hdecode, hrun', hrest, hends⟩

end Sys2Proof.Machine
end
